-- ==== Sys2Proof/Word.lean ====
section
/-! DEFINITION. The words of the UCS block: `XLEN = PLEN = 32` bits (00_scope R6), memory in bytes. -/

namespace Sys2Proof

/-- A machine word, an index, a count, a size or an address: 32 bits, unsigned, arithmetic modulo
`2^32` (00_scope R6, R8). -/
abbrev Word := BitVec 32

/-- One byte of memory. -/
abbrev Byte := BitVec 8

end Sys2Proof
end

