-- ==== Sys2Proof/Config.lean ====
section
/-! DEFINITION. The parameters of the block (00_scope R6) and the free values. -/

namespace Sys2Proof

/-- `MONITOR_LOSS` (00_scope R6, 20_memory R68): whether a reservation may be lost with no access. -/
inductive MonitorLoss where
  | allowed | never
deriving DecidableEq, Repr

/-- `ATOMIC_BACKEND` (00_scope R3, R6): exclusive access, or the interrupt-masked alternative of
40_atomic_core R113. -/
inductive AtomicBackend where
  | llsc | irqmask
deriving DecidableEq, Repr

/-- The configuration of the block. The open parameters of 00_scope R6 are arguments of the model: the
configuration is part of the state, no step changes it, and a statement about every state is a
statement about every configuration. -/
structure Config where
  /-- `NCORE`, the number of cores. -/
  ncore : Nat
  /-- `MAXNEST`, the deepest interrupt nesting of a core. -/
  maxnest : Nat
  /-- `MEM_BASE`, the first populated address. -/
  memBase : Nat
  /-- `MEM_SIZE`, the number of populated bytes. -/
  memSize : Nat
  /-- `MONITOR_LOSS`. -/
  monitorLoss : MonitorLoss
  /-- `ATOMIC_BACKEND`. -/
  backend : AtomicBackend
deriving DecidableEq, Repr

/-- The constraints on the parameters (00_scope R6, 92 "Open parameters"): at least one core; `MEM_BASE`
at least 4 and a multiple of 4; the region inside the 32-bit space; `IRQMASK` only with one core. -/
def Config.legal (c : Config) : Bool :=
  decide (1 ≤ c.ncore) && decide (4 ≤ c.memBase) && decide (c.memBase % 4 = 0) &&
    decide (c.memBase + c.memSize ≤ 2 ^ 32) &&
    (decide (c.backend = .llsc) || decide (c.ncore = 1))

/-- The configuration `State.reset` holds: the values 95_test_vectors uses where it says nothing else,
with `MONITOR_LOSS` and `ATOMIC_BACKEND` as 00_scope R6 fixes them. DESIGN CHOICE, log 1: unsafe for a
statement about `State.reset` alone; a statement about every state does not rest on it. -/
def Config.standard : Config :=
  { ncore := 2, maxnest := 1, memBase := 0x1000, memSize := 0x3000,
    monitorLoss := .allowed, backend := .llsc }

/-- The free values: what a register holds where the spec says 'unspecified' and the machine goes on
(60_exceptions R208: the registers of a handler context at entry; 10_state R26: the temporaries after
`done`). Nothing constrains them; each use takes a fresh argument. DESIGN CHOICE, log 6: safe. -/
opaque Config.freeWord : Nat → Word

end Sys2Proof
end

