-- ==== Sys2Proof/Syntax.lean ====
section
/-! DEFINITION. The commands of the UCS block: one constructor of `Instr` for each of the 52 rows of
spec/opcode_table.json (30_encoding R87). -/

namespace Sys2Proof

/-- The three access widths (20_memory R54) and the three cell widths of a Bit-Field command
(41_bitfield_ops R120). -/
inductive Width where
  | byte | half | word
deriving DecidableEq, Repr

/-- The number of bytes `n` of an access. -/
def Width.bytes : Width → Nat
  | .byte => 1 | .half => 2 | .word => 4

/-- The number of bits `W = 8 << SZ` of a cell (30_encoding R84). -/
def Width.bits : Width → Nat
  | .byte => 8 | .half => 16 | .word => 32

/-- The seven Bit-Field operations (41_bitfield_ops R122 to R128). -/
inductive BitOp where
  | set | clear | change | test | testSet | testClear | testChange
deriving DecidableEq, Repr

/-- A command without its immediate: one value for each row of the opcode table. It is the `op` of a
position `(op, Sx)` of the micro-sequencer (10_state R25). -/
inductive Op where
  | bit (o : BitOp) (w : Width)
  | aload | astore | aadd | asub | aand | aor | axor | axchg
  | afclr | aftas | acas | rinit | rprod | rcons | rpeek | rlin
  | rskip | rprodl | rconsl | rlinl | irqlock | irqunlock | csenter | csexit
  | intenter | intleave | inint | spinit | splock | sptry | spunlock
deriving DecidableEq, Repr

/-- The commands. `bit` is the immediate `BIT` of a Bit-Field command (30_encoding R84). -/
inductive Instr where
  /-- `ALOAD` (R102). -/
  | aload
  /-- `ASTORE` (R103). -/
  | astore
  /-- `AADD` (R104). -/
  | aadd
  /-- `ASUB` (R105). -/
  | asub
  /-- `AAND` (R106). -/
  | aand
  /-- `AOR` (R107). -/
  | aor
  /-- `AXOR` (R108). -/
  | axor
  /-- `AXCHG` (R109). -/
  | axchg
  /-- `AFCLR` (R110). -/
  | afclr
  /-- `AFTAS` (R111). -/
  | aftas
  /-- `ACAS` (R112). -/
  | acas
  /-- `BSET.B` (R122). -/
  | bsetB (bit : BitVec 5)
  /-- `BSET.H` (R122). -/
  | bsetH (bit : BitVec 5)
  /-- `BSET.W` (R122). -/
  | bsetW (bit : BitVec 5)
  /-- `BCLR.B` (R123). -/
  | bclrB (bit : BitVec 5)
  /-- `BCLR.H` (R123). -/
  | bclrH (bit : BitVec 5)
  /-- `BCLR.W` (R123). -/
  | bclrW (bit : BitVec 5)
  /-- `BCHG.B` (R124). -/
  | bchgB (bit : BitVec 5)
  /-- `BCHG.H` (R124). -/
  | bchgH (bit : BitVec 5)
  /-- `BCHG.W` (R124). -/
  | bchgW (bit : BitVec 5)
  /-- `BTST.B` (R125). -/
  | btstB (bit : BitVec 5)
  /-- `BTST.H` (R125). -/
  | btstH (bit : BitVec 5)
  /-- `BTST.W` (R125). -/
  | btstW (bit : BitVec 5)
  /-- `BTAS.B` (R126). -/
  | btasB (bit : BitVec 5)
  /-- `BTAS.H` (R126). -/
  | btasH (bit : BitVec 5)
  /-- `BTAS.W` (R126). -/
  | btasW (bit : BitVec 5)
  /-- `BTAC.B` (R127). -/
  | btacB (bit : BitVec 5)
  /-- `BTAC.H` (R127). -/
  | btacH (bit : BitVec 5)
  /-- `BTAC.W` (R127). -/
  | btacW (bit : BitVec 5)
  /-- `BTCH.B` (R128). -/
  | btchB (bit : BitVec 5)
  /-- `BTCH.H` (R128). -/
  | btchH (bit : BitVec 5)
  /-- `BTCH.W` (R128). -/
  | btchW (bit : BitVec 5)
  /-- `RINIT` (R142). -/
  | rinit
  /-- `RPROD` (R146). -/
  | rprod
  /-- `RCONS` (R147). -/
  | rcons
  /-- `RPEEK` (R148). -/
  | rpeek
  /-- `RLIN` (R149). -/
  | rlin
  /-- `RSKIP` (R150). -/
  | rskip
  /-- `RPRODL` (R152). -/
  | rprodl
  /-- `RCONSL` (R153). -/
  | rconsl
  /-- `RLINL` (R154). -/
  | rlinl
  /-- `IRQLOCK` (R173). -/
  | irqlock
  /-- `IRQUNLOCK` (R174). -/
  | irqunlock
  /-- `CSENTER` (R175). -/
  | csenter
  /-- `CSEXIT` (R176). -/
  | csexit
  /-- `INTENTER` (R177). -/
  | intenter
  /-- `INTLEAVE` (R178). -/
  | intleave
  /-- `ININT` (R179). -/
  | inint
  /-- `SPINIT` (R191). -/
  | spinit
  /-- `SPLOCK` (R192). -/
  | splock
  /-- `SPTRY` (R193). -/
  | sptry
  /-- `SPUNLOCK` (R194). -/
  | spunlock
deriving DecidableEq, Repr

/-- The row of the opcode table a command belongs to. -/
def Instr.op : Instr → Op
  | .aload => .aload
  | .astore => .astore
  | .aadd => .aadd
  | .asub => .asub
  | .aand => .aand
  | .aor => .aor
  | .axor => .axor
  | .axchg => .axchg
  | .afclr => .afclr
  | .aftas => .aftas
  | .acas => .acas
  | .bsetB _ => .bit .set .byte
  | .bsetH _ => .bit .set .half
  | .bsetW _ => .bit .set .word
  | .bclrB _ => .bit .clear .byte
  | .bclrH _ => .bit .clear .half
  | .bclrW _ => .bit .clear .word
  | .bchgB _ => .bit .change .byte
  | .bchgH _ => .bit .change .half
  | .bchgW _ => .bit .change .word
  | .btstB _ => .bit .test .byte
  | .btstH _ => .bit .test .half
  | .btstW _ => .bit .test .word
  | .btasB _ => .bit .testSet .byte
  | .btasH _ => .bit .testSet .half
  | .btasW _ => .bit .testSet .word
  | .btacB _ => .bit .testClear .byte
  | .btacH _ => .bit .testClear .half
  | .btacW _ => .bit .testClear .word
  | .btchB _ => .bit .testChange .byte
  | .btchH _ => .bit .testChange .half
  | .btchW _ => .bit .testChange .word
  | .rinit => .rinit
  | .rprod => .rprod
  | .rcons => .rcons
  | .rpeek => .rpeek
  | .rlin => .rlin
  | .rskip => .rskip
  | .rprodl => .rprodl
  | .rconsl => .rconsl
  | .rlinl => .rlinl
  | .irqlock => .irqlock
  | .irqunlock => .irqunlock
  | .csenter => .csenter
  | .csexit => .csexit
  | .intenter => .intenter
  | .intleave => .intleave
  | .inint => .inint
  | .spinit => .spinit
  | .splock => .splock
  | .sptry => .sptry
  | .spunlock => .spunlock

/-- The immediate field `BIT`; 0 in every command that has none (30_encoding R81). -/
def Instr.bit : Instr → BitVec 5
  | .bsetB b => b
  | .bsetH b => b
  | .bsetW b => b
  | .bclrB b => b
  | .bclrH b => b
  | .bclrW b => b
  | .bchgB b => b
  | .bchgH b => b
  | .bchgW b => b
  | .btstB b => b
  | .btstH b => b
  | .btstW b => b
  | .btasB b => b
  | .btasH b => b
  | .btasW b => b
  | .btacB b => b
  | .btacH b => b
  | .btacW b => b
  | .btchB b => b
  | .btchH b => b
  | .btchW b => b
  | .aload | .astore | .aadd | .asub | .aand | .aor | .axor | .axchg
  | .afclr | .aftas | .acas | .rinit | .rprod | .rcons | .rpeek | .rlin
  | .rskip | .rprodl | .rconsl | .rlinl | .irqlock | .irqunlock | .csenter | .csexit
  | .intenter | .intleave | .inint | .spinit | .splock | .sptry | .spunlock => 0#5

/-- The mnemonic of a command, letter for letter as in spec/opcode_table.json. -/
def Instr.mnemonic : Instr → String
  | .aload => "ALOAD"
  | .astore => "ASTORE"
  | .aadd => "AADD"
  | .asub => "ASUB"
  | .aand => "AAND"
  | .aor => "AOR"
  | .axor => "AXOR"
  | .axchg => "AXCHG"
  | .afclr => "AFCLR"
  | .aftas => "AFTAS"
  | .acas => "ACAS"
  | .bsetB _ => "BSET.B"
  | .bsetH _ => "BSET.H"
  | .bsetW _ => "BSET.W"
  | .bclrB _ => "BCLR.B"
  | .bclrH _ => "BCLR.H"
  | .bclrW _ => "BCLR.W"
  | .bchgB _ => "BCHG.B"
  | .bchgH _ => "BCHG.H"
  | .bchgW _ => "BCHG.W"
  | .btstB _ => "BTST.B"
  | .btstH _ => "BTST.H"
  | .btstW _ => "BTST.W"
  | .btasB _ => "BTAS.B"
  | .btasH _ => "BTAS.H"
  | .btasW _ => "BTAS.W"
  | .btacB _ => "BTAC.B"
  | .btacH _ => "BTAC.H"
  | .btacW _ => "BTAC.W"
  | .btchB _ => "BTCH.B"
  | .btchH _ => "BTCH.H"
  | .btchW _ => "BTCH.W"
  | .rinit => "RINIT"
  | .rprod => "RPROD"
  | .rcons => "RCONS"
  | .rpeek => "RPEEK"
  | .rlin => "RLIN"
  | .rskip => "RSKIP"
  | .rprodl => "RPRODL"
  | .rconsl => "RCONSL"
  | .rlinl => "RLINL"
  | .irqlock => "IRQLOCK"
  | .irqunlock => "IRQUNLOCK"
  | .csenter => "CSENTER"
  | .csexit => "CSEXIT"
  | .intenter => "INTENTER"
  | .intleave => "INTLEAVE"
  | .inint => "ININT"
  | .spinit => "SPINIT"
  | .splock => "SPLOCK"
  | .sptry => "SPTRY"
  | .spunlock => "SPUNLOCK"

end Sys2Proof
end

