-- ==== Sys2Proof/Machine/State.lean ====
section
/-! DEFINITION. The state of the machine (10_state R20 to R38): plain data, every piece of state the spec
gives the block, and the parameters of the step relation (R20, last paragraph) as data beside it. -/

namespace Sys2Proof.Machine

/-- The step labels of the command rules. `LOADDESC` stands at `s0` to `s4` (42_ring_buffer R146:
"S0..S4: LOADDESC D0..D4"); `l0` and `lz` are the acquire and release steps of a locked ring command
(R151). -/
inductive Label where
  | s0 | s1 | s2 | s3 | s4 | s5 | s6 | s7 | l0 | lz
deriving DecidableEq, Repr

/-- `PHASE`, the micro-sequencer position (10_state R25). -/
inductive Phase where
  /-- The context accepts a command. -/
  | idle
  /-- The context has faulted; absorbing (60_exceptions R203). -/
  | faulted
  /-- The next micro-step is step `lbl` of command `op`. -/
  | at (op : Op) (lbl : Label)
deriving DecidableEq, Repr

/-- The latched temporaries `t.*` of a context, 32 bits each (10_state R26); `inIdx` is `t.in` and
`outIdx` is `t.out`. -/
structure Temps where
  old : Word
  snap : Word
  mask : Word
  inIdx : Word
  outIdx : Word
  esz : Word
  data : Word
  n : Word
  l : Word
  off : Word
  i : Word
  cap : Word
  nest : Word
deriving DecidableEq, Repr

/-- One execution context `(k, l)`: its port registers, latched command, micro-sequencer position,
temporaries and fault registers (10_state R21 to R27). -/
structure Context where
  a0 : Word
  a1 : Word
  a2 : Word
  a3 : Word
  r0 : Word
  r1 : Word
  st : Word
  cmdr : Word
  phase : Phase
  tmp : Temps
  fsr : Word
  far : Word
deriving DecidableEq, Repr

/-- The state of one core: `IMASK[k]`, `RESV[k]`, `DEPTH[k]` (10_state R28, R31, R30) and its contexts,
level 0 first. -/
structure CoreState where
  imask : Word
  resv : Option Word
  depth : Nat
  ports : List Context
deriving DecidableEq, Repr

/-- `MEM` (10_state R32): the bytes that differ from what an unlisted address reads as, by rising
address. Operations and the canonical form are in Machine/Memory.lean. -/
abbrev Memory := List Host.Cell

/-- An argument register by name. -/
inductive ArgReg where
  | a0 | a1 | a2 | a3
deriving DecidableEq, Repr

/-- A register the host may read through the port (10_state R22, R23; 30_encoding R91). -/
inductive ResReg where
  | r0 | r1 | st
deriving DecidableEq, Repr

/-- An event of the step relation (60_exceptions R222); `k` is the core it concerns. -/
inductive Event where
  /-- (a) A micro-step of the running context of core `k`. -/
  | micro (k : Nat)
  /-- (b) The host issues command word `w` (30_encoding R80). -/
  | issue (k : Nat) (w : Word)
  /-- (b) The host writes an argument register (10_state R21). -/
  | setArg (k : Nat) (a : ArgReg) (v : Word)
  /-- (b) The host copies a result register into an argument register (30_encoding R91, `A0 = R0`). -/
  | copyArg (k : Nat) (a : ArgReg) (r : ResReg)
  /-- (b) The host reads a result register (10_state R22). -/
  | readPort (k : Nat) (r : ResReg)
  /-- (b) The host reads memory (20_memory R74). -/
  | hostRead (k : Nat) (addr : Word) (w : Width)
  /-- (b) The host writes memory (20_memory R74). -/
  | hostWrite (k : Nat) (addr : Word) (w : Width) (v : Word)
  /-- (c) An interrupt is delivered to core `k` (60_exceptions R207, R208). -/
  | deliver (k : Nat)
  /-- (d) The running handler of core `k` returns (60_exceptions R210). -/
  | ret (k : Nat)
  /-- (e) Core `k` loses its reservation with no access (20_memory R68). -/
  | lose (k : Nat)
deriving DecidableEq, Repr

/-- What the event history records of an access or a barrier (20_memory R59, R61). -/
inductive Access where
  /-- A `MemRead` or `LL` of width `w` at `addr` returned `v`. -/
  | read (addr : Word) (w : Width) (v : Word)
  /-- A `MemWrite` or successful `SC` stored the low bits of `v`. -/
  | write (addr : Word) (w : Width) (v : Word)
  /-- A `BARRIER`. -/
  | barrier
deriving DecidableEq, Repr

/-- One entry of the event history: the context that acted and what it did. -/
structure Recorded where
  core : Nat
  level : Nat
  acc : Access
deriving DecidableEq, Repr

/-- The state. `cfg`, `mem`, `nest` and `cores` are what the spec gives the machine (10_state R20) with
its parameters; `schedule`, `actor`, `fresh` and `history` are the model's own (logs 4 to 7). -/
structure State where
  /-- The configuration (00_scope R6). -/
  cfg : Config
  /-- `MEM`. -/
  mem : Memory
  /-- `NEST`, the interrupt nesting counter (10_state R29). -/
  nest : Word
  /-- The cores, core 0 first. -/
  cores : List CoreState
  /-- The events still to happen, next one first: the host programs and every free choice of R222. -/
  schedule : List Event
  /-- The core whose running context the present event belongs to. -/
  actor : Nat
  /-- How many free values have been handed out. -/
  fresh : Nat
  /-- Memory accesses and barriers that have happened, newest first. -/
  history : List Recorded
deriving DecidableEq, Repr

/-- Why the machine stops for good. -/
inductive Fault where
  /-- Raised by `step` when the schedule's next event is a micro-step of a core whose running context is
  FAULTED: "a FAULTED context takes no further step" (60_exceptions R203; 93 V18 `stuck`). Safe: the
  step relation has no such event. -/
  | contextFaulted (core : Nat)
deriving DecidableEq, Repr

/-- Why a step has no meaning. All but the first say that the schedule's next event is not enabled (93
V20, "the step relation has no such event"), so no behaviour of the block is lost: safe. -/
inductive Refusal where
  /-- Raised by `exec`'s arm of a command that has no meaning yet. Safe. -/
  | notModelled (mnemonic : String)
  /-- Raised by `step` in a configuration outside the constraints of 00_scope R6 (93 V25). Safe. -/
  | illegalConfig
  /-- Raised by `step` for an event of a core `k >= NCORE`. Safe. -/
  | noSuchCore
  /-- Raised by `step` for an issue, a port access or a host memory access when the running context is
  not idle (30_encoding R80, 20_memory R74, 70 R254). Safe. -/
  | portNotIdle
  /-- Raised by `step` for a micro-step of an idle context (60_exceptions R222 (a)). Safe. -/
  | nothingToStep
  /-- Raised by `step` when `CMDR` does not decode to the command that `PHASE` names; no run from reset
  reaches such a state (10_state R24, R25). Safe. -/
  | phaseMismatch
  /-- Raised by a meaning when `PHASE` of the acting context is not a step of its command; no run from
  reset reaches such a state (10_state R25). Safe. -/
  | noSuchStep
  /-- Raised by `step` for a delivery whose conditions do not hold (60_exceptions R207). Safe. -/
  | deliveryNotEnabled
  /-- Raised by `step` for a return whose conditions do not hold (60_exceptions R210). Safe. -/
  | returnNotEnabled
  /-- Raised by `step` for a monitor loss under `MONITOR_LOSS = never` (20_memory R68). Safe. -/
  | lossNotAllowed
deriving DecidableEq, Repr

/-- The temporaries at reset: unspecified (10_state R38), held at 0. DESIGN CHOICE, log 2: unsafe. -/
def Temps.reset : Temps :=
  { old := 0#32, snap := 0#32, mask := 0#32, inIdx := 0#32, outIdx := 0#32, esz := 0#32,
    data := 0#32, n := 0#32, l := 0#32, off := 0#32, i := 0#32, cap := 0#32, nest := 0#32 }

/-- A context at reset: `PHASE = IDLE`, `FSR = 0` (10_state R38); the registers the spec leaves
unspecified hold 0. DESIGN CHOICE, log 2: unsafe. -/
def Context.reset : Context :=
  { a0 := 0#32, a1 := 0#32, a2 := 0#32, a3 := 0#32, r0 := 0#32, r1 := 0#32, st := 0#32,
    cmdr := 0#32, phase := .idle, tmp := Temps.reset, fsr := 0#32, far := 0#32 }

/-- A core at reset: interrupts enabled, no reservation, depth 0, one context for each level (10_state
R38). -/
def CoreState.reset (cfg : Config) : CoreState :=
  { imask := 0#32, resv := none, depth := 0,
    ports := List.replicate (cfg.maxnest + 1) Context.reset }

/-- The machine right after reset in configuration `cfg` (10_state R38, 70 R230). -/
def State.resetWith (cfg : Config) : State :=
  { cfg := cfg, mem := [], nest := 0#32,
    cores := List.replicate cfg.ncore (CoreState.reset cfg),
    schedule := [], actor := 0, fresh := 0, history := [] }

/-- The machine right after reset (10_state R38, 70 R230). -/
def State.reset : State := State.resetWith Config.standard

end Sys2Proof.Machine
end

