-- ==== Sys2Proof/Machine/Flags.lean ====
section
/-! DEFINITION. The block has no condition codes and no flags (10_state R37). What a command reports is
its status code in `ST` (60_exceptions R200) and, for a fault, the code in `FSR` (R203). -/

namespace Sys2Proof.Machine

/-- The status codes, a closed enumeration (60_exceptions R200). No command of this hardware produces
`enomem` or `etimedout`. -/
inductive Status where
  | ok | enomem | ebusy | einval | enotsup | etimedout
deriving DecidableEq, Repr

/-- The value of a status code in `ST` (60_exceptions R200). -/
def Status.code : Status → Word
  | .ok => 0#32
  | .enomem => 12#32
  | .ebusy => 16#32
  | .einval => 22#32
  | .enotsup => 95#32
  | .etimedout => 110#32

/-- The two faults of a memory access (60_exceptions R203). -/
inductive AccessFault where
  | align | bus
deriving DecidableEq, Repr

/-- The code of a fault in `FSR` (60_exceptions R203); 0 in `FSR` means no fault (10_state R27). -/
def AccessFault.code : AccessFault → Word
  | .align => 1#32
  | .bus => 2#32

/-- A truth value in a result register: 1 or 0 (10_state R22). -/
def boolWord (b : Bool) : Word := if b then 1#32 else 0#32

end Sys2Proof.Machine
end

