-- ==== Sys2Proof/Machine/Memory.lean ====
section
/-! DEFINITION. The memory: single bytes, the canonical form, and little-endian values of 1, 2 and 4 bytes
(20_memory R50). Which addresses exist is checked in Machine/Ops.lean before any of this is reached. -/

namespace Sys2Proof.Machine

/-- What an address with no entry reads as. The spec leaves `MEM` unspecified after reset (10_state R32,
R38). DESIGN CHOICE, log 3: unsafe for a statement about `State.reset`'s memory. -/
def Memory.unlisted : Byte := 0#8

/-- The canonical form: addresses strictly rising, no entry equal to what an unlisted address reads as. -/
def Memory.wf : Memory → Bool
  | [] => true
  | [c] => decide (c.2 ≠ Memory.unlisted)
  | c :: d :: m => decide (c.2 ≠ Memory.unlisted) && decide (c.1 < d.1) && Memory.wf (d :: m)

/-- The byte at address `a`. -/
def Memory.get : Memory → Nat → Byte
  | [], _ => Memory.unlisted
  | c :: m, a => if c.1 = a then c.2 else Memory.get m a

/-- Store one byte, keeping the canonical form. -/
def Memory.set : Memory → Nat → Byte → Memory
  | [], a, v => if v = Memory.unlisted then [] else [(a, v)]
  | c :: m, a, v =>
    if a < c.1 then (if v = Memory.unlisted then c :: m else (a, v) :: c :: m)
    else if a = c.1 then (if v = Memory.unlisted then m else (a, v) :: m)
    else c :: Memory.set m a v

/-- The little-endian value of a cell of the given width at `a`, zero-extended to 32 bits (20_memory
R50). -/
def Memory.read (m : Memory) (a : Nat) : Width → Word
  | .byte => (m.get a).setWidth 32
  | .half => (m.get (a + 1) ++ m.get a).setWidth 32
  | .word => m.get (a + 3) ++ m.get (a + 2) ++ m.get (a + 1) ++ m.get a

/-- Store the low bits of `v` in a cell of the given width at `a`, little-endian (20_memory R50). -/
def Memory.write (m : Memory) (a : Nat) (w : Width) (v : Word) : Memory :=
  match w with
  | .byte => m.set a (v.extractLsb' 0 8)
  | .half => (m.set a (v.extractLsb' 0 8)).set (a + 1) (v.extractLsb' 8 8)
  | .word =>
    (((m.set a (v.extractLsb' 0 8)).set (a + 1) (v.extractLsb' 8 8)).set (a + 2)
      (v.extractLsb' 16 8)).set (a + 3) (v.extractLsb' 24 8)

/-- The low `8n` bits of a value, zero-extended: what a cell of `n` bytes keeps of it (00_scope R9
`MemWrite`). -/
def keepLow (w : Width) (v : Word) : Word :=
  match w with
  | .byte => (v.setWidth 8).setWidth 32
  | .half => (v.setWidth 16).setWidth 32
  | .word => v

end Sys2Proof.Machine
end

