-- ==== Sys2Proof/Machine/Ops.lean ====
section
/-! DEFINITION. The operations every command is made of: access to the registers, the memory primitives of
00_scope R9, raising a fault, the IRQ-lock steps, and the frame of one micro-step (00_scope R10).

A primitive that may fault takes what follows it as an argument: when the access faults, nothing after it
happens (60_exceptions R203). -/

namespace Sys2Proof.Machine

/-! ### Registers -/

/-- What stands for a core the machine does not have. -/
def CoreState.absent : CoreState := { imask := 0#32, resv := none, depth := 0, ports := [] }

/-- Core `k`. -/
def State.coreAt (s : State) (k : Nat) : CoreState := s.cores.getD k CoreState.absent

/-- The context of level `l` of a core. -/
def CoreState.port (c : CoreState) (l : Nat) : Context := c.ports.getD l Context.reset

/-- The running context of a core, the one at its current depth (10_state R30). -/
def CoreState.running (c : CoreState) : Context := c.port c.depth

/-- Context `(k, l)`. -/
def State.port (s : State) (k l : Nat) : Context := (s.coreAt k).port l

/-- `IMASK[k]` as it reads: bits 31:1 read as zero (10_state R28). -/
def State.imask (s : State) (k : Nat) : Word := (s.coreAt k).imask &&& 1#32

/-- `RESV[k]` (10_state R31). -/
def State.resv (s : State) (k : Nat) : Option Word := (s.coreAt k).resv

/-- `DEPTH[k]` (10_state R30). -/
def State.depth (s : State) (k : Nat) : Nat := (s.coreAt k).depth

/-- The running context of core `k`. -/
def State.running (s : State) (k : Nat) : Context := (s.coreAt k).running

/-- The executing context `c = (k, l)` of 00_scope R9: the running context of the acting core. -/
def State.me (s : State) : Context := s.running s.actor

/-- Change one core. -/
def State.updCore (s : State) (k : Nat) (f : CoreState → CoreState) : State :=
  { s with cores := s.cores.modify k f }

/-- Change the running context of a core. -/
def CoreState.updRunning (c : CoreState) (f : Context → Context) : CoreState :=
  { c with ports := c.ports.modify c.depth f }

/-- Change the executing context. -/
def State.updMe (s : State) (f : Context → Context) : State :=
  s.updCore s.actor (fun c => c.updRunning f)

/-- Change the temporaries of the executing context (10_state R26). -/
def State.updTmp (s : State) (f : Temps → Temps) : State :=
  s.updMe (fun c => { c with tmp := f c.tmp })

/-- `t.old <- v`. -/
def State.latchOld (s : State) (v : Word) : State := s.updTmp (fun t => { t with old := v })

/-- `R0 <- v`. -/
def State.setR0 (s : State) (v : Word) : State := s.updMe (fun c => { c with r0 := v })

/-- `ST <- code` (60_exceptions R200). -/
def State.setSt (s : State) (st : Status) : State := s.updMe (fun c => { c with st := st.code })

/-! ### The micro-sequencer -/

/-- The same command at another step; the other positions have no steps. -/
def Phase.goto (p : Phase) (l : Label) : Phase :=
  match p with
  | .at op _ => .at op l
  | .idle => .idle
  | .faulted => .faulted

/-- `goto Sx`, also the passage to the next label (00_scope R9, R10). -/
def State.goto (s : State) (l : Label) : State :=
  s.updMe (fun c => { c with phase := c.phase.goto l })

/-- Temporaries whose values are unspecified: free values (log 6). -/
def Temps.free (n : Nat) : Temps :=
  { old := Config.freeWord n, snap := Config.freeWord (n + 1), mask := Config.freeWord (n + 2),
    inIdx := Config.freeWord (n + 3), outIdx := Config.freeWord (n + 4),
    esz := Config.freeWord (n + 5), data := Config.freeWord (n + 6), n := Config.freeWord (n + 7),
    l := Config.freeWord (n + 8), off := Config.freeWord (n + 9), i := Config.freeWord (n + 10),
    cap := Config.freeWord (n + 11), nest := Config.freeWord (n + 12) }

/-- The registers of a context created by interrupt entry: `PHASE = IDLE`, `FSR = 0`, "all its other
registers unspecified" (60_exceptions R208): free values (log 6). -/
def Context.free (n : Nat) : Context :=
  { a0 := Config.freeWord n, a1 := Config.freeWord (n + 1), a2 := Config.freeWord (n + 2),
    a3 := Config.freeWord (n + 3), r0 := Config.freeWord (n + 4), r1 := Config.freeWord (n + 5),
    st := Config.freeWord (n + 6), cmdr := Config.freeWord (n + 7), phase := .idle,
    tmp := Temps.free (n + 9), fsr := 0#32, far := Config.freeWord (n + 8) }

/-- `done`: `PHASE <- IDLE` (10_state R25); the temporaries are unspecified from here on (R26). -/
def State.done (s : State) : State :=
  { s.updMe (fun c => { c with phase := .idle, tmp := Temps.free s.fresh }) with
    fresh := s.fresh + 13 }

/-- `ST <- code; done`. -/
def State.finish (s : State) (st : Status) : State := (s.setSt st).done

/-- Taking a fault: `raise F(addr)` (60_exceptions R203). `FSR`, `FAR` and `PHASE` of the executing
context change and nothing else. There is no return from it: FAULTED is absorbing (10_state R25). -/
def State.raise (s : State) (f : AccessFault) (addr : Word) : State :=
  s.updMe (fun c => { c with fsr := f.code, far := addr, phase := .faulted })

/-- The frame of one micro-step (00_scope R10): the body gives the state after the step named by `PHASE`,
or nothing where that is no step of the command. -/
def microStep (op : Op) (body : State → Label → Option State) (s : State) :
    Host.Outcome State Fault Refusal :=
  match s.me.phase with
  | .at o l =>
    if o = op then
      match body s l with
      | some t => .next t
      | none => .refused .noSuchStep
    else .refused .noSuchStep
  | .idle => .refused .noSuchStep
  | .faulted => .refused .noSuchStep

/-! ### Memory access -/

/-- The event history takes one more entry (20_memory R61); nothing reads it. -/
def State.record (s : State) (a : Access) : State :=
  { s with history := { core := s.actor, level := s.depth s.actor, acc := a } :: s.history }

/-- `granule(a) = a & 0xFFFFFFFC` (20_memory R63). -/
def granule (a : Word) : Word := a &&& 0xFFFFFFFC#32

/-- Natural alignment (20_memory R52). -/
def aligned (a : Word) (w : Width) : Bool := decide (a.toNat % w.bytes = 0)

/-- In range, computed without wrap-around (20_memory R56). -/
def inRange (cfg : Config) (a : Word) (w : Width) : Bool :=
  decide (cfg.memBase ≤ a.toNat) && decide (a.toNat + w.bytes ≤ cfg.memBase + cfg.memSize)

/-- The fault an access meets, if any; alignment is checked before the range (20_memory R53, R56;
60_exceptions R205). -/
def accessFault (cfg : Config) (a : Word) (w : Width) : Option AccessFault :=
  if aligned a w then (if inRange cfg a w then none else some .bus) else some .align

/-- A write that has passed its checks: the bytes are stored and every reservation on the granule is
broken, the writer's own included (20_memory R50, R66). -/
def State.writeMem (s : State) (a : Word) (w : Width) (v : Word) : State :=
  { s with
    mem := s.mem.write a.toNat w v
    cores := s.cores.map (fun c => if c.resv = some (granule a) then { c with resv := none } else c) }

/-- `MemRead(addr, n)` (00_scope R9, 20_memory R50, R53, R56). -/
def State.load (s : State) (a : Word) (w : Width) (k : Word → State → State) : State :=
  match accessFault s.cfg a w with
  | some f => s.raise f a
  | none => k (s.mem.read a.toNat w) (s.record (.read a w (s.mem.read a.toNat w)))

/-- `MemWrite(addr, n, v)` (00_scope R9, 20_memory R50, R53, R56, R66). -/
def State.store (s : State) (a : Word) (w : Width) (v : Word) (k : State → State) : State :=
  match accessFault s.cfg a w with
  | some f => s.raise f a
  | none => k ((s.writeMem a w v).record (.write a w v))

/-- `RESV[k] <- r` of the acting core. -/
def State.setResv (s : State) (r : Option Word) : State :=
  s.updCore s.actor (fun c => { c with resv := r })

/-- `CLRRESV` (20_memory R67). -/
def State.clrResv (s : State) : State := s.setResv none

/-- `LL(addr, n)` (20_memory R64). -/
def State.ll (s : State) (a : Word) (w : Width) (k : Word → State → State) : State :=
  s.load a w (fun v t => k v (t.setResv (some (granule a))))

/-- `SC(addr, n, v)` (20_memory R65): the continuation is told whether the store happened. -/
def State.sc (s : State) (a : Word) (w : Width) (v : Word) (k : Bool → State → State) : State :=
  match accessFault s.cfg a w with
  | some f => s.raise f a
  | none =>
    if s.resv s.actor = some (granule a) then k true ((s.writeMem a w v).record (.write a w v))
    else k false s.clrResv

/-- `BARRIER` (20_memory R61): an ordering point; it changes no value and is recorded. -/
def State.barrier (s : State) : State := s.record .barrier

/-! ### The IRQ-lock steps -/

/-- Write `IMASK[k]` of the acting core: bits 31:1 ignore writes (10_state R28). -/
def State.setImask (s : State) (v : Word) : State :=
  s.updCore s.actor (fun c => { c with imask := v &&& 1#32 })

/-- The acquire step `t.snap <- IMASK[k]; IMASK[k] <- 1` (43_irq_lock R171). -/
def State.acquire (s : State) : State :=
  (s.updTmp (fun t => { t with snap := s.imask s.actor })).setImask 1#32

/-- The release step `IMASK[k] <- s[0]` (43_irq_lock R172). -/
def State.release (s : State) (snapshot : Word) : State := s.setImask snapshot

end Sys2Proof.Machine
end

