-- ==== Sys2Proof/Machine/Operands.lean ====
section
/-! DEFINITION. Operands: where each comes from (30_encoding R84, R86) and what the rules compute from them
(40_atomic_core R102 to R111, 41_bitfield_ops R120, 42_ring_buffer R141 to R145). -/

namespace Sys2Proof.Machine

/-- An argument register (10_state R21). -/
def Context.arg (c : Context) : ArgReg → Word
  | .a0 => c.a0 | .a1 => c.a1 | .a2 => c.a2 | .a3 => c.a3

/-- Write an argument register (10_state R21). -/
def Context.setArg (c : Context) (a : ArgReg) (v : Word) : Context :=
  match a with
  | .a0 => { c with a0 := v }
  | .a1 => { c with a1 := v }
  | .a2 => { c with a2 := v }
  | .a3 => { c with a3 := v }

/-- A register the host reads (10_state R22, R23). -/
def Context.result (c : Context) : ResReg → Word
  | .r0 => c.r0 | .r1 => c.r1 | .st => c.st

/-! ### The Bit-Field operands -/

/-- The mask `m = 1 << BIT` (30_encoding R84, 41_bitfield_ops R120). -/
def bitMask (b : BitVec 5) : Word := 1#32 <<< b.toNat

/-- The value of the bit, `(old >> b) & 1`, zero-extended (41_bitfield_ops R120). -/
def bitValue (old : Word) (b : BitVec 5) : Word := (old >>> b.toNat) &&& 1#32

/-! ### The ring quantities (42_ring_buffer R141), all modulo `2^32` -/

/-- The unsigned minimum (00_scope R8). -/
def minWord (a b : Word) : Word := if a ≤ b then a else b

/-- `cap = t.mask + 1`. -/
def Temps.capacity (t : Temps) : Word := t.mask + 1#32
/-- `used = t.in - t.out`. -/
def Temps.used (t : Temps) : Word := t.inIdx - t.outIdx
/-- `unused = cap - used`. -/
def Temps.unused (t : Temps) : Word := t.capacity - t.used
/-- `off_p = t.in & t.mask`. -/
def Temps.offP (t : Temps) : Word := t.inIdx &&& t.mask
/-- `off_c = t.out & t.mask`. -/
def Temps.offC (t : Temps) : Word := t.outIdx &&& t.mask

/-- `B = t.n * t.esz`, the bytes of the transfer (R145). -/
def Temps.copyBytes (t : Temps) : Word := t.n * t.esz

/-- The ring address `ra(i)` of byte `i = t.i` (R145). -/
def Temps.ringAddr (t : Temps) : Word :=
  if t.i < t.l * t.esz then t.data + t.off * t.esz + t.i else t.data + (t.i - t.l * t.esz)

/-- The transfer a producer latches at `S4` (R146). -/
def Temps.planProduce (t : Temps) (count : Word) : Temps :=
  { t with n := minWord count t.unused, off := t.offP, i := 0#32,
           l := minWord (minWord count t.unused) (t.capacity - t.offP) }

/-- The transfer a consumer latches at `S4` (R147). -/
def Temps.planConsume (t : Temps) (count : Word) : Temps :=
  { t with n := minWord count t.used, off := t.offC, i := 0#32,
           l := minWord (minWord count t.used) (t.capacity - t.offC) }

/-- `a div b`, the floor of the unsigned quotient; every use has `b` not 0 (00_scope R8, R142). -/
def divWord (a b : Word) : Word := BitVec.ofNat 32 (a.toNat / b.toNat)

/-- `floor_pow2(q)`, the largest power of two not above `q`; every use has `q >= 1` (00_scope R8). -/
def floorPow2 (q : Word) : Word := BitVec.ofNat 32 (2 ^ Nat.log2 q.toNat)

end Sys2Proof.Machine
end

