-- ==== Sys2Proof/Machine/Atomic.lean ====
section
/-! DEFINITION. The Atomic Core commands (40_atomic_core R100 to R114) and the retry pattern the Bit-Field
commands share (41_bitfield_ops R121). -/

namespace Sys2Proof.Machine

/-- The steps of a read-modify-write of the cell of width `w` at `A0`: `f` computes the new value from the
context (its latched `t.old`, its argument registers), `res` writes the results. Under `LLSC` the retry
pattern of 40_atomic_core R101 and 41_bitfield_ops R121; under `IRQMASK` the steps of R113. -/
def rmwSteps (w : Width) (f : Context → Word) (res : Context → Context) (s : State) (l : Label) :
    Option State :=
  match s.cfg.backend, l with
  | .llsc, .s0 => some (s.ll s.me.a0 w fun v t => (t.latchOld v).goto .s1)
  | .llsc, .s1 =>
    some (s.sc s.me.a0 w (f s.me) fun ok t =>
      if ok then (t.updMe res).finish .ok else t.goto .s0)
  | .irqmask, .s0 => some (s.acquire.goto .s1)
  | .irqmask, .s1 => some (s.load s.me.a0 w fun v t => (t.latchOld v).goto .s2)
  | .irqmask, .s2 => some (s.store s.me.a0 w (f s.me) fun t => t.goto .s3)
  | .irqmask, .s3 => some (((s.release s.me.tmp.snap).updMe res).finish .ok)
  | _, _ => none

/-- `R0 <- t.old`. -/
def resultOld (c : Context) : Context := { c with r0 := c.tmp.old }

/-- No result register is written. -/
def resultNone (c : Context) : Context := c

/-- `ALOAD` (R102): writes back the value it read. -/
def execAload (s : State) : Host.Outcome State Fault Refusal :=
  microStep .aload (rmwSteps .word (fun c => c.tmp.old) resultOld) s

/-- `ASTORE` (R103). -/
def execAstore (s : State) : Host.Outcome State Fault Refusal :=
  microStep .astore (rmwSteps .word (fun c => c.a1) resultNone) s

/-- `AADD` (R104). -/
def execAadd (s : State) : Host.Outcome State Fault Refusal :=
  microStep .aadd (rmwSteps .word (fun c => c.tmp.old + c.a1) resultOld) s

/-- `ASUB` (R105). -/
def execAsub (s : State) : Host.Outcome State Fault Refusal :=
  microStep .asub (rmwSteps .word (fun c => c.tmp.old - c.a1) resultOld) s

/-- `AAND` (R106). -/
def execAand (s : State) : Host.Outcome State Fault Refusal :=
  microStep .aand (rmwSteps .word (fun c => c.tmp.old &&& c.a1) resultOld) s

/-- `AOR` (R107). -/
def execAor (s : State) : Host.Outcome State Fault Refusal :=
  microStep .aor (rmwSteps .word (fun c => c.tmp.old ||| c.a1) resultOld) s

/-- `AXOR` (R108). -/
def execAxor (s : State) : Host.Outcome State Fault Refusal :=
  microStep .axor (rmwSteps .word (fun c => c.tmp.old ^^^ c.a1) resultOld) s

/-- `AXCHG` (R109). -/
def execAxchg (s : State) : Host.Outcome State Fault Refusal :=
  microStep .axchg (rmwSteps .word (fun c => c.a1) resultOld) s

/-- `AFCLR` (R110). -/
def execAfclr (s : State) : Host.Outcome State Fault Refusal :=
  microStep .afclr (rmwSteps .word (fun _ => 0#32) resultNone) s

/-- `AFTAS` (R111). -/
def execAftas (s : State) : Host.Outcome State Fault Refusal :=
  microStep .aftas (rmwSteps .word (fun c => c.tmp.old ||| 1#32) resultOld) s

/-- The steps of `ACAS` (R112), and under `IRQMASK` those of R113, where the outcome of the comparison at
`S2` is kept in `t.n` until `S3` writes it to `R0` (DESIGN CHOICE, log 9: safe). -/
def acasSteps (s : State) (l : Label) : Option State :=
  match s.cfg.backend, l with
  | .llsc, .s0 => some (s.ll s.me.a0 .word fun v t => (t.latchOld v).goto .s1)
  | .llsc, .s1 =>
    some (if s.me.tmp.old ≠ s.me.a1 then
        (s.clrResv.updMe (fun c => { c with a1 := c.tmp.old, r0 := 0#32 })).finish .ok
      else s.sc s.me.a0 .word s.me.a2 fun ok t =>
        if ok then (t.setR0 1#32).finish .ok else t.goto .s0)
  | .irqmask, .s0 => some (s.acquire.goto .s1)
  | .irqmask, .s1 => some (s.load s.me.a0 .word fun v t => (t.latchOld v).goto .s2)
  | .irqmask, .s2 =>
    some (if s.me.tmp.old = s.me.a1 then
        s.store s.me.a0 .word s.me.a2 fun t =>
          (t.updTmp (fun u => { u with n := 1#32 })).goto .s3
      else
        (s.updMe (fun c => { c with a1 := c.tmp.old, tmp := { c.tmp with n := 0#32 } })).goto .s3)
  | .irqmask, .s3 => some (((s.release s.me.tmp.snap).setR0 s.me.tmp.n).finish .ok)
  | _, _ => none

/-- `ACAS` (R112). -/
def execAcas (s : State) : Host.Outcome State Fault Refusal := microStep .acas acasSteps s

end Sys2Proof.Machine
end

