-- ==== Sys2Proof/Machine/Bitfield.lean ====
section
/-! DEFINITION. The Bit-Field commands (41_bitfield_ops R120 to R130): seven operations at three cell
widths. The mutating ones are read-modify-writes at the cell width (R121; under `IRQMASK` R130). -/

namespace Sys2Proof.Machine

/-- `R0 <- (t.old >> b) & 1`, "the bit's prior value" (R120). -/
def resultBit (b : BitVec 5) (c : Context) : Context := { c with r0 := bitValue c.tmp.old b }

/-- `g(old) = old | m` (R122, R126). -/
def setBit (b : BitVec 5) (c : Context) : Word := c.tmp.old ||| bitMask b

/-- `g(old) = old & ~m` (R123, R127); the cell keeps the low bits (20_memory R50). -/
def clearBit (b : BitVec 5) (c : Context) : Word := c.tmp.old &&& ~~~bitMask b

/-- `g(old) = old ^ m` (R124, R128). -/
def changeBit (b : BitVec 5) (c : Context) : Word := c.tmp.old ^^^ bitMask b

/-- The one step of `BTST` (R125): `LL`, `CLRRESV`, result; under `IRQMASK` a plain read (R113). -/
def bitTestSteps (w : Width) (b : BitVec 5) (s : State) (l : Label) : Option State :=
  match s.cfg.backend, l with
  | .llsc, .s0 =>
    some (s.ll s.me.a0 w fun v t => (((t.latchOld v).clrResv).updMe (resultBit b)).finish .ok)
  | .irqmask, .s0 =>
    some (s.load s.me.a0 w fun v t => ((t.latchOld v).updMe (resultBit b)).finish .ok)
  | _, _ => none

/-- `BSET.B` (R122). -/
def execBsetB (bit : BitVec 5) (s : State) : Host.Outcome State Fault Refusal :=
  microStep (.bit .set .byte) (rmwSteps .byte (setBit bit) resultNone) s

/-- `BSET.H` (R122). -/
def execBsetH (bit : BitVec 5) (s : State) : Host.Outcome State Fault Refusal :=
  microStep (.bit .set .half) (rmwSteps .half (setBit bit) resultNone) s

/-- `BSET.W` (R122). -/
def execBsetW (bit : BitVec 5) (s : State) : Host.Outcome State Fault Refusal :=
  microStep (.bit .set .word) (rmwSteps .word (setBit bit) resultNone) s

/-- `BCLR.B` (R123). -/
def execBclrB (bit : BitVec 5) (s : State) : Host.Outcome State Fault Refusal :=
  microStep (.bit .clear .byte) (rmwSteps .byte (clearBit bit) resultNone) s

/-- `BCLR.H` (R123). -/
def execBclrH (bit : BitVec 5) (s : State) : Host.Outcome State Fault Refusal :=
  microStep (.bit .clear .half) (rmwSteps .half (clearBit bit) resultNone) s

/-- `BCLR.W` (R123). -/
def execBclrW (bit : BitVec 5) (s : State) : Host.Outcome State Fault Refusal :=
  microStep (.bit .clear .word) (rmwSteps .word (clearBit bit) resultNone) s

/-- `BCHG.B` (R124). -/
def execBchgB (bit : BitVec 5) (s : State) : Host.Outcome State Fault Refusal :=
  microStep (.bit .change .byte) (rmwSteps .byte (changeBit bit) resultNone) s

/-- `BCHG.H` (R124). -/
def execBchgH (bit : BitVec 5) (s : State) : Host.Outcome State Fault Refusal :=
  microStep (.bit .change .half) (rmwSteps .half (changeBit bit) resultNone) s

/-- `BCHG.W` (R124). -/
def execBchgW (bit : BitVec 5) (s : State) : Host.Outcome State Fault Refusal :=
  microStep (.bit .change .word) (rmwSteps .word (changeBit bit) resultNone) s

/-- `BTST.B` (R125). -/
def execBtstB (bit : BitVec 5) (s : State) : Host.Outcome State Fault Refusal :=
  microStep (.bit .test .byte) (bitTestSteps .byte bit) s

/-- `BTST.H` (R125). -/
def execBtstH (bit : BitVec 5) (s : State) : Host.Outcome State Fault Refusal :=
  microStep (.bit .test .half) (bitTestSteps .half bit) s

/-- `BTST.W` (R125). -/
def execBtstW (bit : BitVec 5) (s : State) : Host.Outcome State Fault Refusal :=
  microStep (.bit .test .word) (bitTestSteps .word bit) s

/-- `BTAS.B` (R126). -/
def execBtasB (bit : BitVec 5) (s : State) : Host.Outcome State Fault Refusal :=
  microStep (.bit .testSet .byte) (rmwSteps .byte (setBit bit) (resultBit bit)) s

/-- `BTAS.H` (R126). -/
def execBtasH (bit : BitVec 5) (s : State) : Host.Outcome State Fault Refusal :=
  microStep (.bit .testSet .half) (rmwSteps .half (setBit bit) (resultBit bit)) s

/-- `BTAS.W` (R126). -/
def execBtasW (bit : BitVec 5) (s : State) : Host.Outcome State Fault Refusal :=
  microStep (.bit .testSet .word) (rmwSteps .word (setBit bit) (resultBit bit)) s

/-- `BTAC.B` (R127). -/
def execBtacB (bit : BitVec 5) (s : State) : Host.Outcome State Fault Refusal :=
  microStep (.bit .testClear .byte) (rmwSteps .byte (clearBit bit) (resultBit bit)) s

/-- `BTAC.H` (R127). -/
def execBtacH (bit : BitVec 5) (s : State) : Host.Outcome State Fault Refusal :=
  microStep (.bit .testClear .half) (rmwSteps .half (clearBit bit) (resultBit bit)) s

/-- `BTAC.W` (R127). -/
def execBtacW (bit : BitVec 5) (s : State) : Host.Outcome State Fault Refusal :=
  microStep (.bit .testClear .word) (rmwSteps .word (clearBit bit) (resultBit bit)) s

/-- `BTCH.B` (R128). -/
def execBtchB (bit : BitVec 5) (s : State) : Host.Outcome State Fault Refusal :=
  microStep (.bit .testChange .byte) (rmwSteps .byte (changeBit bit) (resultBit bit)) s

/-- `BTCH.H` (R128). -/
def execBtchH (bit : BitVec 5) (s : State) : Host.Outcome State Fault Refusal :=
  microStep (.bit .testChange .half) (rmwSteps .half (changeBit bit) (resultBit bit)) s

/-- `BTCH.W` (R128). -/
def execBtchW (bit : BitVec 5) (s : State) : Host.Outcome State Fault Refusal :=
  microStep (.bit .testChange .word) (rmwSteps .word (changeBit bit) (resultBit bit)) s

end Sys2Proof.Machine
end

