-- ==== Sys2Proof/Machine/IrqLock.lean ====
section
/-! DEFINITION. IRQ lock, critical section and interrupt nesting counter (43_irq_lock R170 to R180). None of
them accesses memory. -/

namespace Sys2Proof.Machine

/-- The one step of an acquire command: `R0 <- IMASK[k]; IMASK[k] <- 1; ST <- OK; done` (R171, R173). -/
def lockSteps (s : State) (l : Label) : Option State :=
  match l with
  | .s0 => some (((s.setR0 (s.imask s.actor)).setImask 1#32).finish .ok)
  | _ => none

/-- The one step of a release command: `IMASK[k] <- A0[0]; ST <- OK; done` (R172, R174). -/
def unlockSteps (s : State) (l : Label) : Option State :=
  match l with
  | .s0 => some ((s.release s.me.a0).finish .ok)
  | _ => none

/-- The steps of `INTENTER` and `INTLEAVE`: `f` is what happens to the counter (R177, R178). -/
def nestSteps (f : Word → Word) (s : State) (l : Label) : Option State :=
  match l with
  | .s0 => some (s.acquire.goto .s1)
  | .s1 => some ((s.updTmp (fun t => { t with nest := s.nest })).goto .s2)
  | .s2 => some ({ s with nest := f s.me.tmp.nest }.goto .s3)
  | .s3 => some ((s.release s.me.tmp.snap).finish .ok)
  | _ => none

/-- The one step of `ININT` (R179). -/
def inIntSteps (s : State) (l : Label) : Option State :=
  match l with
  | .s0 => some ((s.setR0 (boolWord (decide (s.nest ≠ 0#32)))).finish .ok)
  | _ => none

/-- `IRQLOCK` (R173). -/
def execIrqlock (s : State) : Host.Outcome State Fault Refusal := microStep .irqlock lockSteps s

/-- `IRQUNLOCK` (R174). -/
def execIrqunlock (s : State) : Host.Outcome State Fault Refusal :=
  microStep .irqunlock unlockSteps s

/-- `CSENTER` (R175): "exactly those of `IRQLOCK`". -/
def execCsenter (s : State) : Host.Outcome State Fault Refusal := microStep .csenter lockSteps s

/-- `CSEXIT` (R176): "exactly those of `IRQUNLOCK`". -/
def execCsexit (s : State) : Host.Outcome State Fault Refusal := microStep .csexit unlockSteps s

/-- `INTENTER` (R177). -/
def execIntenter (s : State) : Host.Outcome State Fault Refusal :=
  microStep .intenter (nestSteps (fun n => n + 1#32)) s

/-- `INTLEAVE` (R178). -/
def execIntleave (s : State) : Host.Outcome State Fault Refusal :=
  microStep .intleave (nestSteps (fun n => n - 1#32)) s

/-- `ININT` (R179). -/
def execInint (s : State) : Host.Outcome State Fault Refusal := microStep .inint inIntSteps s

end Sys2Proof.Machine
end

