-- ==== Sys2Proof/Machine/Ring.lean ====
section
/-! DEFINITION. The Ring Buffer commands (42_ring_buffer R140 to R160). The descriptor is the five words at
`A0` (10_state R33). `fin` is what a command executes in place of its final `done`: `done` itself, or
`goto LZ` in a locked command (R151). -/

namespace Sys2Proof.Machine

/-- The address of a word of the descriptor at `A0` (10_state R33): a sum modulo `2^32` (20_memory R56). -/
def Context.descWord (c : Context) (offset : Word) : Word := c.a0 + offset

/-- `RINIT` (R142). -/
def rinitSteps (s : State) (l : Label) : Option State :=
  match l with
  | .s0 =>
    some (if s.me.a0 = 0#32 ∨ s.me.a1 = 0#32 ∨ s.me.a3 = 0#32 then s.finish .einval
      else if divWord s.me.a2 s.me.a3 < 2#32 then s.finish .einval
      else
        (s.updTmp (fun t => { t with cap := floorPow2 (divWord s.me.a2 s.me.a3) })).goto .s1)
  | .s1 => some (s.store (s.me.descWord 0#32) .word 0#32 fun t => t.goto .s2)
  | .s2 => some (s.store (s.me.descWord 4#32) .word 0#32 fun t => t.goto .s3)
  | .s3 => some (s.store (s.me.descWord 8#32) .word (s.me.tmp.cap - 1#32) fun t => t.goto .s4)
  | .s4 => some (s.store (s.me.descWord 12#32) .word s.me.a3 fun t => t.goto .s5)
  | .s5 => some (s.store (s.me.descWord 16#32) .word s.me.a1 fun t => t.finish .ok)
  | _ => none

/-- `LOADDESC` (R144) at `S0` to `S4`; `plan` is what the command computes after the last read. -/
def loadDescSteps (plan : Temps → Temps) (s : State) (l : Label) : Option State :=
  match l with
  | .s0 => some (s.load (s.me.descWord 8#32) .word fun v t =>
      (t.updTmp (fun u => { u with mask := v })).goto .s1)
  | .s1 => some (s.load (s.me.descWord 0#32) .word fun v t =>
      (t.updTmp (fun u => { u with inIdx := v })).goto .s2)
  | .s2 => some (s.load (s.me.descWord 4#32) .word fun v t =>
      (t.updTmp (fun u => { u with outIdx := v })).goto .s3)
  | .s3 => some (s.load (s.me.descWord 12#32) .word fun v t =>
      (t.updTmp (fun u => { u with esz := v })).goto .s4)
  | .s4 => some (s.load (s.me.descWord 16#32) .word fun v t =>
      (t.updTmp (fun u => plan { u with data := v })).goto .s5)
  | _ => none

/-- One byte of a payload copy (R145) and `t.i <- t.i + 1`: the read and the write are one step. -/
def State.copyByte (s : State) (src dst : Word) : State :=
  s.load src .byte fun v t => t.store dst .byte v fun u =>
    (u.updTmp (fun x => { x with i := x.i + 1#32 })).goto .s5

/-- `COPYIN byte t.i`: caller's buffer to ring (R145). -/
def State.copyIn (s : State) : State := s.copyByte (s.me.a1 + s.me.tmp.i) s.me.tmp.ringAddr

/-- `COPYOUT byte t.i`: ring to caller's buffer (R145). -/
def State.copyOut (s : State) : State := s.copyByte s.me.tmp.ringAddr (s.me.a1 + s.me.tmp.i)

/-- `R0 <- v; ST <- OK`, then the end of the command. -/
def State.report (s : State) (v : Word) (fin : State → State) : State := fin ((s.setR0 v).setSt .ok)

/-- The steps of `RPROD` (R146). -/
def produceSteps (fin : State → State) (s : State) (l : Label) : Option State :=
  match l with
  | .s5 => some (if s.me.tmp.i < s.me.tmp.copyBytes then s.copyIn else s.goto .s6)
  | .s6 => some (s.barrier.goto .s7)
  | .s7 => some (s.store (s.me.descWord 0#32) .word (s.me.tmp.inIdx + s.me.tmp.n) fun t =>
      t.report s.me.tmp.n fin)
  | _ => loadDescSteps (fun t => t.planProduce s.me.a2) s l

/-- The steps of `RCONS` (R147). -/
def consumeSteps (fin : State → State) (s : State) (l : Label) : Option State :=
  match l with
  | .s5 => some (if s.me.tmp.i < s.me.tmp.copyBytes then s.copyOut else s.goto .s6)
  | .s6 => some (s.barrier.goto .s7)
  | .s7 => some (s.store (s.me.descWord 4#32) .word (s.me.tmp.outIdx + s.me.tmp.n) fun t =>
      t.report s.me.tmp.n fin)
  | _ => loadDescSteps (fun t => t.planConsume s.me.a2) s l

/-- The steps of `RPEEK` (R148). -/
def peekSteps (s : State) (l : Label) : Option State :=
  match l with
  | .s5 => some (if s.me.tmp.i < s.me.tmp.copyBytes then s.copyOut
      else s.report s.me.tmp.n State.done)
  | _ => loadDescSteps (fun t => t.planConsume s.me.a2) s l

/-- `t.off <- off_c; R0 <- min(A1, used, cap - t.off); R1 <- t.off; ST <- OK` (R149). -/
def Context.linearExtent (c : Context) : Context :=
  { c with
    tmp := { c.tmp with off := c.tmp.offC }
    r0 := minWord (minWord c.a1 c.tmp.used) (c.tmp.capacity - c.tmp.offC)
    r1 := c.tmp.offC
    st := Status.ok.code }

/-- The steps of `RLIN` (R149). -/
def linearSteps (fin : State → State) (s : State) (l : Label) : Option State :=
  match l with
  | .s0 => some (s.load (s.me.descWord 8#32) .word fun v t =>
      (t.updTmp (fun u => { u with mask := v })).goto .s1)
  | .s1 => some (s.load (s.me.descWord 0#32) .word fun v t =>
      (t.updTmp (fun u => { u with inIdx := v })).goto .s2)
  | .s2 => some (s.load (s.me.descWord 4#32) .word fun v t =>
      fin ((t.updTmp (fun u => { u with outIdx := v })).updMe Context.linearExtent))
  | _ => none

/-- The steps of `RSKIP` (R150). -/
def skipSteps (s : State) (l : Label) : Option State :=
  match l with
  | .s0 => some (s.load (s.me.descWord 4#32) .word fun v t =>
      (t.updTmp (fun u => { u with outIdx := v })).goto .s1)
  | .s1 => some (s.barrier.goto .s2)
  | .s2 => some (s.store (s.me.descWord 4#32) .word (s.me.tmp.outIdx + s.me.a1) fun t =>
      t.finish .ok)
  | _ => none

/-- The locked wrapper (R151): the acquire step, the steps of the unlocked command with `goto LZ` for its
final `done`, the release step. -/
def lockedSteps (inner : (State → State) → State → Label → Option State) (s : State) (l : Label) :
    Option State :=
  match l with
  | .l0 => some (s.acquire.goto .s0)
  | .lz => some (s.release s.me.tmp.snap).done
  | _ => inner (fun t => t.goto .lz) s l

/-- `RINIT` (R142). -/
def execRinit (s : State) : Host.Outcome State Fault Refusal := microStep .rinit rinitSteps s

/-- `RPROD` (R146). -/
def execRprod (s : State) : Host.Outcome State Fault Refusal :=
  microStep .rprod (produceSteps State.done) s

/-- `RCONS` (R147). -/
def execRcons (s : State) : Host.Outcome State Fault Refusal :=
  microStep .rcons (consumeSteps State.done) s

/-- `RPEEK` (R148). -/
def execRpeek (s : State) : Host.Outcome State Fault Refusal := microStep .rpeek peekSteps s

/-- `RLIN` (R149). -/
def execRlin (s : State) : Host.Outcome State Fault Refusal :=
  microStep .rlin (linearSteps State.done) s

/-- `RSKIP` (R150). -/
def execRskip (s : State) : Host.Outcome State Fault Refusal := microStep .rskip skipSteps s

/-- `RPRODL` (R152): R151 around R146. -/
def execRprodl (s : State) : Host.Outcome State Fault Refusal :=
  microStep .rprodl (lockedSteps produceSteps) s

/-- `RCONSL` (R153): R151 around R147. -/
def execRconsl (s : State) : Host.Outcome State Fault Refusal :=
  microStep .rconsl (lockedSteps consumeSteps) s

/-- `RLINL` (R154): R151 around R149. -/
def execRlinl (s : State) : Host.Outcome State Fault Refusal :=
  microStep .rlinl (lockedSteps linearSteps) s

end Sys2Proof.Machine
end

