-- ==== Sys2Proof/Machine/Spinlock.lean ====
section
/-! DEFINITION. The spinlock commands (44_spinlock R190 to R195). The record is the two words at `A0`
(10_state R35). They use `LL` and `SC` under either value of `ATOMIC_BACKEND`: 40_atomic_core R113 names
only the commands of its own file and of 41_bitfield_ops (DEDUCED, log 9). -/

namespace Sys2Proof.Machine

/-- `SPINIT` (R191). -/
def spinitSteps (s : State) (l : Label) : Option State :=
  match l with
  | .s0 => some (s.store s.me.a0 .word 0#32 fun t => t.goto .s1)
  | .s1 => some (s.store (s.me.a0 + 4#32) .word 0#32 fun t => t.finish .ok)
  | _ => none

/-- `SPLOCK` (R192). -/
def splockSteps (s : State) (l : Label) : Option State :=
  match l with
  | .s0 => some (s.acquire.goto .s1)
  | .s1 => some (s.ll s.me.a0 .word fun v t => (t.latchOld v).goto .s2)
  | .s2 => some (if s.me.tmp.old ≠ 0#32 then s.clrResv.goto .s1
      else s.sc s.me.a0 .word 1#32 fun ok t => if ok then t.goto .s3 else t.goto .s1)
  | .s3 => some (s.barrier.goto .s4)
  | .s4 => some (s.store (s.me.a0 + 4#32) .word s.me.tmp.snap fun t => t.finish .ok)
  | _ => none

/-- `SPTRY` (R193). -/
def sptrySteps (s : State) (l : Label) : Option State :=
  match l with
  | .s0 => some (s.acquire.goto .s1)
  | .s1 => some (s.ll s.me.a0 .word fun v t => (t.latchOld v).goto .s2)
  | .s2 => some (if s.me.tmp.old ≠ 0#32 then s.clrResv.goto .s5
      else s.sc s.me.a0 .word 1#32 fun ok t => if ok then t.goto .s3 else t.goto .s5)
  | .s3 => some (s.barrier.goto .s4)
  | .s4 => some (s.store (s.me.a0 + 4#32) .word s.me.tmp.snap fun t =>
      (t.setR0 1#32).finish .ok)
  | .s5 => some (((s.release s.me.tmp.snap).setR0 0#32).finish .ebusy)
  | _ => none

/-- `SPUNLOCK` (R194). -/
def spunlockSteps (s : State) (l : Label) : Option State :=
  match l with
  | .s0 => some (s.load (s.me.a0 + 4#32) .word fun v t =>
      (t.updTmp (fun u => { u with snap := v })).goto .s1)
  | .s1 => some (s.barrier.goto .s2)
  | .s2 => some (s.store s.me.a0 .word 0#32 fun t => t.goto .s3)
  | .s3 => some ((s.release s.me.tmp.snap).finish .ok)
  | _ => none

/-- `SPINIT` (R191). -/
def execSpinit (s : State) : Host.Outcome State Fault Refusal := microStep .spinit spinitSteps s

/-- `SPLOCK` (R192). -/
def execSplock (s : State) : Host.Outcome State Fault Refusal := microStep .splock splockSteps s

/-- `SPTRY` (R193). -/
def execSptry (s : State) : Host.Outcome State Fault Refusal := microStep .sptry sptrySteps s

/-- `SPUNLOCK` (R194). -/
def execSpunlock (s : State) : Host.Outcome State Fault Refusal :=
  microStep .spunlock spunlockSteps s

end Sys2Proof.Machine
end

