-- ==== Sys2Proof/Machine/Dispatch.lean ====
section
/-! DEFINITION. One arm for each command: the meaning of the micro-step that `PHASE` of the acting context
names (00_scope R10). -/

namespace Sys2Proof.Machine

def exec (i : Instr) (s : State) : Host.Outcome State Fault Refusal :=
  match i with
  -- Atomic Core (40_atomic_core)
  | .aload => Sys2Proof.Machine.execAload s
  | .astore => Sys2Proof.Machine.execAstore s
  | .aadd => Sys2Proof.Machine.execAadd s
  | .asub => Sys2Proof.Machine.execAsub s
  | .aand => Sys2Proof.Machine.execAand s
  | .aor => Sys2Proof.Machine.execAor s
  | .axor => Sys2Proof.Machine.execAxor s
  | .axchg => Sys2Proof.Machine.execAxchg s
  | .afclr => Sys2Proof.Machine.execAfclr s
  | .aftas => Sys2Proof.Machine.execAftas s
  | .acas => Sys2Proof.Machine.execAcas s
  -- Bit-Field Ops (41_bitfield_ops)
  | .bsetB bit => Sys2Proof.Machine.execBsetB bit s
  | .bsetH bit => Sys2Proof.Machine.execBsetH bit s
  | .bsetW bit => Sys2Proof.Machine.execBsetW bit s
  | .bclrB bit => Sys2Proof.Machine.execBclrB bit s
  | .bclrH bit => Sys2Proof.Machine.execBclrH bit s
  | .bclrW bit => Sys2Proof.Machine.execBclrW bit s
  | .bchgB bit => Sys2Proof.Machine.execBchgB bit s
  | .bchgH bit => Sys2Proof.Machine.execBchgH bit s
  | .bchgW bit => Sys2Proof.Machine.execBchgW bit s
  | .btstB bit => Sys2Proof.Machine.execBtstB bit s
  | .btstH bit => Sys2Proof.Machine.execBtstH bit s
  | .btstW bit => Sys2Proof.Machine.execBtstW bit s
  | .btasB bit => Sys2Proof.Machine.execBtasB bit s
  | .btasH bit => Sys2Proof.Machine.execBtasH bit s
  | .btasW bit => Sys2Proof.Machine.execBtasW bit s
  | .btacB bit => Sys2Proof.Machine.execBtacB bit s
  | .btacH bit => Sys2Proof.Machine.execBtacH bit s
  | .btacW bit => Sys2Proof.Machine.execBtacW bit s
  | .btchB bit => Sys2Proof.Machine.execBtchB bit s
  | .btchH bit => Sys2Proof.Machine.execBtchH bit s
  | .btchW bit => Sys2Proof.Machine.execBtchW bit s
  -- Ring Buffer (42_ring_buffer)
  | .rinit => Sys2Proof.Machine.execRinit s
  | .rprod => Sys2Proof.Machine.execRprod s
  | .rcons => Sys2Proof.Machine.execRcons s
  | .rpeek => Sys2Proof.Machine.execRpeek s
  | .rlin => Sys2Proof.Machine.execRlin s
  | .rskip => Sys2Proof.Machine.execRskip s
  | .rprodl => Sys2Proof.Machine.execRprodl s
  | .rconsl => Sys2Proof.Machine.execRconsl s
  | .rlinl => Sys2Proof.Machine.execRlinl s
  -- IRQ lock, critical section, nesting counter (43_irq_lock)
  | .irqlock => Sys2Proof.Machine.execIrqlock s
  | .irqunlock => Sys2Proof.Machine.execIrqunlock s
  | .csenter => Sys2Proof.Machine.execCsenter s
  | .csexit => Sys2Proof.Machine.execCsexit s
  | .intenter => Sys2Proof.Machine.execIntenter s
  | .intleave => Sys2Proof.Machine.execIntleave s
  | .inint => Sys2Proof.Machine.execInint s
  -- Spinlock (44_spinlock)
  | .spinit => Sys2Proof.Machine.execSpinit s
  | .splock => Sys2Proof.Machine.execSplock s
  | .sptry => Sys2Proof.Machine.execSptry s
  | .spunlock => Sys2Proof.Machine.execSpunlock s

end Sys2Proof.Machine
end

