-- ==== Sys2Proof/WellFormed.lean ====
section
/-! DEFINITION. What makes a command well-formed: the immediate `BIT` lies below the cell width
(30_encoding R84); no other operand stands in the command word. -/

namespace Sys2Proof

/-- The bound the immediate must stay below: the cell width of a Bit-Field command (30_encoding R84). A
command without an immediate has `BIT = 0` (R81), so any positive bound does. -/
def Op.bitBound : Op → Nat
  | .bit _ w => w.bits
  | _ => 1

/-- `BIT < W` for a Bit-Field command; always true of a command without an immediate. -/
def Instr.wf (i : Instr) : Bool := decide (i.bit.toNat < i.op.bitBound)

end Sys2Proof
end

