-- ==== Sys2Proof/Decode.lean ====
section
/-! DEFINITION. Decode and encode (30_encoding R81, R84, R87, R88, R93). A command word is one 32-bit
word handed to a port; it is never fetched from memory (20_memory R71), so no byte order enters. -/

namespace Sys2Proof

/-- The field `OP`, bits 7:0 (R81). -/
def fieldOp (w : Word) : BitVec 8 := w.extractLsb' 0 8
/-- The field `SZ`, bits 9:8 (R81). -/
def fieldSz (w : Word) : BitVec 2 := w.extractLsb' 8 2
/-- The field `BIT`, bits 14:10 (R81, R84). -/
def fieldBit (w : Word) : BitVec 5 := w.extractLsb' 10 5
/-- The field `RSV`, bits 31:15 (R81). -/
def fieldRsv (w : Word) : BitVec 17 := w.extractLsb' 15 17

/-- Why a word is illegal (R88). All illegal words behave alike (R89). -/
inductive Illegal where
  /-- `RSV` is not zero. -/
  | reservedBits
  /-- `OP` is no operation code of R87. -/
  | unknownOp
  /-- `SZ = 3` in a Bit-Field word. -/
  | reservedSize
  /-- `BIT` is not below the cell width. -/
  | bitRange
  /-- `SZ` or `BIT` is not zero in a command that has neither. -/
  | strayOperand
deriving DecidableEq, Repr

/-- The operation of a Bit-Field operation code (R87). -/
def bitOpOfCode (c : BitVec 8) : Option BitOp :=
  match c.toNat with
  | 0x20 => some .set
  | 0x21 => some .clear
  | 0x22 => some .change
  | 0x23 => some .test
  | 0x24 => some .testSet
  | 0x25 => some .testClear
  | 0x26 => some .testChange
  | _ => none

/-- The cell width a value of `SZ` names; 3 is reserved (R81). -/
def widthOfCode (c : BitVec 2) : Option Width :=
  match c.toNat with
  | 0 => some .byte
  | 1 => some .half
  | 2 => some .word
  | _ => none

/-- The command of one of the 31 operation codes outside the Bit-Field family (R87). -/
def plainOfCode (c : BitVec 8) : Option Instr :=
  match c.toNat with
  | 0x10 => some .aload
  | 0x11 => some .astore
  | 0x12 => some .aadd
  | 0x13 => some .asub
  | 0x14 => some .aand
  | 0x15 => some .aor
  | 0x16 => some .axor
  | 0x17 => some .axchg
  | 0x18 => some .afclr
  | 0x19 => some .aftas
  | 0x1A => some .acas
  | 0x30 => some .rinit
  | 0x31 => some .rprod
  | 0x32 => some .rcons
  | 0x33 => some .rpeek
  | 0x34 => some .rlin
  | 0x35 => some .rskip
  | 0x36 => some .rprodl
  | 0x37 => some .rconsl
  | 0x38 => some .rlinl
  | 0x40 => some .irqlock
  | 0x41 => some .irqunlock
  | 0x42 => some .csenter
  | 0x43 => some .csexit
  | 0x44 => some .intenter
  | 0x45 => some .intleave
  | 0x46 => some .inint
  | 0x50 => some .spinit
  | 0x51 => some .splock
  | 0x52 => some .sptry
  | 0x53 => some .spunlock
  | _ => none

/-- The Bit-Field command with the given operation, cell width and immediate. -/
def Instr.ofBit (o : BitOp) (w : Width) (b : BitVec 5) : Instr :=
  match o, w with
  | .set, .byte => .bsetB b
  | .set, .half => .bsetH b
  | .set, .word => .bsetW b
  | .clear, .byte => .bclrB b
  | .clear, .half => .bclrH b
  | .clear, .word => .bclrW b
  | .change, .byte => .bchgB b
  | .change, .half => .bchgH b
  | .change, .word => .bchgW b
  | .test, .byte => .btstB b
  | .test, .half => .btstH b
  | .test, .word => .btstW b
  | .testSet, .byte => .btasB b
  | .testSet, .half => .btasH b
  | .testSet, .word => .btasW b
  | .testClear, .byte => .btacB b
  | .testClear, .half => .btacH b
  | .testClear, .word => .btacW b
  | .testChange, .byte => .btchB b
  | .testChange, .half => .btchH b
  | .testChange, .word => .btchW b

/-- Decode (R93): total on any 32-bit word; the command of the one row the word matches, or the reason
why it is illegal (R88). -/
def decodeWord (w : Word) : Except Illegal Instr :=
  if fieldRsv w ≠ 0#17 then .error .reservedBits
  else match bitOpOfCode (fieldOp w) with
    | some o =>
      match widthOfCode (fieldSz w) with
      | none => .error .reservedSize
      | some wd =>
        if (fieldBit w).toNat < wd.bits then .ok (Instr.ofBit o wd (fieldBit w))
        else .error .bitRange
    | none =>
      match plainOfCode (fieldOp w) with
      | none => .error .unknownOp
      | some i => if fieldSz w = 0#2 ∧ fieldBit w = 0#5 then .ok i else .error .strayOperand

/-- The operation code of a Bit-Field operation (R87). -/
def BitOp.code : BitOp → BitVec 8
  | .set => 0x20#8
  | .clear => 0x21#8
  | .change => 0x22#8
  | .test => 0x23#8
  | .testSet => 0x24#8
  | .testClear => 0x25#8
  | .testChange => 0x26#8

/-- The operation code `OP` of a command (R87). -/
def Op.code : Op → BitVec 8
  | .bit o _ => o.code
  | .aload => 0x10#8
  | .astore => 0x11#8
  | .aadd => 0x12#8
  | .asub => 0x13#8
  | .aand => 0x14#8
  | .aor => 0x15#8
  | .axor => 0x16#8
  | .axchg => 0x17#8
  | .afclr => 0x18#8
  | .aftas => 0x19#8
  | .acas => 0x1A#8
  | .rinit => 0x30#8
  | .rprod => 0x31#8
  | .rcons => 0x32#8
  | .rpeek => 0x33#8
  | .rlin => 0x34#8
  | .rskip => 0x35#8
  | .rprodl => 0x36#8
  | .rconsl => 0x37#8
  | .rlinl => 0x38#8
  | .irqlock => 0x40#8
  | .irqunlock => 0x41#8
  | .csenter => 0x42#8
  | .csexit => 0x43#8
  | .intenter => 0x44#8
  | .intleave => 0x45#8
  | .inint => 0x46#8
  | .spinit => 0x50#8
  | .splock => 0x51#8
  | .sptry => 0x52#8
  | .spunlock => 0x53#8

/-- The value of `SZ` for a cell width (R81). -/
def Width.code : Width → BitVec 2
  | .byte => 0#2 | .half => 1#2 | .word => 2#2

/-- The field `SZ` of a command: the cell width of a Bit-Field command, 0 in every other (R81). -/
def Op.sz : Op → BitVec 2
  | .bit _ w => w.code
  | _ => 0#2

/-- The command word of a command: `OP | (SZ << 8) | (BIT << 10)` with `RSV = 0` (R81, R87). -/
def encode (i : Instr) : Word := 0#17 ++ (i.bit ++ (i.op.sz ++ i.op.code))

/-- The command the decoder reads from the low `nbits` bits of `w`, all higher bits zero. A command is
one 32-bit word and reaches the decoder through the port as that word (R80, R81). -/
def decodeTableWord (nbits w : Nat) : Option Instr :=
  match decodeWord (BitVec.ofNat 32 (w % 2 ^ nbits)) with
  | .ok i => some i
  | .error _ => none

/-- One row of spec/opcode_table.json: a word matches it when `w &&& mask = match` (R93). -/
structure OpcodeRow where
  mnemonic : String
  pattern : Word
  mask : Word
deriving DecidableEq, Repr

/-- `(w & mask) = match` (R93). -/
def OpcodeRow.accepts (r : OpcodeRow) (w : Word) : Bool := w &&& r.mask == r.pattern

/-- The Atomic Core rows of the opcode table. -/
def atomicRows : List OpcodeRow :=
  [⟨"ALOAD", 0x00000010#32, 0xFFFFFFFF#32⟩,
   ⟨"ASTORE", 0x00000011#32, 0xFFFFFFFF#32⟩,
   ⟨"AADD", 0x00000012#32, 0xFFFFFFFF#32⟩,
   ⟨"ASUB", 0x00000013#32, 0xFFFFFFFF#32⟩,
   ⟨"AAND", 0x00000014#32, 0xFFFFFFFF#32⟩,
   ⟨"AOR", 0x00000015#32, 0xFFFFFFFF#32⟩,
   ⟨"AXOR", 0x00000016#32, 0xFFFFFFFF#32⟩,
   ⟨"AXCHG", 0x00000017#32, 0xFFFFFFFF#32⟩,
   ⟨"AFCLR", 0x00000018#32, 0xFFFFFFFF#32⟩,
   ⟨"AFTAS", 0x00000019#32, 0xFFFFFFFF#32⟩,
   ⟨"ACAS", 0x0000001A#32, 0xFFFFFFFF#32⟩]

/-- The Bit-Field Ops rows of the opcode table. -/
def bitRows : List OpcodeRow :=
  [⟨"BSET.B", 0x00000020#32, 0xFFFFE3FF#32⟩,
   ⟨"BSET.H", 0x00000120#32, 0xFFFFC3FF#32⟩,
   ⟨"BSET.W", 0x00000220#32, 0xFFFF83FF#32⟩,
   ⟨"BCLR.B", 0x00000021#32, 0xFFFFE3FF#32⟩,
   ⟨"BCLR.H", 0x00000121#32, 0xFFFFC3FF#32⟩,
   ⟨"BCLR.W", 0x00000221#32, 0xFFFF83FF#32⟩,
   ⟨"BCHG.B", 0x00000022#32, 0xFFFFE3FF#32⟩,
   ⟨"BCHG.H", 0x00000122#32, 0xFFFFC3FF#32⟩,
   ⟨"BCHG.W", 0x00000222#32, 0xFFFF83FF#32⟩,
   ⟨"BTST.B", 0x00000023#32, 0xFFFFE3FF#32⟩,
   ⟨"BTST.H", 0x00000123#32, 0xFFFFC3FF#32⟩,
   ⟨"BTST.W", 0x00000223#32, 0xFFFF83FF#32⟩,
   ⟨"BTAS.B", 0x00000024#32, 0xFFFFE3FF#32⟩,
   ⟨"BTAS.H", 0x00000124#32, 0xFFFFC3FF#32⟩,
   ⟨"BTAS.W", 0x00000224#32, 0xFFFF83FF#32⟩,
   ⟨"BTAC.B", 0x00000025#32, 0xFFFFE3FF#32⟩,
   ⟨"BTAC.H", 0x00000125#32, 0xFFFFC3FF#32⟩,
   ⟨"BTAC.W", 0x00000225#32, 0xFFFF83FF#32⟩,
   ⟨"BTCH.B", 0x00000026#32, 0xFFFFE3FF#32⟩,
   ⟨"BTCH.H", 0x00000126#32, 0xFFFFC3FF#32⟩,
   ⟨"BTCH.W", 0x00000226#32, 0xFFFF83FF#32⟩]

/-- The Ring Buffer rows of the opcode table. -/
def ringRows : List OpcodeRow :=
  [⟨"RINIT", 0x00000030#32, 0xFFFFFFFF#32⟩,
   ⟨"RPROD", 0x00000031#32, 0xFFFFFFFF#32⟩,
   ⟨"RCONS", 0x00000032#32, 0xFFFFFFFF#32⟩,
   ⟨"RPEEK", 0x00000033#32, 0xFFFFFFFF#32⟩,
   ⟨"RLIN", 0x00000034#32, 0xFFFFFFFF#32⟩,
   ⟨"RSKIP", 0x00000035#32, 0xFFFFFFFF#32⟩,
   ⟨"RPRODL", 0x00000036#32, 0xFFFFFFFF#32⟩,
   ⟨"RCONSL", 0x00000037#32, 0xFFFFFFFF#32⟩,
   ⟨"RLINL", 0x00000038#32, 0xFFFFFFFF#32⟩]

/-- The IRQ lock, critical section and nesting counter rows of the opcode table. -/
def lockRows : List OpcodeRow :=
  [⟨"IRQLOCK", 0x00000040#32, 0xFFFFFFFF#32⟩,
   ⟨"IRQUNLOCK", 0x00000041#32, 0xFFFFFFFF#32⟩,
   ⟨"CSENTER", 0x00000042#32, 0xFFFFFFFF#32⟩,
   ⟨"CSEXIT", 0x00000043#32, 0xFFFFFFFF#32⟩,
   ⟨"INTENTER", 0x00000044#32, 0xFFFFFFFF#32⟩,
   ⟨"INTLEAVE", 0x00000045#32, 0xFFFFFFFF#32⟩,
   ⟨"ININT", 0x00000046#32, 0xFFFFFFFF#32⟩]

/-- The Spinlock rows of the opcode table. -/
def spinRows : List OpcodeRow :=
  [⟨"SPINIT", 0x00000050#32, 0xFFFFFFFF#32⟩,
   ⟨"SPLOCK", 0x00000051#32, 0xFFFFFFFF#32⟩,
   ⟨"SPTRY", 0x00000052#32, 0xFFFFFFFF#32⟩,
   ⟨"SPUNLOCK", 0x00000053#32, 0xFFFFFFFF#32⟩]

/-- The 52 rows of spec/opcode_table.json, in its order. -/
def opcodeTable : List OpcodeRow := atomicRows ++ bitRows ++ ringRows ++ lockRows ++ spinRows

end Sys2Proof
end

