-- ==== Sys2Proof/Machine/Fetch.lean ====
section
/-! DEFINITION. How a command reaches a context and which command a micro-step runs. The block fetches
nothing from memory (20_memory R71): issue latches the word in `CMDR` (10_state R24) and `PHASE` names the
step (R25). -/

namespace Sys2Proof.Machine

/-- The first step of a command: `L0` of a locked ring command (42_ring_buffer R151), `S0` of every other
(30_encoding R93). -/
def Op.entry : Op → Label
  | .rprodl => .l0
  | .rconsl => .l0
  | .rlinl => .l0
  | _ => .s0

/-- Issue (30_encoding R80): `CMDR <- word`, then the decode of R93: a legal word puts the context at the
first step of its command, an illegal one sets `ST` to `ENOTSUP` and leaves the context idle (R88). -/
def Context.issue (c : Context) (w : Word) : Context :=
  match decodeWord w with
  | .ok i => { c with cmdr := w, phase := .at i.op (Op.entry i.op) }
  | .error _ => { c with cmdr := w, st := Status.enotsup.code }

/-- The command whose micro-step the running context of core `k` takes next. The opcode and the immediate
are read from `CMDR` (10_state R24); `PHASE` must name the same command (R25). -/
def State.fetch (s : State) (k : Nat) : Except (Sum Fault Refusal) Instr :=
  if k < s.cfg.ncore then
    match (s.running k).phase with
    | .idle => .error (.inr .nothingToStep)
    | .faulted => .error (.inl (.contextFaulted k))
    | .at op _ =>
      match decodeWord (s.running k).cmdr with
      | .error _ => .error (.inr .phaseMismatch)
      | .ok i => if i.op = op then .ok i else .error (.inr .phaseMismatch)
  else .error (.inr .noSuchCore)

/-- The event belongs to core `k` from here on. -/
def State.actAs (s : State) (k : Nat) : State := { s with actor := k }

/-- `s` with the command word `w` placed where the next step takes it: a legal word latched in the running
context of the acting core, as its issue leaves it, with a micro-step of that core as the next event; an
illegal word as the next event, the issue that rejects it (30_encoding R88) (log 12). -/
def State.placeWord (s : State) (w : Word) : State :=
  match decodeWord w with
  | .ok _ =>
    { s.updMe (fun c => c.issue w) with schedule := .micro s.actor :: s.schedule }
  | .error _ => { s with schedule := .issue s.actor w :: s.schedule }

end Sys2Proof.Machine
end

