-- ==== Sys2Proof/Machine/Events.lean ====
section
/-! DEFINITION. The events of the step relation other than a micro-step (60_exceptions R222): what the host
does through the port, interrupt entry and return, monitor loss. An event whose conditions do not hold is
refused by name (log 8). -/

namespace Sys2Proof.Machine

/-- A port access or host memory access: possible only on the running context of a core and only while it
is idle (30_encoding R80, 20_memory R74, 70 R254). -/
def State.hostEvent (s : State) (k : Nat) (f : State → State) : Host.Outcome State Fault Refusal :=
  if k < s.cfg.ncore then
    if (s.running k).phase = .idle then .next (f (s.actAs k)) else .refused .portNotIdle
  else .refused .noSuchCore

/-- The conditions under which an interrupt may be delivered to core `k` (60_exceptions R207). -/
def State.mayDeliver (s : State) (k : Nat) : Bool :=
  decide (s.imask k = 0#32) && decide (s.depth k < s.cfg.maxnest) &&
    decide ((s.running k).phase ≠ .faulted)

/-- Interrupt entry (60_exceptions R208): one level deeper, no reservation, a fresh idle context. -/
def State.enterHandler (s : State) (k : Nat) : State :=
  { s.updCore k (fun c =>
      { c with depth := c.depth + 1, resv := none,
               ports := c.ports.set (c.depth + 1) (Context.free s.fresh) }) with
    fresh := s.fresh + 22 }

/-- The conditions under which the handler of core `k` may return (60_exceptions R210). -/
def State.mayReturn (s : State) (k : Nat) : Bool :=
  decide (1 ≤ s.depth k) && decide ((s.running k).phase = .idle)

/-- Interrupt return (60_exceptions R210): one level up, no reservation; nothing is restored. -/
def State.leaveHandler (s : State) (k : Nat) : State :=
  s.updCore k (fun c => { c with depth := c.depth - 1, resv := none })

/-- Monitor loss (20_memory R68). -/
def State.loseResv (s : State) (k : Nat) : State := s.updCore k (fun c => { c with resv := none })

/-- An event that is not a micro-step (60_exceptions R222 (b) to (e)). -/
def State.environment (s : State) (e : Event) : Host.Outcome State Fault Refusal :=
  match e with
  | .micro _ => .refused .nothingToStep
  | .issue k w => s.hostEvent k fun t => t.updMe (fun c => c.issue w)
  | .setArg k a v => s.hostEvent k fun t => t.updMe (fun c => c.setArg a v)
  | .copyArg k a r => s.hostEvent k fun t => t.updMe (fun c => c.setArg a (c.result r))
  | .readPort k _ => s.hostEvent k fun t => t
  | .hostRead k addr w => s.hostEvent k fun t => t.load addr w fun _ u => u
  | .hostWrite k addr w v => s.hostEvent k fun t => t.store addr w v fun u => u
  | .deliver k =>
    if k < s.cfg.ncore then
      if s.mayDeliver k then .next (s.enterHandler k) else .refused .deliveryNotEnabled
    else .refused .noSuchCore
  | .ret k =>
    if k < s.cfg.ncore then
      if s.mayReturn k then .next (s.leaveHandler k) else .refused .returnNotEnabled
    else .refused .noSuchCore
  | .lose k =>
    if k < s.cfg.ncore then
      if s.cfg.monitorLoss = .allowed then .next (s.loseResv k) else .refused .lossNotAllowed
    else .refused .noSuchCore

end Sys2Proof.Machine
end

