-- ==== Sys2Proof/Machine/Step.lean ====
section
/-! DEFINITION. One step of the machine: the next event of the schedule (60_exceptions R222). -/

namespace Sys2Proof.Machine

/-- A micro-step of the running context of core `k` (60_exceptions R222 (a)): the command that its `CMDR`
holds executes the step that its `PHASE` names. -/
def State.microEvent (s : State) (k : Nat) : Host.Outcome State Fault Refusal :=
  match s.fetch k with
  | .ok i => exec i (s.actAs k)
  | .error (.inl f) => .fault f
  | .error (.inr r) => .refused r

/-- The event `e` happens. -/
def State.happen (s : State) (e : Event) : Host.Outcome State Fault Refusal :=
  match e with
  | .micro k => s.microEvent k
  | _ => s.environment e

/-- One step: the schedule's first event happens and leaves the schedule. With no event left nothing
happens (log 4). A configuration outside 00_scope R6 is refused (93 V25). -/
def step (s : State) : Host.Outcome State Fault Refusal :=
  if s.cfg.legal then
    match s.schedule with
    | [] => .next s
    | e :: rest => { s with schedule := rest }.happen e
  else .refused .illegalConfig

/-- `s` with the command whose bits are `w` placed so that the very next step runs it (log 12). -/
def State.withFetchWord (s : State) (nbits w : Nat) : State :=
  s.placeWord (BitVec.ofNat 32 (w % 2 ^ nbits))

end Sys2Proof.Machine
end

