-- ==== Sys2Proof/Safety.lean ====
section
/-! DEFINITION. What a run is and what holds in every state a run reaches: the safe states (60_exceptions
R203), the end of a run (R222), and the invariants of the machine. -/

namespace Sys2Proof.Machine

/-- No context is FAULTED: "A model treats a FAULTED context as gone wrong" (60_exceptions R203). -/
def State.safe (s : State) : Prop := ∀ k l, (s.port k l).phase ≠ .faulted

/-- An event of a host program (60_exceptions R222 (b)). -/
def Event.ofHost : Event → Bool
  | .micro _ => false
  | .issue _ _ => true
  | .setArg _ _ _ => true
  | .copyArg _ _ _ => true
  | .readPort _ _ => true
  | .hostRead _ _ _ => true
  | .hostWrite _ _ _ _ => true
  | .deliver _ => false
  | .ret _ => false
  | .lose _ => false

/-- A run is over (60_exceptions R222): every host program is issued and completed, every `DEPTH[k]` is 0
and no context is FAULTED. -/
def State.over (s : State) : Prop :=
  (∀ e ∈ s.schedule, e.ofHost = false) ∧ (∀ k, s.depth k = 0) ∧ ∀ k l, (s.port k l).phase = .idle

end Sys2Proof.Machine

/-! ### Which steps a command has -/

namespace Sys2Proof

/-- The commands that are a read-modify-write of one cell: the Atomic Core (40_atomic_core R101) and the
mutating Bit-Field commands (41_bitfield_ops R121). -/
def Op.isRmw : Op → Bool
  | .aload => true
  | .astore => true
  | .aadd => true
  | .asub => true
  | .aand => true
  | .aor => true
  | .axor => true
  | .axchg => true
  | .afclr => true
  | .aftas => true
  | .acas => true
  | .bit .test _ => false
  | .bit _ _ => true
  | _ => false

/-- The width of the cell an exclusive access of the command has (20_memory R54). -/
def Op.cellWidth : Op → Width
  | .bit _ w => w
  | _ => .word

/-- The step labels of each command (10_state R25: "one value `(op, Sx)` for each step label `Sx` of each
command `op`"), with the steps of 40_atomic_core R113 under `IRQMASK`. -/
def Op.steps (b : AtomicBackend) (op : Op) : List Machine.Label :=
  if op.isRmw then
    match b with
    | .llsc => [.s0, .s1]
    | .irqmask => [.s0, .s1, .s2, .s3]
  else
    match op with
    | .rinit => [.s0, .s1, .s2, .s3, .s4, .s5]
    | .rprod => [.s0, .s1, .s2, .s3, .s4, .s5, .s6, .s7]
    | .rcons => [.s0, .s1, .s2, .s3, .s4, .s5, .s6, .s7]
    | .rpeek => [.s0, .s1, .s2, .s3, .s4, .s5]
    | .rlin => [.s0, .s1, .s2]
    | .rskip => [.s0, .s1, .s2]
    | .rprodl => [.l0, .s0, .s1, .s2, .s3, .s4, .s5, .s6, .s7, .lz]
    | .rconsl => [.l0, .s0, .s1, .s2, .s3, .s4, .s5, .s6, .s7, .lz]
    | .rlinl => [.l0, .s0, .s1, .s2, .lz]
    | .intenter => [.s0, .s1, .s2, .s3]
    | .intleave => [.s0, .s1, .s2, .s3]
    | .spinit => [.s0, .s1]
    | .splock => [.s0, .s1, .s2, .s3, .s4]
    | .sptry => [.s0, .s1, .s2, .s3, .s4, .s5]
    | .spunlock => [.s0, .s1, .s2, .s3]
    | _ => [.s0]

/-- The steps that stand between an `LL` and the `SC` or `CLRRESV` of the same attempt. -/
def Op.holds (b : AtomicBackend) (op : Op) (l : Machine.Label) : Bool :=
  (op.isRmw && decide (b = .llsc) && decide (l = .s1)) ||
    ((decide (op = .splock) || decide (op = .sptry)) && decide (l = .s2))

end Sys2Proof

/-! ### Invariants -/

namespace Sys2Proof.Machine

/-- The machine has the shape its configuration gives it (10_state R20, R30; 00_scope R6). -/
structure State.Shaped (s : State) : Prop where
  legal : s.cfg.legal = true
  cores : s.cores.length = s.cfg.ncore
  ports : ∀ c ∈ s.cores, c.ports.length = s.cfg.maxnest + 1
  depth : ∀ c ∈ s.cores, c.depth ≤ s.cfg.maxnest

/-- The memory is in canonical form and lists populated bytes only (10_state R32). -/
structure State.MemOk (s : State) : Prop where
  wf : s.mem.wf = true
  populated : ∀ c ∈ s.mem, s.cfg.memBase ≤ c.1 ∧ c.1 < s.cfg.memBase + s.cfg.memSize

/-- Bits 31:1 of every `IMASK[k]` are zero (10_state R28) and every reservation names an aligned granule
(10_state R31). -/
structure State.CoresOk (s : State) : Prop where
  imask : ∀ c ∈ s.cores, c.imask = c.imask &&& 1#32
  resv : ∀ c ∈ s.cores, ∀ g, c.resv = some g → granule g = g

/-- `FSR` holds 0 or the code of the fault that stopped the context, and 0 exactly when the context is not
FAULTED (10_state R27, 60_exceptions R203). -/
def State.FaultsOk (s : State) : Prop :=
  ∀ k l, ((s.port k l).fsr = 0#32 ∨ (s.port k l).fsr = 1#32 ∨ (s.port k l).fsr = 2#32) ∧
    ((s.port k l).fsr ≠ 0#32 ↔ (s.port k l).phase = .faulted)

/-- A context in the middle of a command stands at a step of that command, and `CMDR` holds a word of it
(10_state R24, R25). -/
def State.PhasesOk (s : State) : Prop :=
  ∀ k l op lbl, (s.port k l).phase = .at op lbl →
    lbl ∈ op.steps s.cfg.backend ∧ ∃ i, decodeWord (s.port k l).cmdr = .ok i ∧ i.op = op

/-- The idle invariant (70 R256): a core holds a reservation only while its running context stands between
an `LL` and the `SC` or `CLRRESV` of the same attempt, or is FAULTED. -/
def State.ResvIdle (s : State) : Prop :=
  ∀ k, s.resv k ≠ none →
    (s.running k).phase = .faulted ∨
      ∃ op l, (s.running k).phase = .at op l ∧ op.holds s.cfg.backend l = true

/-- The reservation guards the value (20_memory R70; 40_atomic_core R114): between an `LL` and its `SC` the
cell stays accessible, and while the reservation of the running context holds, the cell holds what the
`LL` returned. -/
structure State.ResvLinked (s : State) : Prop where
  access : ∀ k l op lbl, (s.port k l).phase = .at op lbl → op.holds s.cfg.backend lbl = true →
    accessFault s.cfg (s.port k l).a0 op.cellWidth = none
  value : ∀ k op lbl, (s.running k).phase = .at op lbl → op.holds s.cfg.backend lbl = true →
    s.resv k = some (granule (s.running k).a0) →
      s.mem.read (s.running k).a0.toNat op.cellWidth = (s.running k).tmp.old

/-- Everything above together. -/
structure State.Inv (s : State) : Prop where
  shaped : s.Shaped
  mem : s.MemOk
  cores : s.CoresOk
  faults : s.FaultsOk
  phases : s.PhasesOk
  idle : s.ResvIdle
  linked : s.ResvLinked

end Sys2Proof.Machine
end

