-- ==== Sys2Proof/Safety/Effects.lean ====
section
/-! DEFINITION. The vocabulary of the statements: what one event may change and what it leaves alone, and the
tables of the command rules, written from the spec and not from the meanings. -/

namespace Sys2Proof.Machine

/-! ### Frames -/

/-- An access of width `w` at `a` is aligned (20_memory R52) and in range (R56). -/
abbrev Accessible (cfg : Config) (a : Word) (w : Width) : Prop :=
  a.toNat % w.bytes = 0 ∧ cfg.memBase ≤ a.toNat ∧
    a.toNat + w.bytes ≤ cfg.memBase + cfg.memSize

/-- The event concerns the executing context: configuration, schedule, acting core, depths and every other
context are as before. (`fresh`, the model's counter of free values, is not constrained.) -/
structure SameElse (s t : State) : Prop where
  cfg : t.cfg = s.cfg
  schedule : t.schedule = s.schedule
  actor : t.actor = s.actor
  cores : t.cores.length = s.cores.length
  depth : ∀ k, t.depth k = s.depth k
  ports : ∀ k l, ¬(k = s.actor ∧ l = s.depth s.actor) → t.port k l = s.port k l

/-- Every byte of memory reads as before. -/
def SameBytes (s t : State) : Prop := ∀ x, t.mem.get x = s.mem.get x

/-- The cell of width `w` at `a` holds the low bits of `v`, and every other byte reads as before. -/
def StoredCell (s t : State) (a : Word) (w : Width) (v : Word) : Prop :=
  t.mem.read a.toNat w = keepLow w v ∧
    ∀ x, (x < a.toNat ∨ a.toNat + w.bytes ≤ x) → t.mem.get x = s.mem.get x

/-- Every `IMASK[k]` reads as before. -/
def SameMasks (s t : State) : Prop := ∀ k, t.imask k = s.imask k

/-- `IMASK` of the acting core reads as `v`, every other as before. -/
def MaskIs (s t : State) (v : Word) : Prop :=
  ∀ k, t.imask k = if k = s.actor then v else s.imask k

/-- Every reservation is as before. -/
def SameResv (s t : State) : Prop := ∀ k, t.resv k = s.resv k

/-- The acting core's reservation is `r`, every other as before. -/
def ResvIs (s t : State) (r : Option Word) : Prop :=
  ∀ k, t.resv k = if k = s.actor then r else s.resv k

/-- Every reservation on the granule of `a` is gone, every other as before (20_memory R66). -/
def ResvBroken (s t : State) (a : Word) : Prop :=
  ∀ k, t.resv k = if s.resv k = some (granule a) then none else s.resv k

/-- The event history has grown by these accesses of the executing context, the last one first. -/
def Logs (s t : State) (l : List Access) : Prop :=
  t.history =
    l.map (fun a => { core := s.actor, level := s.depth s.actor, acc := a }) ++ s.history

/-- Nothing but the executing context changes. -/
structure OnlyContext (s t : State) : Prop extends SameElse s t where
  bytes : SameBytes s t
  nest : t.nest = s.nest
  masks : SameMasks s t
  resv : SameResv s t
  logs : Logs s t []

/-- The executing context changes and one `MemRead` happens. -/
structure OnlyReads (s t : State) (a : Word) (w : Width) : Prop extends SameElse s t where
  bytes : SameBytes s t
  nest : t.nest = s.nest
  masks : SameMasks s t
  resv : SameResv s t
  logs : Logs s t [.read a w (s.mem.read a.toNat w)]

/-- The executing context changes and one `LL` happens, which leaves the core's reservation at `r`. -/
structure OnlyReserves (s t : State) (a : Word) (w : Width) (r : Option Word) : Prop
    extends SameElse s t where
  bytes : SameBytes s t
  nest : t.nest = s.nest
  masks : SameMasks s t
  resv : ResvIs s t r
  logs : Logs s t [.read a w (s.mem.read a.toNat w)]

/-- The executing context changes and one `MemWrite` or successful `SC` happens. -/
structure OnlyWrites (s t : State) (a : Word) (w : Width) (v : Word) : Prop
    extends SameElse s t where
  bytes : StoredCell s t a w v
  nest : t.nest = s.nest
  masks : SameMasks s t
  resv : ResvBroken s t a
  logs : Logs s t [.write a w v]

/-- The executing context changes and the core's reservation is given up. -/
structure OnlyReleases (s t : State) : Prop extends SameElse s t where
  bytes : SameBytes s t
  nest : t.nest = s.nest
  masks : SameMasks s t
  resv : ResvIs s t none
  logs : Logs s t []

/-- The executing context changes and one `BARRIER` happens. -/
structure OnlyFences (s t : State) : Prop extends SameElse s t where
  bytes : SameBytes s t
  nest : t.nest = s.nest
  masks : SameMasks s t
  resv : SameResv s t
  logs : Logs s t [.barrier]

/-- The executing context changes and the acting core's `IMASK` becomes `v`. -/
structure OnlyMasks (s t : State) (v : Word) : Prop extends SameElse s t where
  bytes : SameBytes s t
  nest : t.nest = s.nest
  masks : MaskIs s t v
  resv : SameResv s t
  logs : Logs s t []

/-- The executing context changes and `NEST` becomes `n`. -/
structure OnlyCounts (s t : State) (n : Word) : Prop extends SameElse s t where
  bytes : SameBytes s t
  nest : t.nest = n
  masks : SameMasks s t
  resv : SameResv s t
  logs : Logs s t []

/-- The executing context has completed its command: it is `c` but idle, and its temporaries are
unspecified (10_state R25, R26). -/
def Completed (t : State) (c : Context) : Prop :=
  t.me = { c with phase := .idle, tmp := t.me.tmp }

/-- The executing context stands at step `l` of command `i`. -/
abbrev State.atStep (s : State) (i : Instr) (l : Label) : Prop := s.me.phase = .at i.op l

/-- `n` micro-steps of command `i` by the acting core with no other event between them. -/
def alone (i : Instr) : Nat → State → Host.Outcome State Fault Refusal
  | 0, s => .next s
  | n + 1, s =>
    match exec i s with
    | .next t => alone i n t
    | .fault f => .fault f
    | .refused r => .refused r

/-! ### The tables of the command rules -/

/-- What the rule of a retry-loop command says: the new value of the cell from the old one and `A1`, and
whether the old value is the result. -/
structure RmwRule where
  instr : Instr
  new : Word → Word → Word
  returnsOld : Bool

/-- 40_atomic_core R102 to R111. -/
def atomicRules : List RmwRule :=
  [⟨.aload, fun old _ => old, true⟩,
   ⟨.astore, fun _ a1 => a1, false⟩,
   ⟨.aadd, fun old a1 => old + a1, true⟩,
   ⟨.asub, fun old a1 => old - a1, true⟩,
   ⟨.aand, fun old a1 => old &&& a1, true⟩,
   ⟨.aor, fun old a1 => old ||| a1, true⟩,
   ⟨.axor, fun old a1 => old ^^^ a1, true⟩,
   ⟨.axchg, fun _ a1 => a1, true⟩,
   ⟨.afclr, fun _ _ => 0#32, false⟩,
   ⟨.aftas, fun old _ => old ||| 1#32, true⟩]

end Sys2Proof.Machine

namespace Sys2Proof

/-- What a Bit-Field operation does to its bit (41_bitfield_ops R122 to R128). -/
def BitOp.onBit : BitOp → Bool → Bool
  | .set, _ => true
  | .clear, _ => false
  | .change, x => !x
  | .test, x => x
  | .testSet, _ => true
  | .testClear, _ => false
  | .testChange, x => !x

/-- Whether a Bit-Field operation returns the bit (41_bitfield_ops R122 to R128). -/
def BitOp.returnsBit : BitOp → Bool
  | .set => false
  | .clear => false
  | .change => false
  | .test => true
  | .testSet => true
  | .testClear => true
  | .testChange => true

end Sys2Proof

namespace Sys2Proof.Machine

/-- The address of the descriptor word a `LOADDESC` step reads (42_ring_buffer R144). -/
def descriptorWord (l : Label) (c : Context) : Option Word :=
  match l with
  | .s0 => some (c.a0 + 8#32)
  | .s1 => some c.a0
  | .s2 => some (c.a0 + 4#32)
  | .s3 => some (c.a0 + 12#32)
  | .s4 => some (c.a0 + 16#32)
  | _ => none

/-- The access a step makes whatever the registers hold: its address and width (40_atomic_core R101, R113;
41_bitfield_ops R121, R125; 42_ring_buffer R142, R144, R146, R147, R149, R150; 44_spinlock R191 to R194).
The steps that access memory only in some cases are not in this table: `S1` of `ACAS` (`S2` under
`IRQMASK`), the copy step `S5` of a ring command, and `S2` of `SPLOCK` and `SPTRY`. -/
def stepAccess (b : AtomicBackend) (op : Op) (l : Label) (c : Context) : Option (Word × Width) :=
  if op.isRmw then
    match b, l with
    | .llsc, .s0 => some (c.a0, op.cellWidth)
    | .llsc, .s1 => if op = .acas then none else some (c.a0, op.cellWidth)
    | .irqmask, .s1 => some (c.a0, op.cellWidth)
    | .irqmask, .s2 => if op = .acas then none else some (c.a0, op.cellWidth)
    | _, _ => none
  else
    match op, l with
    | .bit .test w, .s0 => some (c.a0, w)
    | .rinit, .s1 => some (c.a0, .word)
    | .rinit, .s2 => some (c.a0 + 4#32, .word)
    | .rinit, .s3 => some (c.a0 + 8#32, .word)
    | .rinit, .s4 => some (c.a0 + 12#32, .word)
    | .rinit, .s5 => some (c.a0 + 16#32, .word)
    | .rprod, .s7 => some (c.a0, .word)
    | .rprodl, .s7 => some (c.a0, .word)
    | .rcons, .s7 => some (c.a0 + 4#32, .word)
    | .rconsl, .s7 => some (c.a0 + 4#32, .word)
    | .rprod, l => (descriptorWord l c).map (·, .word)
    | .rprodl, l => (descriptorWord l c).map (·, .word)
    | .rcons, l => (descriptorWord l c).map (·, .word)
    | .rconsl, l => (descriptorWord l c).map (·, .word)
    | .rpeek, l => (descriptorWord l c).map (·, .word)
    | .rlin, .s0 => some (c.a0 + 8#32, .word)
    | .rlin, .s1 => some (c.a0, .word)
    | .rlin, .s2 => some (c.a0 + 4#32, .word)
    | .rlinl, .s0 => some (c.a0 + 8#32, .word)
    | .rlinl, .s1 => some (c.a0, .word)
    | .rlinl, .s2 => some (c.a0 + 4#32, .word)
    | .rskip, .s0 => some (c.a0 + 4#32, .word)
    | .rskip, .s2 => some (c.a0 + 4#32, .word)
    | .spinit, .s0 => some (c.a0, .word)
    | .spinit, .s1 => some (c.a0 + 4#32, .word)
    | .splock, .s1 => some (c.a0, .word)
    | .splock, .s4 => some (c.a0 + 4#32, .word)
    | .sptry, .s1 => some (c.a0, .word)
    | .sptry, .s4 => some (c.a0 + 4#32, .word)
    | .spunlock, .s0 => some (c.a0 + 4#32, .word)
    | .spunlock, .s2 => some (c.a0, .word)
    | _, _ => none

/-- The commands that begin with `LOADDESC` (42_ring_buffer R144). -/
def loadsDescriptor : List Instr := [.rprod, .rcons, .rpeek, .rprodl, .rconsl]

/-- A producer command (42_ring_buffer R146, R152). -/
def isProducer (i : Instr) : Bool := decide (i = .rprod) || decide (i = .rprodl)

/-- The bound of a transfer, from the latched words: `unused` for a producer, `used` for a consumer
(42_ring_buffer R141, R146 to R148). -/
def transferBound (i : Instr) (t : Temps) : Word :=
  if isProducer i then t.mask + 1#32 - (t.inIdx - t.outIdx) else t.inIdx - t.outIdx

/-- The slot a transfer starts at: `off_p` for a producer, `off_c` for a consumer (42_ring_buffer R141). -/
def transferStart (i : Instr) (t : Temps) : Word :=
  if isProducer i then t.inIdx &&& t.mask else t.outIdx &&& t.mask

/-- The unsigned minimum (00_scope R8), as a number. -/
def IsMinOf (r a b : Word) : Prop := r.toNat = min a.toNat b.toNat

/-- The ring address `ra(i)` of byte `i` of a transfer (42_ring_buffer R145), with `i` as a number. -/
def ringByte (t : Temps) (i : Nat) : Word :=
  if BitVec.ofNat 32 i < t.l * t.esz then t.data + t.off * t.esz + BitVec.ofNat 32 i
  else t.data + (BitVec.ofNat 32 i - t.l * t.esz)

/-! ### Events -/

/-- The state in which the event at the head of the schedule happens: the event has left the schedule and
core `k` acts. -/
def State.turnTo (s : State) (k : Nat) (rest : List Event) : State :=
  { s with schedule := rest, actor := k }

/-- The core a host event is issued to (60_exceptions R222 (b)). -/
def Event.hostCore : Event → Option Nat
  | .issue k _ => some k
  | .setArg k _ _ => some k
  | .copyArg k _ _ => some k
  | .readPort k _ => some k
  | .hostRead k _ _ => some k
  | .hostWrite k _ _ _ => some k
  | .micro _ => none
  | .deliver _ => none
  | .ret _ => none
  | .lose _ => none

end Sys2Proof.Machine
end

