-- ==== Sys2Proof/Certificates/Slice0/Obligations.lean ====
section
/-! DEFINITION. The statements for the provers. `exec i s` is one micro-step of the executing context, at the
step its `PHASE` names (00_scope R10); a frame says what that step leaves unchanged. -/

open Sys2Proof Sys2Proof.Machine

/-! ### Encoding -/

/-- Decoding the word of a well-formed command gives the command back, and a word that decodes is the word
of the command it decodes to, which is well-formed (30_encoding R81, R84, R87, R93). -/
def Obligations.DecodeInvertsEncode : Prop :=
  (∀ i : Instr, i.wf = true → decodeWord (encode i) = .ok i) ∧
  ∀ (w : Word) (i : Instr), decodeWord w = .ok i → i.wf = true ∧ encode i = w

/-- 30_encoding R93: a word that matches a row of the opcode table decodes to that row's command, a word
that matches none is illegal, and at most one row matches any word. -/
def Obligations.DecodeFollowsTheOpcodeTable : Prop :=
  ∀ w : Word,
    (∀ r ∈ opcodeTable, r.accepts w = true → ∃ i, decodeWord w = .ok i ∧ i.mnemonic = r.mnemonic) ∧
    ((∀ r ∈ opcodeTable, r.accepts w = false) → ∃ e, decodeWord w = .error e) ∧
    opcodeTable.Pairwise (fun r q => ¬(r.accepts w = true ∧ q.accepts w = true))

/-- A few words written out from 30_encoding R81 and R87 decode to the command they stand for, one or more
from each family; two illegal words of R88 do not decode. -/
def Obligations.SampleWordsDecode : Prop :=
  decodeWord 0x00000010#32 = .ok .aload ∧
  decodeWord 0x0000001A#32 = .ok .acas ∧
  decodeWord 0x00007E20#32 = .ok (.bsetW 31#5) ∧
  decodeWord 0x00001C20#32 = .ok (.bsetB 7#5) ∧
  decodeWord 0x00003D25#32 = .ok (.btacH 15#5) ∧
  decodeWord 0x00000031#32 = .ok .rprod ∧
  decodeWord 0x00000038#32 = .ok .rlinl ∧
  decodeWord 0x00000044#32 = .ok .intenter ∧
  decodeWord 0x00000053#32 = .ok .spunlock ∧
  decodeWord 0x00000000#32 = .error .unknownOp ∧
  decodeWord 0x00002020#32 = .error .bitRange

/-! ### Issue and the step -/

/-- Issue (30_encoding R80, R93): on an idle running context a legal word is latched and `PHASE` goes to the
first step of its command; nothing else changes. That a locked ring command begins at `L0` (42_ring_buffer
R151) where R25 writes `S0` is the model's reading, log 13; that the host's events stand in a schedule is
the model's choice, log 4. -/
def Obligations.IssueLatchesAndDecodes : Prop :=
  ∀ (s : State) (k : Nat) (w : Word) (i : Instr) (rest : List Event),
    s.Shaped → s.schedule = .issue k w :: rest → k < s.cfg.ncore → (s.running k).phase = .idle →
    decodeWord w = .ok i →
    ∃ t, step s = .next t ∧ OnlyContext (s.turnTo k rest) t ∧
      t.me = { s.running k with
        cmdr := w,
        phase := .at i.op (if i = .rprodl ∨ i = .rconsl ∨ i = .rlinl then .l0 else .s0) }

/-- 30_encoding R88: every word with a non-zero `RSV`, an `OP` that is no operation code, a non-zero `SZ` or
`BIT` outside the Bit-Field family, `SZ = 3`, or a `BIT` not below the cell width is illegal. Issuing it sets
`CMDR` and `ST` to the word and `ENOTSUP` (95) and does nothing else: the context stays idle. -/
def Obligations.IllegalWordsAreRejected : Prop :=
  ∀ (s : State) (k : Nat) (w : Word) (rest : List Event),
    s.Shaped → s.schedule = .issue k w :: rest → k < s.cfg.ncore → (s.running k).phase = .idle →
    ((fieldRsv w ≠ 0#17) ∨ (∀ r ∈ opcodeTable, fieldOp w ≠ fieldOp r.pattern) ∨
      ((fieldOp w < 0x20#8 ∨ 0x26#8 < fieldOp w) ∧ (fieldSz w ≠ 0#2 ∨ fieldBit w ≠ 0#5)) ∨
      (0x20#8 ≤ fieldOp w ∧ fieldOp w ≤ 0x26#8 ∧
        (fieldSz w = 3#2 ∨ 8 * 2 ^ (fieldSz w).toNat ≤ (fieldBit w).toNat))) →
    ∃ t, step s = .next t ∧ OnlyContext (s.turnTo k rest) t ∧
      t.me = { s.running k with cmdr := w, st := 95#32 } ∧ t.me.phase = .idle

/-- The port of a context that is not idle accepts nothing (30_encoding R80, 70 R254, 93 V20): the step
relation has no such event. That the model answers such a schedule with a refusal is its choice, log 8. -/
def Obligations.BusyPortAcceptsNothing : Prop :=
  ∀ (s : State) (k : Nat) (e : Event) (rest : List Event),
    s.cfg.legal = true → s.schedule = e :: rest → e.hostCore = some k → k < s.cfg.ncore →
    (s.running k).phase ≠ .idle → step s = .refused .portNotIdle

/-- A step runs the decoded command: when the next event is a micro-step of core `k`, the running context
of `k` is in a command and `CMDR` decodes to it, the step is `exec` of that command with core `k` acting
and the event gone from the schedule (60_exceptions R222 (a), 10_state R24, R25). The schedule, the acting core
and `exec` as one micro-step are the model's choices and readings, logs 4, 5 and 13. -/
def Obligations.StepRunsDecodedInstruction : Prop :=
  ∀ (s : State) (k : Nat) (rest : List Event) (op : Op) (l : Label) (i : Instr),
    s.cfg.legal = true → s.schedule = .micro k :: rest → k < s.cfg.ncore →
    (s.running k).phase = .at op l → decodeWord (s.running k).cmdr = .ok i → i.op = op →
    step s = exec i (s.turnTo k rest)

/-- Every step of every command runs and leaves its context at a step of the same command, idle or FAULTED
(10_state R25 (b)). Which labels a command has under `IRQMASK`, and where a locked ring command begins and ends,
is the model's reading, logs 9 and 13. -/
def Obligations.EveryStepOfEveryCommandRuns : Prop :=
  ∀ (i : Instr) (s : State) (l : Label),
    s.atStep i l → l ∈ i.op.steps s.cfg.backend →
    ∃ t, exec i s = .next t ∧
      (t.me.phase = .idle ∨ t.me.phase = .faulted ∨
        ∃ m ∈ i.op.steps s.cfg.backend, t.me.phase = .at i.op m)

/-! ### Reset -/

/-- What the spec states of reset (10_state R38, 70 R230), in every configuration: every context idle and
unfaulted, interrupts enabled, no reservation, depth 0, `NEST` 0. That `State.reset` is the reset state of
`Config.standard` is the model's choice, log 1. -/
def Obligations.ResetLeavesTheStatedValues : Prop :=
  (∀ (cfg : Config) (k l : Nat),
    ((State.resetWith cfg).port k l).phase = .idle ∧ ((State.resetWith cfg).port k l).fsr = 0#32 ∧
    (State.resetWith cfg).imask k = 0#32 ∧ (State.resetWith cfg).resv k = none ∧
    (State.resetWith cfg).depth k = 0 ∧ (State.resetWith cfg).nest = 0#32 ∧
    (State.resetWith cfg).cfg = cfg) ∧
  State.reset = State.resetWith Config.standard

/-- Reset meets every invariant of the machine, in every legal configuration; `State.reset` has the configuration
of log 1, the model's choice. -/
def Obligations.ResetMeetsTheInvariants : Prop :=
  (∀ cfg : Config, cfg.legal = true → (State.resetWith cfg).Inv) ∧ State.reset.Inv

/-! ### Invariants that every step keeps -/

/-- Every step keeps the machine's shape: `NCORE` cores, `MAXNEST + 1` contexts each, `DEPTH[k]` at most
`MAXNEST` (10_state R20, R30; 60_exceptions R207). -/
def Obligations.StepKeepsTheShape : Prop :=
  ∀ s t : State, s.Shaped → step s = .next t → t.Shaped

/-- Every step keeps the memory in canonical form and within the populated region (10_state R32, 20_memory
R56). -/
def Obligations.StepKeepsTheMemory : Prop :=
  ∀ s t : State, s.MemOk → step s = .next t → t.MemOk

/-- Every step keeps bits 31:1 of every `IMASK[k]` zero (10_state R28; how a store to them is dropped is log 14)
and every reservation the address of a granule (10_state R31, 20_memory R63). -/
def Obligations.StepKeepsTheCoreRegisters : Prop :=
  ∀ s t : State, s.CoresOk → step s = .next t → t.CoresOk

/-- Every step keeps `FSR` 0, 1 or 2, and not 0 exactly in a FAULTED context (10_state R27, 60_exceptions
R203). -/
def Obligations.StepKeepsTheFaultRegisters : Prop :=
  ∀ s t : State, s.FaultsOk → step s = .next t → t.FaultsOk

/-- Every step keeps `PHASE` and `CMDR` of every context consistent (10_state R24, R25):
a context is only ever at a step of the command its `CMDR` decodes to, in the model's reading of `PHASE`, log 13. -/
def Obligations.StepKeepsThePhases : Prop :=
  ∀ s t : State, s.PhasesOk → step s = .next t → t.PhasesOk

/-- Every step keeps the idle invariant (70 R256): no command ever inherits a reservation. -/
def Obligations.StepKeepsTheIdleInvariant : Prop :=
  ∀ s t : State, s.ResvIdle → step s = .next t → t.ResvIdle

/-- Every step of every agent keeps the reservation's promise (20_memory R70): between an `LL` and its `SC`
the cell still holds what the `LL` returned as long as the reservation holds, and the `SC` cannot fault. -/
def Obligations.StepKeepsReservationsTruthful : Prop :=
  ∀ s t : State, s.ResvLinked → step s = .next t → t.ResvLinked

/-- A FAULTED context stays FAULTED and stays its core's running context, whatever happens (10_state R25 (c),
60_exceptions R203, 70 R255). -/
def Obligations.FaultedIsAbsorbing : Prop :=
  ∀ (s t : State) (k : Nat), (s.running k).phase = .faulted → step s = .next t →
    t.running k = s.running k ∧ t.depth k = s.depth k

/-- A context that is not the running one of its core keeps everything, but for the context that an interrupt
entry creates (60_exceptions R208, R210, R215; 10_state R26). -/
def Obligations.OnlyRunningContextsChange : Prop :=
  ∀ (s t : State) (k l : Nat), step s = .next t → l ≠ s.depth k →
    (l = s.depth k + 1 → ∀ rest, s.schedule ≠ .deliver k :: rest) → t.port k l = s.port k l

/-! ### Memory -/

/-- Little-endian (20_memory R50): bits `8i+7 : 8i` of a value are the byte at `a + i`, on a read and on a
write; a read has no higher bits, a write touches no other byte. -/
def Obligations.MemoryIsLittleEndian : Prop :=
  ∀ (m : Memory) (a : Nat) (w : Width) (v : Word),
    (∀ i j, i < w.bytes → j < 8 →
      (m.read a w).getLsbD (8 * i + j) = (m.get (a + i)).getLsbD j) ∧
    (∀ j, 8 * w.bytes ≤ j → (m.read a w).getLsbD j = false) ∧
    (m.wf = true → ∀ i j, i < w.bytes → j < 8 →
      ((m.write a w v).get (a + i)).getLsbD j = v.getLsbD (8 * i + j)) ∧
    ∀ x, (x < a ∨ a + w.bytes ≤ x) → (m.write a w v).get x = m.get x

/-- Mixed widths (20_memory R51): bit `b` of the word at a 4-aligned address is bit `b mod 8` of the byte at
`a + b div 8` and bit `b mod 16` of the halfword at `a + 2 * (b div 16)`; so setting bit 13 of a word and
setting bit 5 of its second byte leave the same memory. -/
def Obligations.MixedWidthsShareBits : Prop :=
  (∀ (m : Memory) (a b : Nat), a % 4 = 0 → b < 32 →
    (m.read a .word).getLsbD b = (m.read (a + b / 8) .byte).getLsbD (b % 8) ∧
    (m.read a .word).getLsbD b = (m.read (a + 2 * (b / 16)) .half).getLsbD (b % 16)) ∧
  ∀ (m : Memory) (a x : Nat), m.wf = true →
    (m.write a .word (m.read a .word ||| 0x2000#32)).get x =
      (m.write (a + 1) .byte (m.read (a + 1) .byte ||| 0x20#32)).get x

/-- The four memory primitives check alignment first, then the range, and raise `AlignFault` or `BusFault`
instead of the access (20_memory R53, R56; 60_exceptions R205); raising writes `FSR`, `FAR` and `PHASE` of
the executing context and nothing else (R203). -/
def Obligations.AccessesAreChecked : Prop :=
  (∀ (s : State) (a : Word) (w : Width) (v : Word) (kr : Word → State → State)
      (kw : State → State) (kc : Bool → State → State),
    (a.toNat % w.bytes ≠ 0 →
      s.load a w kr = s.raise .align a ∧ s.store a w v kw = s.raise .align a ∧
      s.ll a w kr = s.raise .align a ∧ s.sc a w v kc = s.raise .align a) ∧
    (a.toNat % w.bytes = 0 → ¬ Accessible s.cfg a w →
      s.load a w kr = s.raise .bus a ∧ s.store a w v kw = s.raise .bus a ∧
      s.ll a w kr = s.raise .bus a ∧ s.sc a w v kc = s.raise .bus a)) ∧
  ∀ (s : State) (a : Word), s.me.phase ≠ .idle →
    OnlyContext s (s.raise .align a) ∧ OnlyContext s (s.raise .bus a) ∧
    (s.raise .align a).me = { s.me with fsr := 1#32, far := a, phase := .faulted } ∧
    (s.raise .bus a).me = { s.me with fsr := 2#32, far := a, phase := .faulted }

/-- `LL` (20_memory R64): a load that has passed its checks sets the core's reservation to the granule,
replacing any earlier one, clears no other core's and hands on the value read; a failing check raises the
fault and leaves every reservation as it was. -/
def Obligations.LoadExclusiveReserves : Prop :=
  ∀ (s : State) (a : Word) (w : Width) (k : Word → State → State), s.me.phase ≠ .idle →
    (Accessible s.cfg a w →
      ∃ u, s.ll a w k = k (s.mem.read a.toNat w) u ∧
        OnlyReserves s u a w (some (a &&& 0xFFFFFFFC#32)) ∧ u.me = s.me) ∧
    (¬ Accessible s.cfg a w → OnlyContext s (s.ll a w k) ∧
      (s.ll a w k).me = { s.me with
        fsr := if a.toNat % w.bytes ≠ 0 then 1#32 else 2#32, far := a, phase := .faulted })

/-- `SC` (20_memory R65, R66): a failing check raises the fault; else it stores and answers `true` when the
reservation is on the granule, and stores nothing and answers `false` otherwise; in both of these cases the
core is left without a reservation. -/
def Obligations.StoreConditionalDecides : Prop :=
  ∀ (s : State) (a : Word) (w : Width) (v : Word) (k : Bool → State → State),
    s.me.phase ≠ .idle → s.mem.wf = true →
    (Accessible s.cfg a w → s.resv s.actor = some (a &&& 0xFFFFFFFC#32) →
      ∃ u, s.sc a w v k = k true u ∧ OnlyWrites s u a w v ∧ u.me = s.me ∧
        u.resv s.actor = none) ∧
    (Accessible s.cfg a w → s.resv s.actor ≠ some (a &&& 0xFFFFFFFC#32) →
      ∃ u, s.sc a w v k = k false u ∧ OnlyReleases s u ∧ u.me = s.me ∧
        u.resv s.actor = none) ∧
    (¬ Accessible s.cfg a w → OnlyContext s (s.sc a w v k) ∧
      (s.sc a w v k).me = { s.me with
        fsr := if a.toNat % w.bytes ≠ 0 then 1#32 else 2#32, far := a, phase := .faulted })

/-- A step whose access is not allowed takes the fault (60_exceptions R203, R204; 40_atomic_core R114,
41_bitfield_ops R129): `FSR`, `FAR` and `PHASE` of the context change and nothing else; in particular `ST`,
`R0`, `R1`, `IMASK`, the reservations and the memory stay. -/
def Obligations.FaultsAreTaken : Prop :=
  ∀ (i : Instr) (s : State) (l : Label) (a : Word) (w : Width),
    s.atStep i l → stepAccess s.cfg.backend i.op l s.me = some (a, w) →
    ¬ Accessible s.cfg a w →
    ∃ t, exec i s = .next t ∧ OnlyContext s t ∧
      t.me = { s.me with
        fsr := if a.toNat % w.bytes ≠ 0 then 1#32 else 2#32, far := a, phase := .faulted }

/-! ### Atomic Core and Bit-Field commands -/

/-- The first and the failing second step of a retry-loop command (40_atomic_core R101, R112;
41_bitfield_ops R121), for the eleven Atomic Core and the eighteen mutating Bit-Field commands: `S0` loads
exclusively into `t.old`; at `S1` a lost reservation stores nothing and goes back to `S0` (for `ACAS` when
the comparison holds). -/
def Obligations.RetryLoopStartsAndRetries : Prop :=
  ∀ (i : Instr) (s : State), i.op.isRmw = true → s.cfg.backend = .llsc →
    Accessible s.cfg s.me.a0 i.op.cellWidth →
    (s.atStep i .s0 →
      ∃ t, exec i s = .next t ∧
        OnlyReserves s t s.me.a0 i.op.cellWidth (some (granule s.me.a0)) ∧
        t.me = { s.me with
          phase := .at i.op .s1,
          tmp := { s.me.tmp with old := s.mem.read s.me.a0.toNat i.op.cellWidth } }) ∧
    (s.atStep i .s1 → s.resv s.actor ≠ some (granule s.me.a0) →
      (i = .acas → s.me.tmp.old = s.me.a1) →
      ∃ t, exec i s = .next t ∧ OnlyReleases s t ∧ t.me = { s.me with phase := .at i.op .s0 })

/-- The committing step of the Atomic Core commands of 40_atomic_core R102 to R111: the cell takes the
rule's value, `R0` the old value where the rule returns it, `ST` is `OK`; nothing else changes but the
reservations on the granule. -/
def Obligations.AtomicCommandsCommit : Prop :=
  ∀ r ∈ atomicRules, ∀ s : State,
    s.cfg.backend = .llsc → s.mem.wf = true → s.atStep r.instr .s1 →
    Accessible s.cfg s.me.a0 .word → s.resv s.actor = some (granule s.me.a0) →
    ∃ t, exec r.instr s = .next t ∧
      OnlyWrites s t s.me.a0 .word (r.new s.me.tmp.old s.me.a1) ∧
      Completed t { s.me with
        r0 := if r.returnsOld = true then s.me.tmp.old else s.me.r0, st := 0#32 }

/-- `ACAS` at `S1` (40_atomic_core R112): a mismatch releases the reservation, stores nothing, updates `A1`
and returns 0; a match whose reservation holds stores `A2` and returns 1. -/
def Obligations.CompareExchangeDecides : Prop :=
  ∀ s : State, s.cfg.backend = .llsc → s.mem.wf = true → s.atStep .acas .s1 →
    (s.me.tmp.old ≠ s.me.a1 →
      ∃ t, exec .acas s = .next t ∧ OnlyReleases s t ∧
        Completed t { s.me with a1 := s.me.tmp.old, r0 := 0#32, st := 0#32 }) ∧
    (s.me.tmp.old = s.me.a1 → Accessible s.cfg s.me.a0 .word →
      s.resv s.actor = some (granule s.me.a0) →
      ∃ t, exec .acas s = .next t ∧ OnlyWrites s t s.me.a0 .word s.me.a2 ∧
        Completed t { s.me with r0 := 1#32, st := 0#32 })

/-- The committing step of the mutating Bit-Field commands (41_bitfield_ops R120 to R128), at every width
and every bit: the named bit changes as the operation says, every other bit of the cell and every other
byte stays; the combined forms return the prior bit in `R0`. -/
def Obligations.BitfieldCommandsCommit : Prop :=
  ∀ (o : BitOp) (w : Width) (b : BitVec 5) (s : State),
    o ≠ .test → b.toNat < w.bits → s.cfg.backend = .llsc → s.mem.wf = true →
    s.atStep (Instr.ofBit o w b) .s1 → Accessible s.cfg s.me.a0 w →
    s.resv s.actor = some (granule s.me.a0) →
    ∃ t v, exec (Instr.ofBit o w b) s = .next t ∧ OnlyWrites s t s.me.a0 w v ∧
      (∀ j, j < w.bits → (t.mem.read s.me.a0.toNat w).getLsbD j =
        if j = b.toNat then o.onBit (s.me.tmp.old.getLsbD j) else s.me.tmp.old.getLsbD j) ∧
      Completed t { s.me with
        r0 := if o.returnsBit = true then
            (if s.me.tmp.old.getLsbD b.toNat = true then 1#32 else 0#32) else s.me.r0,
        st := 0#32 }

/-- `BTST` (41_bitfield_ops R125; under `IRQMASK` 40_atomic_core R113), at every width and bit: one step,
nothing stored, `R0` the bit; the core is left without a reservation (under `IRQMASK` reservations are not
touched; that `BTST` then runs at `S0` is the model's reading, log 9). -/
def Obligations.BitTestReads : Prop :=
  ∀ (w : Width) (b : BitVec 5) (s : State), b.toNat < w.bits →
    s.atStep (Instr.ofBit .test w b) .s0 → Accessible s.cfg s.me.a0 w →
    ∃ t, exec (Instr.ofBit .test w b) s = .next t ∧
      (s.cfg.backend = .llsc → OnlyReserves s t s.me.a0 w none) ∧
      (s.cfg.backend = .irqmask → OnlyReads s t s.me.a0 w) ∧
      Completed t { s.me with
        r0 := if (s.mem.read s.me.a0.toNat w).getLsbD b.toNat = true then 1#32 else 0#32,
        st := 0#32 }

/-- The commit is indivisible (20_memory R60 (a), R70; 40_atomic_core R100, R101, R112 (b); 41_bitfield_ops
R121), under `LLSC`, the configuration of this hardware (00_scope R3). For each command: when it completes, what
it read, compared or changed is what the cell holds at that very step.

The ten commands of 40_atomic_core R102 to R111: the new value of the cell is the rule's value of what the cell
held just before, and that is the value returned. `ACAS`: on success the cell just before held the expected
value `A1`, and holds `A2` after; on a mismatch the command is a read of the cell and no more: the value it
compares and returns in `A1` is the one the cell held at its `LL` (the `S0` clause), also at the last step as
long as the reservation holds. The eighteen mutating Bit-Field commands: every bit of the cell but the named one is
what it was just before, the named one is what the operation makes of it, and that is the bit returned. -/
def Obligations.AtomicCommitIsIndivisible : Prop :=
  (∀ r ∈ atomicRules, ∀ s t : State,
    s.ResvLinked → s.cfg.backend = .llsc → s.mem.wf = true → s.atStep r.instr .s1 →
    exec r.instr s = .next t → t.me.phase = .idle →
    t.mem.read s.me.a0.toNat .word = r.new (s.mem.read s.me.a0.toNat .word) s.me.a1 ∧
    (r.returnsOld = true → t.me.r0 = s.mem.read s.me.a0.toNat .word)) ∧
  (∀ s t : State,
    s.ResvLinked → s.cfg.backend = .llsc → s.mem.wf = true → s.atStep .acas .s1 →
    exec .acas s = .next t → t.me.phase = .idle →
    (s.me.tmp.old = s.me.a1 →
      s.mem.read s.me.a0.toNat .word = s.me.a1 ∧ t.mem.read s.me.a0.toNat .word = s.me.a2 ∧
      t.me.r0 = 1#32 ∧ t.me.a1 = s.me.a1) ∧
    (s.me.tmp.old ≠ s.me.a1 →
      SameBytes s t ∧ t.me.r0 = 0#32 ∧ t.me.a1 = s.me.tmp.old ∧
      (s.resv s.actor = some (granule s.me.a0) →
        s.mem.read s.me.a0.toNat .word ≠ s.me.a1 ∧
        t.me.a1 = s.mem.read s.me.a0.toNat .word))) ∧
  (∀ s t : State,
    s.cfg.backend = .llsc → s.atStep .acas .s0 → exec .acas s = .next t →
    t.me.phase ≠ .faulted →
    SameBytes s t ∧ t.me.tmp.old = s.mem.read s.me.a0.toNat .word) ∧
  ∀ (o : BitOp) (w : Width) (b : BitVec 5) (s t : State),
    o ≠ .test → b.toNat < w.bits →
    s.ResvLinked → s.cfg.backend = .llsc → s.mem.wf = true → s.atStep (Instr.ofBit o w b) .s1 →
    exec (Instr.ofBit o w b) s = .next t → t.me.phase = .idle →
    (∀ j, j < w.bits → (t.mem.read s.me.a0.toNat w).getLsbD j =
      if j = b.toNat then o.onBit ((s.mem.read s.me.a0.toNat w).getLsbD j)
      else (s.mem.read s.me.a0.toNat w).getLsbD j) ∧
    (o.returnsBit = true → t.me.r0 =
      if (s.mem.read s.me.a0.toNat w).getLsbD b.toNat = true then 1#32 else 0#32)

/-- Alone on the machine an Atomic Core command takes two micro-steps (40_atomic_core R101 to R111): the cell
goes from its value to the rule's, `R0` and `ST` are as the rule says, and nothing else changes but the
reservations. -/
def Obligations.AtomicCommandAlone : Prop :=
  ∀ r ∈ atomicRules, ∀ s : State,
    s.cfg.backend = .llsc → s.mem.wf = true → s.atStep r.instr .s0 →
    Accessible s.cfg s.me.a0 .word →
    ∃ t, alone r.instr 2 s = .next t ∧ SameElse s t ∧
      StoredCell s t s.me.a0 .word (r.new (s.mem.read s.me.a0.toNat .word) s.me.a1) ∧
      t.nest = s.nest ∧ SameMasks s t ∧
      (∀ k, t.resv k =
        if k = s.actor ∨ s.resv k = some (granule s.me.a0) then none else s.resv k) ∧
      Completed t { s.me with
        r0 := if r.returnsOld = true then s.mem.read s.me.a0.toNat .word else s.me.r0,
        st := 0#32 }

/-- Alone on the machine `ACAS` succeeds iff the cell holds the expected value, and on failure updates `A1`
to the true current value (40_atomic_core R112 (e)). -/
def Obligations.CompareExchangeAlone : Prop :=
  ∀ s : State, s.cfg.backend = .llsc → s.mem.wf = true → s.atStep .acas .s0 →
    Accessible s.cfg s.me.a0 .word →
    ∃ t, alone .acas 2 s = .next t ∧ SameElse s t ∧ t.nest = s.nest ∧ SameMasks s t ∧
      (s.mem.read s.me.a0.toNat .word = s.me.a1 →
        StoredCell s t s.me.a0 .word s.me.a2 ∧
        Completed t { s.me with r0 := 1#32, st := 0#32 }) ∧
      (s.mem.read s.me.a0.toNat .word ≠ s.me.a1 →
        SameBytes s t ∧
        Completed t { s.me with
          a1 := s.mem.read s.me.a0.toNat .word, r0 := 0#32, st := 0#32 })

/-- Under `IRQMASK` (40_atomic_core R113, 41_bitfield_ops R130) the retry-loop commands first mask
interrupts, keeping the snapshot, then read the cell; no reservation is used. -/
def Obligations.MaskedCommandsMaskAndRead : Prop :=
  ∀ (i : Instr) (s : State), i.op.isRmw = true → s.cfg.backend = .irqmask →
    (s.atStep i .s0 →
      ∃ t, exec i s = .next t ∧ OnlyMasks s t 1#32 ∧
        t.me = { s.me with
          phase := .at i.op .s1, tmp := { s.me.tmp with snap := s.imask s.actor } }) ∧
    (s.atStep i .s1 → Accessible s.cfg s.me.a0 i.op.cellWidth →
      ∃ t, exec i s = .next t ∧ OnlyReads s t s.me.a0 i.op.cellWidth ∧
        t.me = { s.me with
          phase := .at i.op .s2,
          tmp := { s.me.tmp with old := s.mem.read s.me.a0.toNat i.op.cellWidth } })

/-- Under `IRQMASK` the commands of 40_atomic_core R102 to R111 and the mutating Bit-Field commands then store
the rule's value with a plain write, and last restore the mask and write the results (R113; 41_bitfield_ops
R130). -/
def Obligations.MaskedCommandsWriteAndRestore : Prop :=
  (∀ r ∈ atomicRules, ∀ s : State, s.cfg.backend = .irqmask → s.mem.wf = true →
    (s.atStep r.instr .s2 → Accessible s.cfg s.me.a0 .word →
      ∃ t, exec r.instr s = .next t ∧
        OnlyWrites s t s.me.a0 .word (r.new s.me.tmp.old s.me.a1) ∧
        t.me = { s.me with phase := .at r.instr.op .s3 }) ∧
    (s.atStep r.instr .s3 →
      ∃ t, exec r.instr s = .next t ∧ OnlyMasks s t (s.me.tmp.snap &&& 1#32) ∧
        Completed t { s.me with
          r0 := if r.returnsOld = true then s.me.tmp.old else s.me.r0, st := 0#32 })) ∧
  ∀ (o : BitOp) (w : Width) (b : BitVec 5) (s : State),
    o ≠ .test → b.toNat < w.bits → s.cfg.backend = .irqmask → s.mem.wf = true →
    (s.atStep (Instr.ofBit o w b) .s2 → Accessible s.cfg s.me.a0 w →
      ∃ t v, exec (Instr.ofBit o w b) s = .next t ∧ OnlyWrites s t s.me.a0 w v ∧
        (∀ j, j < w.bits → (t.mem.read s.me.a0.toNat w).getLsbD j =
          if j = b.toNat then o.onBit (s.me.tmp.old.getLsbD j) else s.me.tmp.old.getLsbD j) ∧
        t.me = { s.me with phase := .at (.bit o w) .s3 }) ∧
    (s.atStep (Instr.ofBit o w b) .s3 →
      ∃ t, exec (Instr.ofBit o w b) s = .next t ∧ OnlyMasks s t (s.me.tmp.snap &&& 1#32) ∧
        Completed t { s.me with
          r0 := if o.returnsBit = true then
              (if s.me.tmp.old.getLsbD b.toNat = true then 1#32 else 0#32) else s.me.r0,
          st := 0#32 })

/-- Under `IRQMASK` `ACAS`, alone on its core, runs in four micro-steps with the result of R112
(40_atomic_core R112, R113): it succeeds iff the cell holds the expected value. The four steps, with the outcome
kept between them, are the model's reading, log 9. -/
def Obligations.MaskedCompareExchangeAlone : Prop :=
  ∀ s : State, s.cfg.backend = .irqmask → s.mem.wf = true → s.atStep .acas .s0 →
    Accessible s.cfg s.me.a0 .word →
    ∃ t, alone .acas 4 s = .next t ∧ SameElse s t ∧ t.nest = s.nest ∧ SameMasks s t ∧
      (s.mem.read s.me.a0.toNat .word = s.me.a1 →
        StoredCell s t s.me.a0 .word s.me.a2 ∧ ResvBroken s t s.me.a0 ∧
        Completed t { s.me with r0 := 1#32, st := 0#32 }) ∧
      (s.mem.read s.me.a0.toNat .word ≠ s.me.a1 →
        SameBytes s t ∧ SameResv s t ∧
        Completed t { s.me with
          a1 := s.mem.read s.me.a0.toNat .word, r0 := 0#32, st := 0#32 })

/-! ### IRQ lock, critical section, nesting counter -/

/-- The commands of 43_irq_lock that take one step, with their words. `IRQLOCK` and `CSENTER` (R171, R173, R175): `R0` takes the
prior mask, the acting core is masked, no other core is touched. `IRQUNLOCK` and `CSEXIT` (R172, R174, R176):
the acting core's mask takes bit 0 of `A0`; `R0` and `R1` stay. `ININT` (R179): `R0` is 1 when `NEST` is not
0, else 0. -/
def Obligations.OneStepLockCommands : Prop :=
  (decodeWord 0x00000040#32 = .ok .irqlock ∧ decodeWord 0x00000041#32 = .ok .irqunlock ∧
    decodeWord 0x00000042#32 = .ok .csenter ∧ decodeWord 0x00000043#32 = .ok .csexit ∧
    decodeWord 0x00000046#32 = .ok .inint) ∧
  ∀ s : State,
    (∀ i ∈ [Instr.irqlock, Instr.csenter], s.atStep i .s0 →
      ∃ t, exec i s = .next t ∧ OnlyMasks s t 1#32 ∧
        Completed t { s.me with r0 := s.imask s.actor, st := 0#32 }) ∧
    (∀ i ∈ [Instr.irqunlock, Instr.csexit], s.atStep i .s0 →
      ∃ t, exec i s = .next t ∧ OnlyMasks s t (s.me.a0 &&& 1#32) ∧
        Completed t { s.me with st := 0#32 }) ∧
    (s.atStep .inint .s0 →
      ∃ t, exec .inint s = .next t ∧ OnlyContext s t ∧
        Completed t { s.me with r0 := if s.nest = 0#32 then 0#32 else 1#32, st := 0#32 })

/-- The words and the four steps of `INTENTER` and `INTLEAVE` (43_irq_lock R177, R178): mask, read `NEST`, write it one
larger or one smaller modulo `2^32`, restore the mask. -/
def Obligations.NestingCounterSteps : Prop :=
  (decodeWord 0x00000044#32 = .ok .intenter ∧ decodeWord 0x00000045#32 = .ok .intleave) ∧
  ∀ p ∈ [(Instr.intenter, 1#32), (Instr.intleave, 0xFFFFFFFF#32)], ∀ s : State,
    (s.atStep p.1 .s0 →
      ∃ t, exec p.1 s = .next t ∧ OnlyMasks s t 1#32 ∧
        t.me = { s.me with
          phase := .at p.1.op .s1, tmp := { s.me.tmp with snap := s.imask s.actor } }) ∧
    (s.atStep p.1 .s1 →
      ∃ t, exec p.1 s = .next t ∧ OnlyContext s t ∧
        t.me = { s.me with phase := .at p.1.op .s2, tmp := { s.me.tmp with nest := s.nest } }) ∧
    (s.atStep p.1 .s2 →
      ∃ t, exec p.1 s = .next t ∧ OnlyCounts s t (s.me.tmp.nest + p.2) ∧
        t.me = { s.me with phase := .at p.1.op .s3 }) ∧
    (s.atStep p.1 .s3 →
      ∃ t, exec p.1 s = .next t ∧ OnlyMasks s t (s.me.tmp.snap &&& 1#32) ∧
        Completed t { s.me with st := 0#32 })

/-- Nesting by snapshots (43_irq_lock R180): of two nested acquires the inner snapshot is 1; releasing in
reverse order leaves the core masked, then as it was; no other core's mask ever changes. -/
def Obligations.SnapshotsNest : Prop :=
  ∀ s : State, s.me.phase ≠ .idle →
    s.acquire.me.tmp.snap = s.imask s.actor ∧
    s.acquire.acquire.me.tmp.snap = 1#32 ∧
    MaskIs s (s.acquire.acquire.release 1#32) 1#32 ∧
    SameMasks s ((s.acquire.acquire.release 1#32).release (s.imask s.actor))

/-! ### Spinlock -/

/-- The way in of `SPLOCK` and `SPTRY` (44_spinlock R192, R193): mask, `LL`, `SC` of 1 on a free lock whose
reservation holds, barrier, snapshot into the record; `SPTRY` also returns 1. -/
def Obligations.SpinlockAcquires : Prop :=
  ∀ i ∈ [Instr.splock, Instr.sptry], ∀ s : State, s.mem.wf = true →
    (s.atStep i .s0 →
      ∃ t, exec i s = .next t ∧ OnlyMasks s t 1#32 ∧
        t.me = { s.me with
          phase := .at i.op .s1, tmp := { s.me.tmp with snap := s.imask s.actor } }) ∧
    (s.atStep i .s1 → Accessible s.cfg s.me.a0 .word →
      ∃ t, exec i s = .next t ∧ OnlyReserves s t s.me.a0 .word (some (granule s.me.a0)) ∧
        t.me = { s.me with
          phase := .at i.op .s2,
          tmp := { s.me.tmp with old := s.mem.read s.me.a0.toNat .word } }) ∧
    (s.atStep i .s2 → s.me.tmp.old = 0#32 → Accessible s.cfg s.me.a0 .word →
      s.resv s.actor = some (granule s.me.a0) →
      ∃ t, exec i s = .next t ∧ OnlyWrites s t s.me.a0 .word 1#32 ∧
        t.me = { s.me with phase := .at i.op .s3 }) ∧
    (s.atStep i .s3 →
      ∃ t, exec i s = .next t ∧ OnlyFences s t ∧ t.me = { s.me with phase := .at i.op .s4 }) ∧
    (s.atStep i .s4 → Accessible s.cfg (s.me.a0 + 4#32) .word →
      ∃ t, exec i s = .next t ∧ OnlyWrites s t (s.me.a0 + 4#32) .word s.me.tmp.snap ∧
        Completed t { s.me with r0 := if i = .sptry then 1#32 else s.me.r0, st := 0#32 })

/-- The way back (44_spinlock R192, R193): a held lock or a lost reservation gives up the reservation and
stores nothing; `SPLOCK` spins at `S1`, `SPTRY` goes to `S5`, where it restores the mask, returns 0 and
`EBUSY` (16). -/
def Obligations.SpinlockBusyPaths : Prop :=
  (∀ p ∈ [(Instr.splock, Label.s1), (Instr.sptry, Label.s5)], ∀ s : State, s.atStep p.1 .s2 →
    (s.me.tmp.old ≠ 0#32 ∨
      (Accessible s.cfg s.me.a0 .word ∧ s.resv s.actor ≠ some (granule s.me.a0))) →
    ∃ t, exec p.1 s = .next t ∧ OnlyReleases s t ∧ t.me = { s.me with phase := .at p.1.op p.2 }) ∧
  ∀ s : State, s.atStep .sptry .s5 →
    ∃ t, exec .sptry s = .next t ∧ OnlyMasks s t (s.me.tmp.snap &&& 1#32) ∧
      Completed t { s.me with r0 := 0#32, st := 16#32 }

/-- `SPINIT` (44_spinlock R191): the lock word, then the saved state, become 0. `SPUNLOCK` (R194): read the
saved state, barrier, free the lock word, restore the mask. -/
def Obligations.SpinlockInitAndUnlock : Prop :=
  ∀ s : State, s.mem.wf = true →
    (s.atStep .spinit .s0 → Accessible s.cfg s.me.a0 .word →
      ∃ t, exec .spinit s = .next t ∧ OnlyWrites s t s.me.a0 .word 0#32 ∧
        t.me = { s.me with phase := .at .spinit .s1 }) ∧
    (s.atStep .spinit .s1 → Accessible s.cfg (s.me.a0 + 4#32) .word →
      ∃ t, exec .spinit s = .next t ∧ OnlyWrites s t (s.me.a0 + 4#32) .word 0#32 ∧
        Completed t { s.me with st := 0#32 }) ∧
    (s.atStep .spunlock .s0 → Accessible s.cfg (s.me.a0 + 4#32) .word →
      ∃ t, exec .spunlock s = .next t ∧ OnlyReads s t (s.me.a0 + 4#32) .word ∧
        t.me = { s.me with
          phase := .at .spunlock .s1,
          tmp := { s.me.tmp with snap := s.mem.read (s.me.a0 + 4#32).toNat .word } }) ∧
    (s.atStep .spunlock .s1 →
      ∃ t, exec .spunlock s = .next t ∧ OnlyFences s t ∧
        t.me = { s.me with phase := .at .spunlock .s2 }) ∧
    (s.atStep .spunlock .s2 → Accessible s.cfg s.me.a0 .word →
      ∃ t, exec .spunlock s = .next t ∧ OnlyWrites s t s.me.a0 .word 0#32 ∧
        t.me = { s.me with phase := .at .spunlock .s3 }) ∧
    (s.atStep .spunlock .s3 →
      ∃ t, exec .spunlock s = .next t ∧ OnlyMasks s t (s.me.tmp.snap &&& 1#32) ∧
        Completed t { s.me with st := 0#32 })

/-- A lock is taken only when it is free, and taking it is one indivisible step (44_spinlock R190, R195;
20_memory R70). -/
def Obligations.SpinlockIsTakenOnlyWhenFree : Prop :=
  ∀ i ∈ [Instr.splock, Instr.sptry], ∀ s t : State,
    s.ResvLinked → s.mem.wf = true → s.atStep i .s2 → exec i s = .next t →
    t.me.phase = .at i.op .s3 →
    s.mem.read s.me.a0.toNat .word = 0#32 ∧ t.mem.read s.me.a0.toNat .word = 1#32

/-! ### Ring buffer -/

/-- `RINIT` (42_ring_buffer R142). At `S0` a null pointer, a zero element size or a quotient below 2 gives
`EINVAL` (22) and writes nothing; otherwise the capacity is latched, the largest power of two not above
`A2 div A3`. At `S1` to `S5` the five descriptor words are written in order, the last one with `ST = OK`. -/
def Obligations.RingInitValidatesAndWrites : Prop :=
  (∀ s : State, s.atStep .rinit .s0 →
    ∃ t, exec .rinit s = .next t ∧ OnlyContext s t ∧
      ((s.me.a0 = 0#32 ∨ s.me.a1 = 0#32 ∨ s.me.a3 = 0#32 ∨ s.me.a2.toNat / s.me.a3.toNat < 2) →
        Completed t { s.me with st := 22#32 }) ∧
      (s.me.a0 ≠ 0#32 → s.me.a1 ≠ 0#32 → s.me.a3 ≠ 0#32 → 2 ≤ s.me.a2.toNat / s.me.a3.toNat →
        t.me = { s.me with
          phase := .at .rinit .s1, tmp := { s.me.tmp with cap := t.me.tmp.cap } } ∧
        ∃ j, 1 ≤ j ∧ t.me.tmp.cap.toNat = 2 ^ j ∧ 2 ^ j ≤ s.me.a2.toNat / s.me.a3.toNat ∧
          s.me.a2.toNat / s.me.a3.toNat < 2 ^ (j + 1))) ∧
  ∀ s : State, s.mem.wf = true →
    (∀ p ∈ [(Label.s1, 0#32, 0#32, Label.s2), (Label.s2, 4#32, 0#32, Label.s3),
        (Label.s3, 8#32, s.me.tmp.cap - 1#32, Label.s4), (Label.s4, 12#32, s.me.a3, Label.s5)],
      s.atStep .rinit p.1 → Accessible s.cfg (s.me.a0 + p.2.1) .word →
      ∃ t, exec .rinit s = .next t ∧ OnlyWrites s t (s.me.a0 + p.2.1) .word p.2.2.1 ∧
        t.me = { s.me with phase := .at .rinit p.2.2.2 }) ∧
    (s.atStep .rinit .s5 → Accessible s.cfg (s.me.a0 + 16#32) .word →
      ∃ t, exec .rinit s = .next t ∧ OnlyWrites s t (s.me.a0 + 16#32) .word s.me.a1 ∧
        Completed t { s.me with st := 0#32 })

/-- The capacity law (42_ring_buffer R143): for `B div E >= 2` the capacity is the largest power of two not
above `B div E`, at least 2, and the storage `cap * E` lies inside the buffer. -/
def Obligations.CapacityLaw : Prop :=
  ∀ B E : Word, 2 ≤ B.toNat / E.toNat →
    (∃ j, (floorPow2 (divWord B E)).toNat = 2 ^ j) ∧
    2 ≤ (floorPow2 (divWord B E)).toNat ∧
    (floorPow2 (divWord B E)).toNat ≤ B.toNat / E.toNat ∧
    B.toNat / E.toNat < 2 * (floorPow2 (divWord B E)).toNat ∧
    (floorPow2 (divWord B E)).toNat * E.toNat ≤ B.toNat

/-- `LOADDESC` (42_ring_buffer R144, R146 to R148, R152, R153) in the five commands that begin with it: five
reads in the fixed order, each latched; after the last one the transfer is bounded by the request, by the
unused capacity or the used count, and by the distance to the end of the storage. -/
def Obligations.DescriptorIsLoaded : Prop :=
  ∀ i ∈ loadsDescriptor, ∀ (s : State) (l : Label) (a : Word),
    s.atStep i l → descriptorWord l s.me = some a → Accessible s.cfg a .word →
    ∃ t, exec i s = .next t ∧ OnlyReads s t a .word ∧
      (l = .s0 → t.me = { s.me with
        phase := .at i.op .s1, tmp := { s.me.tmp with mask := s.mem.read a.toNat .word } }) ∧
      (l = .s1 → t.me = { s.me with
        phase := .at i.op .s2, tmp := { s.me.tmp with inIdx := s.mem.read a.toNat .word } }) ∧
      (l = .s2 → t.me = { s.me with
        phase := .at i.op .s3, tmp := { s.me.tmp with outIdx := s.mem.read a.toNat .word } }) ∧
      (l = .s3 → t.me = { s.me with
        phase := .at i.op .s4, tmp := { s.me.tmp with esz := s.mem.read a.toNat .word } }) ∧
      (l = .s4 → t.me = { s.me with
          phase := .at i.op .s5,
          tmp := { s.me.tmp with
            data := s.mem.read a.toNat .word, off := transferStart i s.me.tmp, i := 0#32,
            n := t.me.tmp.n, l := t.me.tmp.l } } ∧
        IsMinOf t.me.tmp.n s.me.a2 (transferBound i s.me.tmp) ∧
        IsMinOf t.me.tmp.l t.me.tmp.n (s.me.tmp.mask + 1#32 - transferStart i s.me.tmp))

/-- One copy step (42_ring_buffer R145): while bytes are left, one byte goes from the caller's buffer to the
ring (a producer) or from the ring to the caller's buffer, as one step, and `t.i` counts it; an address out
of range raises `BusFault` there, and nothing is stored. That the read stays in the history when the write faults is
the model's choice, log 7. -/
def Obligations.CopyMovesOneByte : Prop :=
  ∀ i ∈ loadsDescriptor, ∀ (s : State) (src dst : Word),
    s.atStep i .s5 → s.me.tmp.i < s.me.tmp.n * s.me.tmp.esz → s.mem.wf = true →
    (if isProducer i then
      src = s.me.a1 + s.me.tmp.i ∧ dst = ringByte s.me.tmp s.me.tmp.i.toNat
    else src = ringByte s.me.tmp s.me.tmp.i.toNat ∧ dst = s.me.a1 + s.me.tmp.i) →
    ∃ t, exec i s = .next t ∧ SameElse s t ∧ t.nest = s.nest ∧ SameMasks s t ∧
      (Accessible s.cfg src .byte → Accessible s.cfg dst .byte →
        StoredCell s t dst .byte (s.mem.read src.toNat .byte) ∧ ResvBroken s t dst ∧
        Logs s t [.write dst .byte (s.mem.read src.toNat .byte),
          .read src .byte (s.mem.read src.toNat .byte)] ∧
        t.me = { s.me with tmp := { s.me.tmp with i := s.me.tmp.i + 1#32 } }) ∧
      (¬ Accessible s.cfg src .byte →
        SameBytes s t ∧ SameResv s t ∧ Logs s t [] ∧
        t.me = { s.me with fsr := 2#32, far := src, phase := .faulted }) ∧
      (Accessible s.cfg src .byte → ¬ Accessible s.cfg dst .byte →
        SameBytes s t ∧ SameResv s t ∧
        Logs s t [.read src .byte (s.mem.read src.toNat .byte)] ∧
        t.me = { s.me with fsr := 2#32, far := dst, phase := .faulted })

/-- The end of a transfer (42_ring_buffer R146 to R148, R151, R158): when no byte is left a producer or
consumer passes its barrier, then publishes the latched index plus the count in one word store with
`R0 = t.n` and `ST = OK`, and completes (a locked command goes to `LZ`); a peek completes at once and
stores nothing. -/
def Obligations.TransferEndsWithBarrierAndPublish : Prop :=
  (∀ i ∈ loadsDescriptor, ∀ s : State, s.atStep i .s5 →
    ¬ s.me.tmp.i < s.me.tmp.n * s.me.tmp.esz →
    ∃ t, exec i s = .next t ∧ OnlyContext s t ∧
      (i ≠ .rpeek → t.me = { s.me with phase := .at i.op .s6 }) ∧
      (i = .rpeek → Completed t { s.me with r0 := s.me.tmp.n, st := 0#32 })) ∧
  ∀ i ∈ [Instr.rprod, Instr.rcons, Instr.rprodl, Instr.rconsl], ∀ s : State, s.mem.wf = true →
    (s.atStep i .s6 →
      ∃ t, exec i s = .next t ∧ OnlyFences s t ∧ t.me = { s.me with phase := .at i.op .s7 }) ∧
    (∀ a v, (if isProducer i then a = s.me.a0 ∧ v = s.me.tmp.inIdx + s.me.tmp.n
        else a = s.me.a0 + 4#32 ∧ v = s.me.tmp.outIdx + s.me.tmp.n) →
      s.atStep i .s7 → Accessible s.cfg a .word →
      ∃ t, exec i s = .next t ∧ OnlyWrites s t a .word v ∧
        ((i = .rprod ∨ i = .rcons) → Completed t { s.me with r0 := s.me.tmp.n, st := 0#32 }) ∧
        ((i = .rprodl ∨ i = .rconsl) →
          t.me = { s.me with r0 := s.me.tmp.n, st := 0#32, phase := .at i.op .lz }))

/-- The locked wrapper (42_ring_buffer R151 to R154): `L0` masks and keeps the snapshot, `LZ` restores the
mask and completes; `R0`, `R1` and `ST` stay as the inner command wrote them. -/
def Obligations.LockedRingCommandsWrap : Prop :=
  ∀ i ∈ [Instr.rprodl, Instr.rconsl, Instr.rlinl], ∀ s : State,
    (s.atStep i .l0 →
      ∃ t, exec i s = .next t ∧ OnlyMasks s t 1#32 ∧
        t.me = { s.me with
          phase := .at i.op .s0, tmp := { s.me.tmp with snap := s.imask s.actor } }) ∧
    (s.atStep i .lz →
      ∃ t, exec i s = .next t ∧ OnlyMasks s t (s.me.tmp.snap &&& 1#32) ∧ Completed t s.me)

/-- `RLIN` and `RLINL` (42_ring_buffer R149, R154): three reads; then `R0` is the minimum of the request, the
used count and the distance to the end, `R1` the starting slot, `ST` is `OK`; nothing is written. -/
def Obligations.LinearExtentReports : Prop :=
  ∀ i ∈ [Instr.rlin, Instr.rlinl], ∀ s : State,
    (s.atStep i .s0 → Accessible s.cfg (s.me.a0 + 8#32) .word →
      ∃ t, exec i s = .next t ∧ OnlyReads s t (s.me.a0 + 8#32) .word ∧
        t.me = { s.me with
          phase := .at i.op .s1,
          tmp := { s.me.tmp with mask := s.mem.read (s.me.a0 + 8#32).toNat .word } }) ∧
    (s.atStep i .s1 → Accessible s.cfg s.me.a0 .word →
      ∃ t, exec i s = .next t ∧ OnlyReads s t s.me.a0 .word ∧
        t.me = { s.me with
          phase := .at i.op .s2,
          tmp := { s.me.tmp with inIdx := s.mem.read s.me.a0.toNat .word } }) ∧
    (∀ out : Word, s.atStep i .s2 → Accessible s.cfg (s.me.a0 + 4#32) .word →
      out = s.mem.read (s.me.a0 + 4#32).toNat .word →
      ∃ t r, exec i s = .next t ∧ OnlyReads s t (s.me.a0 + 4#32) .word ∧
        r.toNat = min (min s.me.a1.toNat (s.me.tmp.inIdx - out).toNat)
          (s.me.tmp.mask + 1#32 - (out &&& s.me.tmp.mask)).toNat ∧
        (i = .rlin →
          Completed t { s.me with r0 := r, r1 := out &&& s.me.tmp.mask, st := 0#32 }) ∧
        (i = .rlinl → t.me = { s.me with
          r0 := r, r1 := out &&& s.me.tmp.mask, st := 0#32, phase := .at .rlinl .lz,
          tmp := { s.me.tmp with outIdx := out, off := out &&& s.me.tmp.mask } }))

/-- `RSKIP` (42_ring_buffer R150): read `consumer_index`, barrier, store it plus `A1` modulo `2^32`, with no
bound; `R0` and `R1` stay. -/
def Obligations.SkipAdvancesTheConsumer : Prop :=
  ∀ s : State, s.mem.wf = true →
    (s.atStep .rskip .s0 → Accessible s.cfg (s.me.a0 + 4#32) .word →
      ∃ t, exec .rskip s = .next t ∧ OnlyReads s t (s.me.a0 + 4#32) .word ∧
        t.me = { s.me with
          phase := .at .rskip .s1,
          tmp := { s.me.tmp with outIdx := s.mem.read (s.me.a0 + 4#32).toNat .word } }) ∧
    (s.atStep .rskip .s1 →
      ∃ t, exec .rskip s = .next t ∧ OnlyFences s t ∧
        t.me = { s.me with phase := .at .rskip .s2 }) ∧
    (s.atStep .rskip .s2 → Accessible s.cfg (s.me.a0 + 4#32) .word →
      ∃ t, exec .rskip s = .next t ∧
        OnlyWrites s t (s.me.a0 + 4#32) .word (s.me.tmp.outIdx + s.me.a1) ∧
        Completed t { s.me with st := 0#32 })

/-- Address arithmetic cannot wrap for a descriptor that `RINIT` wrote (42_ring_buffer R160): with a capacity
`2^j`, `cap * esz < 2^32` bytes of storage below `2^32` and a transfer within the bounds of R146 and R147,
every ring address of the transfer lies in the storage, and no two bytes share one. -/
def Obligations.RingAddressesStayInTheStorage : Prop :=
  ∀ (t : Temps) (j : Nat), t.mask.toNat + 1 = 2 ^ j → 2 ^ j * t.esz.toNat < 2 ^ 32 →
    t.data.toNat + 2 ^ j * t.esz.toNat ≤ 2 ^ 32 → t.off.toNat < 2 ^ j → t.n.toNat ≤ 2 ^ j →
    t.l.toNat = min t.n.toNat (2 ^ j - t.off.toNat) →
    (t.n * t.esz).toNat = t.n.toNat * t.esz.toNat ∧
    (∀ i, i < t.n.toNat * t.esz.toNat →
      t.data.toNat ≤ (ringByte t i).toNat ∧
      (ringByte t i).toNat < t.data.toNat + 2 ^ j * t.esz.toNat) ∧
    ∀ i k, i < t.n.toNat * t.esz.toNat → k < t.n.toNat * t.esz.toNat →
      ringByte t i = ringByte t k → i = k

/-- Alone on the machine `RPROD` (42_ring_buffer R144 to R146): with `T` the words and bounds it latches and
`B = t.n * t.esz` bytes, all addresses in range, ring bytes distinct and apart from the source bytes and
from the index word, it takes `B + 8` micro-steps: every byte of the transfer is in its slot,
`producer_index` is advanced by `t.n`, `R0 = t.n`, `ST = OK`, and no other byte changes. -/
def Obligations.ProduceAlone : Prop :=
  ∀ (s : State) (T : Temps) (B : Nat),
    s.mem.wf = true → s.atStep .rprod .s0 →
    (∀ o ∈ [0#32, 4#32, 8#32, 12#32, 16#32], Accessible s.cfg (s.me.a0 + o) .word) →
    T.mask = s.mem.read (s.me.a0 + 8#32).toNat .word →
    T.inIdx = s.mem.read s.me.a0.toNat .word →
    T.outIdx = s.mem.read (s.me.a0 + 4#32).toNat .word →
    T.esz = s.mem.read (s.me.a0 + 12#32).toNat .word →
    T.data = s.mem.read (s.me.a0 + 16#32).toNat .word →
    T.off = transferStart .rprod T → IsMinOf T.n s.me.a2 (transferBound .rprod T) →
    IsMinOf T.l T.n (T.mask + 1#32 - T.off) → B = (T.n * T.esz).toNat →
    (∀ j, j < B → Accessible s.cfg (s.me.a1 + BitVec.ofNat 32 j) .byte ∧
      Accessible s.cfg (ringByte T j) .byte) →
    (∀ j, j < B →
      (ringByte T j).toNat < s.me.a0.toNat ∨ s.me.a0.toNat + 4 ≤ (ringByte T j).toNat) →
    (∀ j k, j < B → k < B → s.me.a1 + BitVec.ofNat 32 j ≠ ringByte T k) →
    (∀ j k, j < B → k < B → ringByte T j = ringByte T k → j = k) →
    ∃ t, alone .rprod (B + 8) s = .next t ∧ SameElse s t ∧ t.nest = s.nest ∧ SameMasks s t ∧
      (∀ j, j < B → t.mem.get (ringByte T j).toNat =
        s.mem.get (s.me.a1 + BitVec.ofNat 32 j).toNat) ∧
      t.mem.read s.me.a0.toNat .word = T.inIdx + T.n ∧
      (∀ x, (∀ j, j < B → x ≠ (ringByte T j).toNat) →
        (x < s.me.a0.toNat ∨ s.me.a0.toNat + 4 ≤ x) → t.mem.get x = s.mem.get x) ∧
      Completed t { s.me with r0 := T.n, st := 0#32 }

/-- Alone on the machine `RCONS` (42_ring_buffer R144, R145, R147): the mirror of `RPROD`: the bytes of the
oldest `t.n` elements are in the caller's buffer in order, `consumer_index` is advanced by `t.n`, and no
other byte changes. -/
def Obligations.ConsumeAlone : Prop :=
  ∀ (s : State) (T : Temps) (B : Nat),
    s.mem.wf = true → s.atStep .rcons .s0 →
    (∀ o ∈ [0#32, 4#32, 8#32, 12#32, 16#32], Accessible s.cfg (s.me.a0 + o) .word) →
    T.mask = s.mem.read (s.me.a0 + 8#32).toNat .word →
    T.inIdx = s.mem.read s.me.a0.toNat .word →
    T.outIdx = s.mem.read (s.me.a0 + 4#32).toNat .word →
    T.esz = s.mem.read (s.me.a0 + 12#32).toNat .word →
    T.data = s.mem.read (s.me.a0 + 16#32).toNat .word →
    T.off = transferStart .rcons T → IsMinOf T.n s.me.a2 (transferBound .rcons T) →
    IsMinOf T.l T.n (T.mask + 1#32 - T.off) → B = (T.n * T.esz).toNat →
    (∀ j, j < B → Accessible s.cfg (s.me.a1 + BitVec.ofNat 32 j) .byte ∧
      Accessible s.cfg (ringByte T j) .byte) →
    (∀ j, j < B →
      (s.me.a1 + BitVec.ofNat 32 j).toNat < (s.me.a0 + 4#32).toNat ∨
      (s.me.a0 + 4#32).toNat + 4 ≤ (s.me.a1 + BitVec.ofNat 32 j).toNat) →
    (∀ j k, j < B → k < B → s.me.a1 + BitVec.ofNat 32 j ≠ ringByte T k) →
    ∃ t, alone .rcons (B + 8) s = .next t ∧ SameElse s t ∧ t.nest = s.nest ∧ SameMasks s t ∧
      (∀ j, j < B → t.mem.get (s.me.a1 + BitVec.ofNat 32 j).toNat =
        s.mem.get (ringByte T j).toNat) ∧
      t.mem.read (s.me.a0 + 4#32).toNat .word = T.outIdx + T.n ∧
      (∀ x, (∀ j, j < B → x ≠ (s.me.a1 + BitVec.ofNat 32 j).toNat) →
        (x < (s.me.a0 + 4#32).toNat ∨ (s.me.a0 + 4#32).toNat + 4 ≤ x) →
        t.mem.get x = s.mem.get x) ∧
      Completed t { s.me with r0 := T.n, st := 0#32 }

/-! ### Environment -/

/-- Interrupt delivery (60_exceptions R207, R208): possible exactly when the core is unmasked, below
`MAXNEST` and not FAULTED; then the depth grows by one, the reservation is gone, the new running context is
idle and unfaulted, and everything else is untouched, the preempted context included. That a delivery that is not
enabled is refused is the model's choice, log 8. -/
def Obligations.InterruptDelivery : Prop :=
  ∀ (s : State) (k : Nat) (rest : List Event),
    s.Shaped → s.schedule = .deliver k :: rest → k < s.cfg.ncore →
    ((s.imask k = 0#32 ∧ s.depth k < s.cfg.maxnest ∧ (s.running k).phase ≠ .faulted) →
      ∃ t, step s = .next t ∧ t.depth k = s.depth k + 1 ∧ t.resv k = none ∧
        (t.running k).phase = .idle ∧ (t.running k).fsr = 0#32 ∧ t.imask k = s.imask k ∧
        (∀ l, l ≠ s.depth k + 1 → t.port k l = s.port k l) ∧
        (∀ j, j ≠ k → t.coreAt j = s.coreAt j) ∧
        t.nest = s.nest ∧ SameBytes s t ∧ t.cfg = s.cfg ∧ t.history = s.history ∧
        t.schedule = rest) ∧
    (¬(s.imask k = 0#32 ∧ s.depth k < s.cfg.maxnest ∧ (s.running k).phase ≠ .faulted) →
      step s = .refused .deliveryNotEnabled)

/-- Interrupt return and monitor loss. Return (60_exceptions R210): possible exactly when a handler runs and
is idle; the depth shrinks by one and the reservation is gone. Monitor loss (20_memory R68): possible
exactly when `MONITOR_LOSS` allows it; the reservation is gone. Nothing else changes in either.
That an event that is not enabled is refused is the model's choice, log 8. -/
def Obligations.InterruptReturnAndMonitorLoss : Prop :=
  ∀ (s : State) (k : Nat) (rest : List Event), s.Shaped → k < s.cfg.ncore →
    (s.schedule = .ret k :: rest →
      ((1 ≤ s.depth k ∧ (s.running k).phase = .idle) →
        ∃ t, step s = .next t ∧ t.depth k = s.depth k - 1 ∧ t.resv k = none ∧
          t.imask k = s.imask k ∧ (∀ l, t.port k l = s.port k l) ∧
          (∀ j, j ≠ k → t.coreAt j = s.coreAt j) ∧ t.nest = s.nest ∧ SameBytes s t ∧
          t.cfg = s.cfg ∧ t.history = s.history ∧ t.schedule = rest) ∧
      (¬(1 ≤ s.depth k ∧ (s.running k).phase = .idle) → step s = .refused .returnNotEnabled)) ∧
    (s.schedule = .lose k :: rest →
      (s.cfg.monitorLoss = .allowed →
        ∃ t, step s = .next t ∧ t.resv k = none ∧ t.depth k = s.depth k ∧
          t.imask k = s.imask k ∧ (∀ l, t.port k l = s.port k l) ∧
          (∀ j, j ≠ k → t.coreAt j = s.coreAt j) ∧ t.nest = s.nest ∧ SameBytes s t ∧
          t.cfg = s.cfg ∧ t.history = s.history ∧ t.schedule = rest) ∧
      (s.cfg.monitorLoss = .never → step s = .refused .lossNotAllowed))

/-- What the host does on an idle running context (10_state R21, R22, R23; 30_encoding R91; 20_memory R66, R74).
Writing `A<n>` puts the value into that argument register and leaves every other register of the context;
copying a result register into `A<n>` does the same with the value `R0`, `R1` or `ST` holds; reading a result
register changes nothing; a memory access that passes its checks reads or stores the cell.

A memory access that fails a check raises the fault on the context it is made for and does nothing else: that it
is `raise` is the model's reading of R74 and 92 D41 ("subject to the same alignment, range ... rules"), log 10.
Copying a result register as one event is the model's choice, log 11. -/
def Obligations.HostEventsActOnTheIdleContext : Prop :=
  ∀ (s : State) (k : Nat) (rest : List Event),
    s.Shaped → s.mem.wf = true → k < s.cfg.ncore → (s.running k).phase = .idle →
    (∀ a v, s.schedule = .setArg k a v :: rest →
      ∃ t, step s = .next t ∧ OnlyContext (s.turnTo k rest) t ∧
        (a = .a0 → t.me = { s.running k with a0 := v }) ∧
        (a = .a1 → t.me = { s.running k with a1 := v }) ∧
        (a = .a2 → t.me = { s.running k with a2 := v }) ∧
        (a = .a3 → t.me = { s.running k with a3 := v })) ∧
    (∀ a r v, s.schedule = .copyArg k a r :: rest →
      (r = .r0 → v = (s.running k).r0) → (r = .r1 → v = (s.running k).r1) →
      (r = .st → v = (s.running k).st) →
      ∃ t, step s = .next t ∧ OnlyContext (s.turnTo k rest) t ∧
        (a = .a0 → t.me = { s.running k with a0 := v }) ∧
        (a = .a1 → t.me = { s.running k with a1 := v }) ∧
        (a = .a2 → t.me = { s.running k with a2 := v }) ∧
        (a = .a3 → t.me = { s.running k with a3 := v })) ∧
    (∀ r, s.schedule = .readPort k r :: rest → step s = .next (s.turnTo k rest)) ∧
    (∀ a w, s.schedule = .hostRead k a w :: rest → Accessible s.cfg a w →
      ∃ t, step s = .next t ∧ OnlyReads (s.turnTo k rest) t a w ∧ t.me = s.running k) ∧
    (∀ a w v, s.schedule = .hostWrite k a w v :: rest → Accessible s.cfg a w →
      ∃ t, step s = .next t ∧ OnlyWrites (s.turnTo k rest) t a w v ∧ t.me = s.running k) ∧
    ∀ a w, ¬ Accessible s.cfg a w →
      (s.schedule = .hostRead k a w :: rest ∨ ∃ v, s.schedule = .hostWrite k a w v :: rest) →
      ∃ t, step s = .next t ∧ OnlyContext (s.turnTo k rest) t ∧
        t.me = { s.running k with
          fsr := if a.toNat % w.bytes ≠ 0 then 1#32 else 2#32, far := a, phase := .faulted }

/-! ### Whole-machine rules -/

/-- What no command changes (10_state R21, R22, R24, R28, R29, R30): configuration, schedule, depths and
every other context; `A0`, `A2`, `A3` and `CMDR` of its own; `A1` unless it is `ACAS`; `R1` unless it is
`RLIN` or `RLINL`; `NEST` unless it is `INTENTER` or `INTLEAVE`; `IMASK` of any other core. -/
def Obligations.CommandsKeepWhatTheyDoNotName : Prop :=
  ∀ (i : Instr) (s t : State), exec i s = .next t →
    SameElse s t ∧ t.me.a0 = s.me.a0 ∧ t.me.a2 = s.me.a2 ∧ t.me.a3 = s.me.a3 ∧
    t.me.cmdr = s.me.cmdr ∧ (i ≠ .acas → t.me.a1 = s.me.a1) ∧
    (i ≠ .rlin → i ≠ .rlinl → t.me.r1 = s.me.r1) ∧
    (i ≠ .intenter → i ≠ .intleave → t.nest = s.nest) ∧
    ∀ k, k ≠ s.actor → t.imask k = s.imask k

/-- What no event but a micro-step changes (10_state R28, R29, R30, R32): `NEST`, every `IMASK[k]`, the
configuration; a byte of memory unless it is a host write; `DEPTH[k]` unless it is a delivery to or a return
on core `k`. -/
def Obligations.EnvironmentKeepsMasksAndCounters : Prop :=
  ∀ (s t : State) (e : Event) (rest : List Event),
    s.schedule = e :: rest → (∀ k, e ≠ .micro k) → step s = .next t →
    t.nest = s.nest ∧ SameMasks s t ∧ t.cfg = s.cfg ∧ t.schedule = rest ∧
    ((∀ k a w v, e ≠ .hostWrite k a w v) → SameBytes s t) ∧
    ∀ k, e ≠ .deliver k → e ≠ .ret k → t.depth k = s.depth k
end

