-- ==== Sys2Proof/Laws/Memory.lean ====
section
/-! SUPPORT. The laws of the memory: read after write, frame, and every operation keeps the canonical
form. -/

namespace Sys2Proof.Machine

@[simp] theorem Memory.get_nil (a : Nat) : Memory.get [] a = Memory.unlisted := rfl

theorem Memory.get_cons (c : Host.Cell) (m : Memory) (a : Nat) :
    Memory.get (c :: m) a = if c.1 = a then c.2 else Memory.get m a := rfl

/-- The canonical form of a longer list, taken apart. -/
theorem Memory.wf_cons {c : Host.Cell} {m : Memory} (h : Memory.wf (c :: m) = true) :
    c.2 ≠ Memory.unlisted ∧ Memory.wf m = true ∧ ∀ d ∈ m, c.1 < d.1 := by
  induction m generalizing c with
  | nil => simpa [Memory.wf] using h
  | cons d m ih =>
    simp only [Memory.wf, Bool.and_eq_true, decide_eq_true_eq] at h
    obtain ⟨_, hw, hall⟩ := ih h.2
    exact ⟨h.1.1, h.2, fun e he => by
      rcases List.mem_cons.mp he with rfl | he
      · exact h.1.2
      · exact h.1.2.trans (hall e he)⟩

/-- The canonical form, put together. -/
theorem Memory.wf_cons_intro {c : Host.Cell} {m : Memory} (hc : c.2 ≠ Memory.unlisted)
    (hm : Memory.wf m = true) (hall : ∀ d ∈ m, c.1 < d.1) : Memory.wf (c :: m) = true := by
  cases m with
  | nil => simpa [Memory.wf] using hc
  | cons d m => simp [Memory.wf, hc, hm, hall d (by simp)]

theorem Memory.get_of_all_gt {m : Memory} {a : Nat} (h : ∀ d ∈ m, a < d.1) :
    m.get a = Memory.unlisted := by
  induction m with
  | nil => rfl
  | cons d m ih =>
    have := h d (by simp)
    rw [Memory.get_cons, if_neg (by omega), ih (fun e he => h e (by simp [he]))]

/-- What a store can add: only the stored address is new. -/
theorem Memory.mem_set {m : Memory} {a : Nat} {v : Byte} {d : Host.Cell} (h : d ∈ m.set a v) :
    d ∈ m ∨ (d = (a, v) ∧ v ≠ Memory.unlisted) := by
  induction m with
  | nil =>
    simp only [Memory.set] at h
    split at h <;> simp_all
  | cons c m ih =>
    simp only [Memory.set] at h
    split_ifs at h <;> simp_all <;> tauto

/-- A store keeps the canonical form. -/
theorem Memory.set_wf {m : Memory} (h : m.wf = true) (a : Nat) (v : Byte) : (m.set a v).wf = true := by
  induction m with
  | nil =>
    simp only [Memory.set]
    split <;> simp_all [Memory.wf]
  | cons c m ih =>
    obtain ⟨hc, hm, hall⟩ := Memory.wf_cons h
    simp only [Memory.set]
    split_ifs with h1 h2 h2 h3
    · exact h
    · exact Memory.wf_cons_intro h2 h (by
        intro d hd
        rcases List.mem_cons.mp hd with rfl | hd
        · exact h1
        · exact h1.trans (hall d hd))
    · exact hm
    · exact Memory.wf_cons_intro h3 hm (fun d hd => h2 ▸ hall d hd)
    · refine Memory.wf_cons_intro hc (ih hm) (fun d hd => ?_)
      rcases Memory.mem_set hd with hd | ⟨rfl, _⟩
      · exact hall d hd
      · show c.1 < a
        omega

/-- A byte reads back as it was stored. -/
theorem Memory.get_set_self {m : Memory} (h : m.wf = true) (a : Nat) (v : Byte) :
    (m.set a v).get a = v := by
  induction m with
  | nil =>
    simp only [Memory.set]
    split <;> simp_all [Memory.get_cons]
  | cons c m ih =>
    obtain ⟨_, hm, hall⟩ := Memory.wf_cons h
    simp only [Memory.set]
    split_ifs with h1 h2 h2 h3
    · rw [Memory.get_of_all_gt, h2]
      intro d hd
      rcases List.mem_cons.mp hd with rfl | hd
      · exact h1
      · exact h1.trans (hall d hd)
    · simp [Memory.get_cons]
    · rw [Memory.get_of_all_gt (fun d hd => h2 ▸ hall d hd), h3]
    · simp [Memory.get_cons]
    · rw [Memory.get_cons, if_neg (by omega), ih hm]

/-- A store leaves every other byte alone; no hypothesis on the memory. -/
theorem Memory.get_set_ne (m : Memory) {a x : Nat} (v : Byte) (h : x ≠ a) :
    (m.set a v).get x = m.get x := by
  induction m with
  | nil =>
    simp only [Memory.set]
    split <;> simp [Memory.get_cons, Ne.symm h]
  | cons c m ih =>
    simp only [Memory.set]
    split_ifs with h1 h2 h2 h3
    · rfl
    · rw [Memory.get_cons, if_neg (Ne.symm h)]
    · rw [Memory.get_cons, if_neg (h2 ▸ Ne.symm h)]
    · rw [Memory.get_cons, Memory.get_cons, if_neg (Ne.symm h), if_neg (h2 ▸ Ne.symm h)]
    · rw [Memory.get_cons, Memory.get_cons, ih]

theorem Memory.get_set {m : Memory} (h : m.wf = true) (a x : Nat) (v : Byte) :
    (m.set a v).get x = if x = a then v else m.get x := by
  split
  · subst_vars; exact Memory.get_set_self h _ v
  · exact Memory.get_set_ne m v ‹_›

/-- Every store of a value keeps the canonical form. -/
theorem Memory.write_wf {m : Memory} (h : m.wf = true) (a : Nat) (w : Width) (v : Word) :
    (m.write a w v).wf = true := by
  cases w <;> simp only [Memory.write] <;> repeat (first | exact h | apply Memory.set_wf)

/-- A store of a value leaves every byte outside its cell alone. -/
theorem Memory.get_write_outside (m : Memory) {a x : Nat} (w : Width) (v : Word)
    (h : x < a ∨ a + w.bytes ≤ x) : (m.write a w v).get x = m.get x := by
  cases w <;> simp only [Memory.write, Width.bytes] at h ⊢ <;>
    repeat rw [Memory.get_set_ne _ _ (by omega)]

/-- The byte of a stored value at each address of its cell (20_memory R50). -/
theorem Memory.get_write_inside {m : Memory} (h : m.wf = true) (a : Nat) (w : Width) (v : Word)
    {i : Nat} (hi : i < w.bytes) : (m.write a w v).get (a + i) = v.extractLsb' (8 * i) 8 := by
  have hw := fun a v => Memory.set_wf h a v
  have hw2 := fun a v b u => Memory.set_wf (hw a v) b u
  have hw3 := fun a v b u c x => Memory.set_wf (hw2 a v b u) c x
  cases w <;> simp only [Width.bytes] at hi <;> interval_cases i <;>
    simp [Memory.write, Memory.get_set h, Memory.get_set (hw _ _), Memory.get_set (hw2 _ _ _ _),
      Memory.get_set (hw3 _ _ _ _ _ _)]

/-- A value read where no byte differs is the same value. -/
theorem Memory.read_congr {m n : Memory} {a : Nat} {w : Width}
    (h : ∀ x, a ≤ x → x < a + w.bytes → m.get x = n.get x) : m.read a w = n.read a w := by
  cases w <;> simp only [Width.bytes] at h <;> simp only [Memory.read]
  · rw [h a (by omega) (by omega)]
  · rw [h a (by omega) (by omega), h (a + 1) (by omega) (by omega)]
  · rw [h a (by omega) (by omega), h (a + 1) (by omega) (by omega),
      h (a + 2) (by omega) (by omega), h (a + 3) (by omega) (by omega)]

/-- A value reads back as the low bits that were stored. -/
theorem Memory.read_write_self {m : Memory} (h : m.wf = true) (a : Nat) (w : Width) (v : Word) :
    (m.write a w v).read a w = keepLow w v := by
  have g := fun i hi => Memory.get_write_inside h a w v (i := i) hi
  cases w
  · have g0 := g 0 (by decide)
    rw [Nat.add_zero] at g0
    simp only [Memory.read, g0, keepLow]
    refine BitVec.eq_of_getLsbD_eq fun i hi => ?_
    simp [BitVec.getLsbD_setWidth, BitVec.getLsbD_extractLsb', hi]
  · have g0 := g 0 (by decide)
    have g1 := g 1 (by decide)
    rw [Nat.add_zero] at g0
    simp only [Memory.read, g0, g1, keepLow]
    refine BitVec.eq_of_getLsbD_eq fun i hi => ?_
    simp only [BitVec.getLsbD_setWidth, BitVec.getLsbD_append, BitVec.getLsbD_extractLsb', hi,
      decide_true, Bool.true_and]
    rcases (by omega : i < 8 ∨ (8 ≤ i ∧ i < 16) ∨ 16 ≤ i) with h0 | h0 | h0
    · simp [h0, show i < 16 by omega]
    · simp [show ¬ i < 8 by omega, show i - 8 < 8 by omega, show i < 16 by omega,
        show 8 + (i - 8) = i by omega]
    · simp [show ¬ i < 8 by omega, show ¬ i - 8 < 8 by omega, show ¬ i < 16 by omega]
  · have g0 := g 0 (by decide)
    have g1 := g 1 (by decide)
    have g2 := g 2 (by decide)
    have g3 := g 3 (by decide)
    rw [Nat.add_zero] at g0
    simp only [Memory.read, g0, g1, g2, g3, keepLow]
    refine BitVec.eq_of_getLsbD_eq fun i hi => ?_
    simp only [BitVec.getLsbD_append, BitVec.getLsbD_extractLsb']
    rcases (by omega : i < 8 ∨ (8 ≤ i ∧ i < 16) ∨ (16 ≤ i ∧ i < 24) ∨ 24 ≤ i) with h0 | h0 | h0 | h0
    · simp [h0]
    · simp [show ¬ i < 8 by omega, show i - 8 < 8 by omega, show 8 + (i - 8) = i by omega]
    · simp [show ¬ i < 8 by omega, show ¬ i - 8 < 8 by omega, show i - 8 - 8 < 8 by omega,
        show 16 + (i - 8 - 8) = i by omega]
    · simp [show ¬ i < 8 by omega, show ¬ i - 8 < 8 by omega, show ¬ i - 8 - 8 < 8 by omega,
        show i - 8 - 8 - 8 < 8 by omega, show 24 + (i - 8 - 8 - 8) = i by omega]

end Sys2Proof.Machine
end

