-- ==== Sys2Proof/Laws/State.lean ====
section
/-! SUPPORT. One lemma per field per update of the state, each true by unfolding. -/

namespace Sys2Proof.Machine

@[simp] theorem updCore_cfg (s : State) (k : Nat) (f : CoreState → CoreState) : (s.updCore k f).cfg = s.cfg := rfl
@[simp] theorem updCore_mem (s : State) (k : Nat) (f : CoreState → CoreState) : (s.updCore k f).mem = s.mem := rfl
@[simp] theorem updCore_nest (s : State) (k : Nat) (f : CoreState → CoreState) : (s.updCore k f).nest = s.nest := rfl
@[simp] theorem updCore_schedule (s : State) (k : Nat) (f : CoreState → CoreState) : (s.updCore k f).schedule = s.schedule := rfl
@[simp] theorem updCore_actor (s : State) (k : Nat) (f : CoreState → CoreState) : (s.updCore k f).actor = s.actor := rfl
@[simp] theorem updCore_fresh (s : State) (k : Nat) (f : CoreState → CoreState) : (s.updCore k f).fresh = s.fresh := rfl
@[simp] theorem updCore_history (s : State) (k : Nat) (f : CoreState → CoreState) : (s.updCore k f).history = s.history := rfl

@[simp] theorem updMe_cfg (s : State) (f : Context → Context) : (s.updMe f).cfg = s.cfg := rfl
@[simp] theorem updMe_mem (s : State) (f : Context → Context) : (s.updMe f).mem = s.mem := rfl
@[simp] theorem updMe_nest (s : State) (f : Context → Context) : (s.updMe f).nest = s.nest := rfl
@[simp] theorem updMe_schedule (s : State) (f : Context → Context) : (s.updMe f).schedule = s.schedule := rfl
@[simp] theorem updMe_actor (s : State) (f : Context → Context) : (s.updMe f).actor = s.actor := rfl
@[simp] theorem updMe_fresh (s : State) (f : Context → Context) : (s.updMe f).fresh = s.fresh := rfl
@[simp] theorem updMe_history (s : State) (f : Context → Context) : (s.updMe f).history = s.history := rfl

@[simp] theorem updTmp_cfg (s : State) (f : Temps → Temps) : (s.updTmp f).cfg = s.cfg := rfl
@[simp] theorem updTmp_mem (s : State) (f : Temps → Temps) : (s.updTmp f).mem = s.mem := rfl
@[simp] theorem updTmp_nest (s : State) (f : Temps → Temps) : (s.updTmp f).nest = s.nest := rfl
@[simp] theorem updTmp_schedule (s : State) (f : Temps → Temps) : (s.updTmp f).schedule = s.schedule := rfl
@[simp] theorem updTmp_actor (s : State) (f : Temps → Temps) : (s.updTmp f).actor = s.actor := rfl
@[simp] theorem updTmp_fresh (s : State) (f : Temps → Temps) : (s.updTmp f).fresh = s.fresh := rfl
@[simp] theorem updTmp_history (s : State) (f : Temps → Temps) : (s.updTmp f).history = s.history := rfl

@[simp] theorem latchOld_cfg (s : State) (v : Word) : (s.latchOld v).cfg = s.cfg := rfl
@[simp] theorem latchOld_mem (s : State) (v : Word) : (s.latchOld v).mem = s.mem := rfl
@[simp] theorem latchOld_nest (s : State) (v : Word) : (s.latchOld v).nest = s.nest := rfl
@[simp] theorem latchOld_schedule (s : State) (v : Word) : (s.latchOld v).schedule = s.schedule := rfl
@[simp] theorem latchOld_actor (s : State) (v : Word) : (s.latchOld v).actor = s.actor := rfl
@[simp] theorem latchOld_fresh (s : State) (v : Word) : (s.latchOld v).fresh = s.fresh := rfl
@[simp] theorem latchOld_history (s : State) (v : Word) : (s.latchOld v).history = s.history := rfl

@[simp] theorem setR0_cfg (s : State) (v : Word) : (s.setR0 v).cfg = s.cfg := rfl
@[simp] theorem setR0_mem (s : State) (v : Word) : (s.setR0 v).mem = s.mem := rfl
@[simp] theorem setR0_nest (s : State) (v : Word) : (s.setR0 v).nest = s.nest := rfl
@[simp] theorem setR0_schedule (s : State) (v : Word) : (s.setR0 v).schedule = s.schedule := rfl
@[simp] theorem setR0_actor (s : State) (v : Word) : (s.setR0 v).actor = s.actor := rfl
@[simp] theorem setR0_fresh (s : State) (v : Word) : (s.setR0 v).fresh = s.fresh := rfl
@[simp] theorem setR0_history (s : State) (v : Word) : (s.setR0 v).history = s.history := rfl

@[simp] theorem setSt_cfg (s : State) (c : Status) : (s.setSt c).cfg = s.cfg := rfl
@[simp] theorem setSt_mem (s : State) (c : Status) : (s.setSt c).mem = s.mem := rfl
@[simp] theorem setSt_nest (s : State) (c : Status) : (s.setSt c).nest = s.nest := rfl
@[simp] theorem setSt_schedule (s : State) (c : Status) : (s.setSt c).schedule = s.schedule := rfl
@[simp] theorem setSt_actor (s : State) (c : Status) : (s.setSt c).actor = s.actor := rfl
@[simp] theorem setSt_fresh (s : State) (c : Status) : (s.setSt c).fresh = s.fresh := rfl
@[simp] theorem setSt_history (s : State) (c : Status) : (s.setSt c).history = s.history := rfl

@[simp] theorem goto_cfg (s : State) (l : Label) : (s.goto l).cfg = s.cfg := rfl
@[simp] theorem goto_mem (s : State) (l : Label) : (s.goto l).mem = s.mem := rfl
@[simp] theorem goto_nest (s : State) (l : Label) : (s.goto l).nest = s.nest := rfl
@[simp] theorem goto_schedule (s : State) (l : Label) : (s.goto l).schedule = s.schedule := rfl
@[simp] theorem goto_actor (s : State) (l : Label) : (s.goto l).actor = s.actor := rfl
@[simp] theorem goto_fresh (s : State) (l : Label) : (s.goto l).fresh = s.fresh := rfl
@[simp] theorem goto_history (s : State) (l : Label) : (s.goto l).history = s.history := rfl

@[simp] theorem done_cfg (s : State) : (s.done).cfg = s.cfg := rfl
@[simp] theorem done_mem (s : State) : (s.done).mem = s.mem := rfl
@[simp] theorem done_nest (s : State) : (s.done).nest = s.nest := rfl
@[simp] theorem done_schedule (s : State) : (s.done).schedule = s.schedule := rfl
@[simp] theorem done_actor (s : State) : (s.done).actor = s.actor := rfl
@[simp] theorem done_fresh (s : State) : (s.done).fresh = s.fresh + 13 := rfl
@[simp] theorem done_history (s : State) : (s.done).history = s.history := rfl

@[simp] theorem finish_cfg (s : State) (c : Status) : (s.finish c).cfg = s.cfg := rfl
@[simp] theorem finish_mem (s : State) (c : Status) : (s.finish c).mem = s.mem := rfl
@[simp] theorem finish_nest (s : State) (c : Status) : (s.finish c).nest = s.nest := rfl
@[simp] theorem finish_schedule (s : State) (c : Status) : (s.finish c).schedule = s.schedule := rfl
@[simp] theorem finish_actor (s : State) (c : Status) : (s.finish c).actor = s.actor := rfl
@[simp] theorem finish_fresh (s : State) (c : Status) : (s.finish c).fresh = s.fresh + 13 := rfl
@[simp] theorem finish_history (s : State) (c : Status) : (s.finish c).history = s.history := rfl

@[simp] theorem raise_cfg (s : State) (f : AccessFault) (a : Word) : (s.raise f a).cfg = s.cfg := rfl
@[simp] theorem raise_mem (s : State) (f : AccessFault) (a : Word) : (s.raise f a).mem = s.mem := rfl
@[simp] theorem raise_nest (s : State) (f : AccessFault) (a : Word) : (s.raise f a).nest = s.nest := rfl
@[simp] theorem raise_schedule (s : State) (f : AccessFault) (a : Word) : (s.raise f a).schedule = s.schedule := rfl
@[simp] theorem raise_actor (s : State) (f : AccessFault) (a : Word) : (s.raise f a).actor = s.actor := rfl
@[simp] theorem raise_fresh (s : State) (f : AccessFault) (a : Word) : (s.raise f a).fresh = s.fresh := rfl
@[simp] theorem raise_history (s : State) (f : AccessFault) (a : Word) : (s.raise f a).history = s.history := rfl

@[simp] theorem record_cfg (s : State) (a : Access) : (s.record a).cfg = s.cfg := rfl
@[simp] theorem record_mem (s : State) (a : Access) : (s.record a).mem = s.mem := rfl
@[simp] theorem record_nest (s : State) (a : Access) : (s.record a).nest = s.nest := rfl
@[simp] theorem record_schedule (s : State) (a : Access) : (s.record a).schedule = s.schedule := rfl
@[simp] theorem record_actor (s : State) (a : Access) : (s.record a).actor = s.actor := rfl
@[simp] theorem record_fresh (s : State) (a : Access) : (s.record a).fresh = s.fresh := rfl
@[simp] theorem record_history (s : State) (a : Access) : (s.record a).history = { core := s.actor, level := s.depth s.actor, acc := a } :: s.history := rfl

@[simp] theorem writeMem_cfg (s : State) (a : Word) (w : Width) (v : Word) : (s.writeMem a w v).cfg = s.cfg := rfl
@[simp] theorem writeMem_mem (s : State) (a : Word) (w : Width) (v : Word) : (s.writeMem a w v).mem = s.mem.write a.toNat w v := rfl
@[simp] theorem writeMem_nest (s : State) (a : Word) (w : Width) (v : Word) : (s.writeMem a w v).nest = s.nest := rfl
@[simp] theorem writeMem_schedule (s : State) (a : Word) (w : Width) (v : Word) : (s.writeMem a w v).schedule = s.schedule := rfl
@[simp] theorem writeMem_actor (s : State) (a : Word) (w : Width) (v : Word) : (s.writeMem a w v).actor = s.actor := rfl
@[simp] theorem writeMem_fresh (s : State) (a : Word) (w : Width) (v : Word) : (s.writeMem a w v).fresh = s.fresh := rfl
@[simp] theorem writeMem_history (s : State) (a : Word) (w : Width) (v : Word) : (s.writeMem a w v).history = s.history := rfl

@[simp] theorem setResv_cfg (s : State) (r : Option Word) : (s.setResv r).cfg = s.cfg := rfl
@[simp] theorem setResv_mem (s : State) (r : Option Word) : (s.setResv r).mem = s.mem := rfl
@[simp] theorem setResv_nest (s : State) (r : Option Word) : (s.setResv r).nest = s.nest := rfl
@[simp] theorem setResv_schedule (s : State) (r : Option Word) : (s.setResv r).schedule = s.schedule := rfl
@[simp] theorem setResv_actor (s : State) (r : Option Word) : (s.setResv r).actor = s.actor := rfl
@[simp] theorem setResv_fresh (s : State) (r : Option Word) : (s.setResv r).fresh = s.fresh := rfl
@[simp] theorem setResv_history (s : State) (r : Option Word) : (s.setResv r).history = s.history := rfl

@[simp] theorem clrResv_cfg (s : State) : (s.clrResv).cfg = s.cfg := rfl
@[simp] theorem clrResv_mem (s : State) : (s.clrResv).mem = s.mem := rfl
@[simp] theorem clrResv_nest (s : State) : (s.clrResv).nest = s.nest := rfl
@[simp] theorem clrResv_schedule (s : State) : (s.clrResv).schedule = s.schedule := rfl
@[simp] theorem clrResv_actor (s : State) : (s.clrResv).actor = s.actor := rfl
@[simp] theorem clrResv_fresh (s : State) : (s.clrResv).fresh = s.fresh := rfl
@[simp] theorem clrResv_history (s : State) : (s.clrResv).history = s.history := rfl

@[simp] theorem barrier_cfg (s : State) : (s.barrier).cfg = s.cfg := rfl
@[simp] theorem barrier_mem (s : State) : (s.barrier).mem = s.mem := rfl
@[simp] theorem barrier_nest (s : State) : (s.barrier).nest = s.nest := rfl
@[simp] theorem barrier_schedule (s : State) : (s.barrier).schedule = s.schedule := rfl
@[simp] theorem barrier_actor (s : State) : (s.barrier).actor = s.actor := rfl
@[simp] theorem barrier_fresh (s : State) : (s.barrier).fresh = s.fresh := rfl
@[simp] theorem barrier_history (s : State) : (s.barrier).history = { core := s.actor, level := s.depth s.actor, acc := .barrier } :: s.history := rfl

@[simp] theorem setImask_cfg (s : State) (v : Word) : (s.setImask v).cfg = s.cfg := rfl
@[simp] theorem setImask_mem (s : State) (v : Word) : (s.setImask v).mem = s.mem := rfl
@[simp] theorem setImask_nest (s : State) (v : Word) : (s.setImask v).nest = s.nest := rfl
@[simp] theorem setImask_schedule (s : State) (v : Word) : (s.setImask v).schedule = s.schedule := rfl
@[simp] theorem setImask_actor (s : State) (v : Word) : (s.setImask v).actor = s.actor := rfl
@[simp] theorem setImask_fresh (s : State) (v : Word) : (s.setImask v).fresh = s.fresh := rfl
@[simp] theorem setImask_history (s : State) (v : Word) : (s.setImask v).history = s.history := rfl

@[simp] theorem acquire_cfg (s : State) : (s.acquire).cfg = s.cfg := rfl
@[simp] theorem acquire_mem (s : State) : (s.acquire).mem = s.mem := rfl
@[simp] theorem acquire_nest (s : State) : (s.acquire).nest = s.nest := rfl
@[simp] theorem acquire_schedule (s : State) : (s.acquire).schedule = s.schedule := rfl
@[simp] theorem acquire_actor (s : State) : (s.acquire).actor = s.actor := rfl
@[simp] theorem acquire_fresh (s : State) : (s.acquire).fresh = s.fresh := rfl
@[simp] theorem acquire_history (s : State) : (s.acquire).history = s.history := rfl

@[simp] theorem release_cfg (s : State) (v : Word) : (s.release v).cfg = s.cfg := rfl
@[simp] theorem release_mem (s : State) (v : Word) : (s.release v).mem = s.mem := rfl
@[simp] theorem release_nest (s : State) (v : Word) : (s.release v).nest = s.nest := rfl
@[simp] theorem release_schedule (s : State) (v : Word) : (s.release v).schedule = s.schedule := rfl
@[simp] theorem release_actor (s : State) (v : Word) : (s.release v).actor = s.actor := rfl
@[simp] theorem release_fresh (s : State) (v : Word) : (s.release v).fresh = s.fresh := rfl
@[simp] theorem release_history (s : State) (v : Word) : (s.release v).history = s.history := rfl

@[simp] theorem actAs_cfg (s : State) (k : Nat) : (s.actAs k).cfg = s.cfg := rfl
@[simp] theorem actAs_mem (s : State) (k : Nat) : (s.actAs k).mem = s.mem := rfl
@[simp] theorem actAs_nest (s : State) (k : Nat) : (s.actAs k).nest = s.nest := rfl
@[simp] theorem actAs_schedule (s : State) (k : Nat) : (s.actAs k).schedule = s.schedule := rfl
@[simp] theorem actAs_actor (s : State) (k : Nat) : (s.actAs k).actor = k := rfl
@[simp] theorem actAs_fresh (s : State) (k : Nat) : (s.actAs k).fresh = s.fresh := rfl
@[simp] theorem actAs_history (s : State) (k : Nat) : (s.actAs k).history = s.history := rfl

@[simp] theorem enterHandler_cfg (s : State) (k : Nat) : (s.enterHandler k).cfg = s.cfg := rfl
@[simp] theorem enterHandler_mem (s : State) (k : Nat) : (s.enterHandler k).mem = s.mem := rfl
@[simp] theorem enterHandler_nest (s : State) (k : Nat) : (s.enterHandler k).nest = s.nest := rfl
@[simp] theorem enterHandler_schedule (s : State) (k : Nat) : (s.enterHandler k).schedule = s.schedule := rfl
@[simp] theorem enterHandler_actor (s : State) (k : Nat) : (s.enterHandler k).actor = s.actor := rfl
@[simp] theorem enterHandler_fresh (s : State) (k : Nat) : (s.enterHandler k).fresh = s.fresh + 22 := rfl
@[simp] theorem enterHandler_history (s : State) (k : Nat) : (s.enterHandler k).history = s.history := rfl

@[simp] theorem leaveHandler_cfg (s : State) (k : Nat) : (s.leaveHandler k).cfg = s.cfg := rfl
@[simp] theorem leaveHandler_mem (s : State) (k : Nat) : (s.leaveHandler k).mem = s.mem := rfl
@[simp] theorem leaveHandler_nest (s : State) (k : Nat) : (s.leaveHandler k).nest = s.nest := rfl
@[simp] theorem leaveHandler_schedule (s : State) (k : Nat) : (s.leaveHandler k).schedule = s.schedule := rfl
@[simp] theorem leaveHandler_actor (s : State) (k : Nat) : (s.leaveHandler k).actor = s.actor := rfl
@[simp] theorem leaveHandler_fresh (s : State) (k : Nat) : (s.leaveHandler k).fresh = s.fresh := rfl
@[simp] theorem leaveHandler_history (s : State) (k : Nat) : (s.leaveHandler k).history = s.history := rfl

@[simp] theorem loseResv_cfg (s : State) (k : Nat) : (s.loseResv k).cfg = s.cfg := rfl
@[simp] theorem loseResv_mem (s : State) (k : Nat) : (s.loseResv k).mem = s.mem := rfl
@[simp] theorem loseResv_nest (s : State) (k : Nat) : (s.loseResv k).nest = s.nest := rfl
@[simp] theorem loseResv_schedule (s : State) (k : Nat) : (s.loseResv k).schedule = s.schedule := rfl
@[simp] theorem loseResv_actor (s : State) (k : Nat) : (s.loseResv k).actor = s.actor := rfl
@[simp] theorem loseResv_fresh (s : State) (k : Nat) : (s.loseResv k).fresh = s.fresh := rfl
@[simp] theorem loseResv_history (s : State) (k : Nat) : (s.loseResv k).history = s.history := rfl

theorem updMe_eq (s : State) (f : Context → Context) :
    s.updMe f = s.updCore s.actor (fun c => c.updRunning f) := rfl
theorem updTmp_eq (s : State) (f : Temps → Temps) :
    s.updTmp f = s.updMe (fun c => { c with tmp := f c.tmp }) := rfl
theorem latchOld_eq (s : State) (v : Word) :
    s.latchOld v = s.updMe (fun c => { c with tmp := { c.tmp with old := v } }) := rfl
theorem setR0_eq (s : State) (v : Word) : s.setR0 v = s.updMe (fun c => { c with r0 := v }) := rfl
theorem setSt_eq (s : State) (c : Status) :
    s.setSt c = s.updMe (fun x => { x with st := c.code }) := rfl
theorem goto_eq (s : State) (l : Label) :
    s.goto l = s.updMe (fun c => { c with phase := c.phase.goto l }) := rfl
theorem raise_eq (s : State) (f : AccessFault) (a : Word) :
    s.raise f a = s.updMe (fun c => { c with fsr := f.code, far := a, phase := .faulted }) := rfl

end Sys2Proof.Machine
end

