-- ==== Sys2Proof/Laws/Ops.lean ====
section
/-! SUPPORT. What each shared operation does to what the machine's registers read as: `me`, `port`, `imask`,
`resv`, `depth`. `State.live` says that the executing context exists; a context whose `PHASE` is not
`IDLE` exists. -/

namespace Sys2Proof.Machine

/-- The executing context exists. -/
def State.live (s : State) : Bool :=
  decide (s.actor < s.cores.length) &&
    decide (s.depth s.actor < (s.coreAt s.actor).ports.length)

theorem live_iff {s : State} :
    s.live = true ↔ s.actor < s.cores.length ∧ s.depth s.actor < (s.coreAt s.actor).ports.length := by
  simp [State.live]

theorem running_absent : CoreState.absent.running = Context.reset := rfl

/-- A context that is not idle exists. -/
theorem live_of_busy {s : State} (h : s.me.phase ≠ .idle) : s.live = true := by
  by_contra hl
  apply h
  rw [live_iff] at hl
  unfold State.me State.running CoreState.running CoreState.port
  by_cases h1 : s.actor < s.cores.length
  · have h2 : ¬ (s.coreAt s.actor).depth < (s.coreAt s.actor).ports.length := fun h => hl ⟨h1, h⟩
    rw [List.getD_eq_default _ _ (Nat.le_of_not_lt h2)]
    rfl
  · have e : s.coreAt s.actor = CoreState.absent :=
      List.getD_eq_default _ _ (Nat.le_of_not_lt h1)
    rw [e]
    rfl

/-! ### One core -/

theorem coreAt_updCore (s : State) (k j : Nat) (f : CoreState → CoreState) :
    (s.updCore k f).coreAt j =
      if j = k ∧ k < s.cores.length then f (s.coreAt j) else s.coreAt j := by
  simp only [State.coreAt, State.updCore, List.getD_eq_getElem?_getD, List.getElem?_modify]
  by_cases hj : j = k
  · subst hj
    by_cases hl : j < s.cores.length
    · simp [hl]
    · simp [hl]
  · simp [hj, Ne.symm hj]

@[simp] theorem updCore_cores_length (s : State) (k : Nat) (f : CoreState → CoreState) :
    (s.updCore k f).cores.length = s.cores.length := by simp [State.updCore]

@[simp] theorem updRunning_imask (c : CoreState) (f : Context → Context) :
    (c.updRunning f).imask = c.imask := rfl
@[simp] theorem updRunning_resv (c : CoreState) (f : Context → Context) :
    (c.updRunning f).resv = c.resv := rfl
@[simp] theorem updRunning_depth (c : CoreState) (f : Context → Context) :
    (c.updRunning f).depth = c.depth := rfl
@[simp] theorem updRunning_ports_length (c : CoreState) (f : Context → Context) :
    (c.updRunning f).ports.length = c.ports.length := by simp [CoreState.updRunning]

theorem port_updRunning (c : CoreState) (f : Context → Context) (l : Nat) :
    (c.updRunning f).port l =
      if l = c.depth ∧ c.depth < c.ports.length then f (c.port l) else c.port l := by
  simp only [CoreState.port, CoreState.updRunning, List.getD_eq_getElem?_getD, List.getElem?_modify]
  by_cases hj : l = c.depth
  · subst hj
    by_cases hl : c.depth < c.ports.length
    · simp [hl]
    · simp [hl]
  · simp [hj, Ne.symm hj]

/-! ### `updCore` on a field of the core other than its contexts -/

section core
variable (s : State) (k : Nat) (f : CoreState → CoreState)

theorem imask_updCore (h : ∀ c, (f c).imask = c.imask) (j : Nat) :
    (s.updCore k f).imask j = s.imask j := by
  simp only [State.imask, coreAt_updCore]; split <;> simp [h]

theorem resv_updCore (h : ∀ c, (f c).resv = c.resv) (j : Nat) :
    (s.updCore k f).resv j = s.resv j := by
  simp only [State.resv, coreAt_updCore]; split <;> simp [h]

theorem depth_updCore (h : ∀ c, (f c).depth = c.depth) (j : Nat) :
    (s.updCore k f).depth j = s.depth j := by
  simp only [State.depth, coreAt_updCore]; split <;> simp [h]

theorem port_updCore (h : ∀ c, (f c).ports = c.ports) (j l : Nat) :
    (s.updCore k f).port j l = s.port j l := by
  simp only [State.port, CoreState.port, coreAt_updCore]; split <;> simp [h]

end core

theorem me_eq_port (s : State) : s.me = s.port s.actor (s.depth s.actor) := rfl
theorem running_eq_port (s : State) (k : Nat) : s.running k = s.port k (s.depth k) := rfl

/-! ### `updMe` -/

section updMe
variable (s : State) (f : Context → Context)

@[simp] theorem updMe_cores_length : (s.updMe f).cores.length = s.cores.length := by
  simp [State.updMe]

@[simp] theorem updMe_imask (j : Nat) : (s.updMe f).imask j = s.imask j :=
  imask_updCore s _ (fun c => c.updRunning f) (fun _ => rfl) j

@[simp] theorem updMe_resv (j : Nat) : (s.updMe f).resv j = s.resv j :=
  resv_updCore s _ (fun c => c.updRunning f) (fun _ => rfl) j

@[simp] theorem updMe_depth (j : Nat) : (s.updMe f).depth j = s.depth j :=
  depth_updCore s _ (fun c => c.updRunning f) (fun _ => rfl) j

theorem updMe_ports_length (j : Nat) :
    ((s.updMe f).coreAt j).ports.length = (s.coreAt j).ports.length := by
  simp only [State.updMe, coreAt_updCore]; split <;> simp

@[simp] theorem updMe_live : (s.updMe f).live = s.live := by
  simp [State.live, updMe_ports_length]

theorem updMe_port (j l : Nat) :
    (s.updMe f).port j l =
      if (j = s.actor ∧ l = s.depth s.actor) ∧ s.live then f (s.port j l) else s.port j l := by
  simp only [State.port, State.updMe, coreAt_updCore, State.live, State.depth]
  by_cases hj : j = s.actor
  · subst hj
    by_cases h1 : s.actor < s.cores.length
    · by_cases h2 : (s.coreAt s.actor).depth < (s.coreAt s.actor).ports.length
      · simp [h1, h2, port_updRunning]
      · simp [h1, h2, port_updRunning]
    · simp [h1]
  · simp [hj]

/-- Other contexts keep everything. -/
theorem updMe_port_ne {j l : Nat} (h : ¬(j = s.actor ∧ l = s.depth s.actor)) :
    (s.updMe f).port j l = s.port j l := by simp [updMe_port, h]

@[simp] theorem updMe_me (h : s.live) : (s.updMe f).me = f s.me := by
  simp [me_eq_port, updMe_port, h]

end updMe

/-! ### The other primitive updates -/

/-- Two states that agree on the cores read the same registers. -/
theorem coreAt_congr {s t : State} (h : s.cores = t.cores) (k : Nat) : s.coreAt k = t.coreAt k := by
  simp [State.coreAt, h]

section record
variable (s : State) (a : Access)
@[simp] theorem record_cores : (s.record a).cores = s.cores := rfl
@[simp] theorem record_me : (s.record a).me = s.me := rfl
@[simp] theorem record_imask (j : Nat) : (s.record a).imask j = s.imask j := rfl
@[simp] theorem record_resv (j : Nat) : (s.record a).resv j = s.resv j := rfl
@[simp] theorem record_depth (j : Nat) : (s.record a).depth j = s.depth j := rfl
@[simp] theorem record_port (j l : Nat) : (s.record a).port j l = s.port j l := rfl
@[simp] theorem record_live : (s.record a).live = s.live := rfl
@[simp] theorem barrier_cores : s.barrier.cores = s.cores := rfl
@[simp] theorem barrier_me : s.barrier.me = s.me := rfl
@[simp] theorem barrier_imask (j : Nat) : s.barrier.imask j = s.imask j := rfl
@[simp] theorem barrier_resv (j : Nat) : s.barrier.resv j = s.resv j := rfl
@[simp] theorem barrier_depth (j : Nat) : s.barrier.depth j = s.depth j := rfl
@[simp] theorem barrier_port (j l : Nat) : s.barrier.port j l = s.port j l := rfl
@[simp] theorem barrier_live : s.barrier.live = s.live := rfl
end record

section actAs
variable (s : State) (k : Nat)
@[simp] theorem actAs_cores : (s.actAs k).cores = s.cores := rfl
@[simp] theorem actAs_me : (s.actAs k).me = s.running k := rfl
@[simp] theorem actAs_imask (j : Nat) : (s.actAs k).imask j = s.imask j := rfl
@[simp] theorem actAs_resv (j : Nat) : (s.actAs k).resv j = s.resv j := rfl
@[simp] theorem actAs_depth (j : Nat) : (s.actAs k).depth j = s.depth j := rfl
@[simp] theorem actAs_port (j l : Nat) : (s.actAs k).port j l = s.port j l := rfl
@[simp] theorem actAs_running (j : Nat) : (s.actAs k).running j = s.running j := rfl
end actAs

section writeMem
variable (s : State) (a : Word) (w : Width) (v : Word)

theorem writeMem_coreAt (j : Nat) :
    (s.writeMem a w v).coreAt j =
      if (s.coreAt j).resv = some (granule a) then { s.coreAt j with resv := none }
      else s.coreAt j := by
  simp only [State.coreAt, State.writeMem, List.getD_eq_getElem?_getD, List.getElem?_map]
  cases s.cores[j]? <;> simp [CoreState.absent]

@[simp] theorem writeMem_cores_length : (s.writeMem a w v).cores.length = s.cores.length := by
  simp [State.writeMem]

@[simp] theorem writeMem_imask (j : Nat) : (s.writeMem a w v).imask j = s.imask j := by
  simp only [State.imask, writeMem_coreAt]; split <;> rfl

@[simp] theorem writeMem_depth (j : Nat) : (s.writeMem a w v).depth j = s.depth j := by
  simp only [State.depth, writeMem_coreAt]; split <;> rfl

@[simp] theorem writeMem_port (j l : Nat) : (s.writeMem a w v).port j l = s.port j l := by
  simp only [State.port, writeMem_coreAt]; split <;> rfl

/-- A write breaks every reservation on its granule and no other (20_memory R66). -/
@[simp] theorem writeMem_resv (j : Nat) :
    (s.writeMem a w v).resv j = if s.resv j = some (granule a) then none else s.resv j := by
  simp only [State.resv, writeMem_coreAt]; split <;> simp_all

@[simp] theorem writeMem_me : (s.writeMem a w v).me = s.me := by simp [me_eq_port]

@[simp] theorem writeMem_live : (s.writeMem a w v).live = s.live := by
  simp only [State.live, writeMem_cores_length, writeMem_actor, writeMem_depth, writeMem_coreAt]
  split <;> rfl

end writeMem

section setResv
variable (s : State) (r : Option Word)

@[simp] theorem setResv_cores_length : (s.setResv r).cores.length = s.cores.length := by
  simp [State.setResv]
@[simp] theorem setResv_imask (j : Nat) : (s.setResv r).imask j = s.imask j :=
  imask_updCore s _ (fun c => { c with resv := r }) (fun _ => rfl) j
@[simp] theorem setResv_depth (j : Nat) : (s.setResv r).depth j = s.depth j :=
  depth_updCore s _ (fun c => { c with resv := r }) (fun _ => rfl) j
@[simp] theorem setResv_port (j l : Nat) : (s.setResv r).port j l = s.port j l :=
  port_updCore s _ (fun c => { c with resv := r }) (fun _ => rfl) j l
@[simp] theorem setResv_me : (s.setResv r).me = s.me := by simp [me_eq_port]
@[simp] theorem setResv_live : (s.setResv r).live = s.live := by
  simp only [State.live, setResv_cores_length, setResv_actor, setResv_depth]
  simp only [State.setResv, coreAt_updCore]
  split <;> rfl

theorem setResv_resv (j : Nat) :
    (s.setResv r).resv j = if j = s.actor ∧ s.actor < s.cores.length then r else s.resv j := by
  simp only [State.resv, State.setResv, coreAt_updCore]; split <;> rfl

theorem setResv_resv_self (h : s.actor < s.cores.length) : (s.setResv r).resv s.actor = r := by
  simp [setResv_resv, h]

@[simp] theorem clrResv_cores_length : s.clrResv.cores.length = s.cores.length :=
  setResv_cores_length s none
@[simp] theorem clrResv_imask (j : Nat) : s.clrResv.imask j = s.imask j := setResv_imask s none j
@[simp] theorem clrResv_depth (j : Nat) : s.clrResv.depth j = s.depth j := setResv_depth s none j
@[simp] theorem clrResv_port (j l : Nat) : s.clrResv.port j l = s.port j l := setResv_port s none j l
@[simp] theorem clrResv_me : s.clrResv.me = s.me := setResv_me s none
@[simp] theorem clrResv_live : s.clrResv.live = s.live := setResv_live s none

/-- `CLRRESV` leaves the acting core without a reservation and every other core as it was. -/
@[simp] theorem clrResv_resv (j : Nat) :
    s.clrResv.resv j = if j = s.actor then none else s.resv j := by
  rw [State.clrResv, setResv_resv]
  by_cases h : j = s.actor
  · subst h
    by_cases hl : s.actor < s.cores.length
    · simp [hl]
    · simp only [hl, and_false, if_false, if_true, State.resv, State.coreAt]
      rw [List.getD_eq_default _ _ (by omega)]
      rfl
  · simp [h]

end setResv

section setImask
variable (s : State) (v : Word)

@[simp] theorem setImask_cores_length : (s.setImask v).cores.length = s.cores.length := by
  simp [State.setImask]
@[simp] theorem setImask_resv (j : Nat) : (s.setImask v).resv j = s.resv j :=
  resv_updCore s _ (fun c => { c with imask := v &&& 1#32 }) (fun _ => rfl) j
@[simp] theorem setImask_depth (j : Nat) : (s.setImask v).depth j = s.depth j :=
  depth_updCore s _ (fun c => { c with imask := v &&& 1#32 }) (fun _ => rfl) j
@[simp] theorem setImask_port (j l : Nat) : (s.setImask v).port j l = s.port j l :=
  port_updCore s _ (fun c => { c with imask := v &&& 1#32 }) (fun _ => rfl) j l
@[simp] theorem setImask_me : (s.setImask v).me = s.me := by simp [me_eq_port]
@[simp] theorem setImask_live : (s.setImask v).live = s.live := by
  simp only [State.live, setImask_cores_length, setImask_actor, setImask_depth]
  simp only [State.setImask, coreAt_updCore]
  split <;> rfl

theorem setImask_imask (j : Nat) :
    (s.setImask v).imask j =
      if j = s.actor ∧ s.actor < s.cores.length then v &&& 1#32 else s.imask j := by
  simp only [State.imask, State.setImask, coreAt_updCore]
  split
  · rw [BitVec.and_assoc]; rfl
  · rfl

/-- `IMASK[k]` of the acting core takes bit 0 of what is written (10_state R28). -/
theorem setImask_imask_live (h : s.live) (j : Nat) :
    (s.setImask v).imask j = if j = s.actor then v &&& 1#32 else s.imask j := by
  simp [setImask_imask, (live_iff.mp h).1]

@[simp] theorem release_cores_length : (s.release v).cores.length = s.cores.length :=
  setImask_cores_length s v
@[simp] theorem release_resv (j : Nat) : (s.release v).resv j = s.resv j := setImask_resv s v j
@[simp] theorem release_depth (j : Nat) : (s.release v).depth j = s.depth j := setImask_depth s v j
@[simp] theorem release_port (j l : Nat) : (s.release v).port j l = s.port j l :=
  setImask_port s v j l
@[simp] theorem release_me : (s.release v).me = s.me := setImask_me s v
@[simp] theorem release_live : (s.release v).live = s.live := setImask_live s v
theorem release_imask_live (h : s.live) (j : Nat) :
    (s.release v).imask j = if j = s.actor then v &&& 1#32 else s.imask j :=
  setImask_imask_live s v h j

end setImask

section done
variable (s : State)

@[simp] theorem done_cores_length : s.done.cores.length = s.cores.length := updMe_cores_length s _
@[simp] theorem done_imask (j : Nat) : s.done.imask j = s.imask j := updMe_imask s _ j
@[simp] theorem done_resv (j : Nat) : s.done.resv j = s.resv j := updMe_resv s _ j
@[simp] theorem done_depth (j : Nat) : s.done.depth j = s.depth j := updMe_depth s _ j
@[simp] theorem done_live : s.done.live = s.live := updMe_live s _
theorem done_port (j l : Nat) :
    s.done.port j l =
      if (j = s.actor ∧ l = s.depth s.actor) ∧ s.live then
        { s.port j l with phase := .idle, tmp := Temps.free s.fresh }
      else s.port j l := updMe_port s _ j l
@[simp] theorem done_me (h : s.live) :
    s.done.me = { s.me with phase := .idle, tmp := Temps.free s.fresh } := updMe_me s _ h

@[simp] theorem finish_cores_length (c : Status) : (s.finish c).cores.length = s.cores.length := by
  simp [State.finish, setSt_eq]
@[simp] theorem finish_imask (c : Status) (j : Nat) : (s.finish c).imask j = s.imask j := by
  simp [State.finish, setSt_eq]
@[simp] theorem finish_resv (c : Status) (j : Nat) : (s.finish c).resv j = s.resv j := by
  simp [State.finish, setSt_eq]
@[simp] theorem finish_depth (c : Status) (j : Nat) : (s.finish c).depth j = s.depth j := by
  simp [State.finish, setSt_eq]
@[simp] theorem finish_live (c : Status) : (s.finish c).live = s.live := by
  simp [State.finish, setSt_eq]
theorem finish_port (c : Status) (j l : Nat) :
    (s.finish c).port j l =
      if (j = s.actor ∧ l = s.depth s.actor) ∧ s.live then
        { s.port j l with st := c.code, phase := .idle, tmp := Temps.free s.fresh }
      else s.port j l := by
  simp only [State.finish, setSt_eq, done_port, updMe_live, updMe_actor, updMe_depth, updMe_fresh,
    updMe_port]
  split <;> rfl
@[simp] theorem finish_me (c : Status) (h : s.live) :
    (s.finish c).me = { s.me with st := c.code, phase := .idle, tmp := Temps.free s.fresh } := by
  simp [State.finish, setSt_eq, h]

end done

/-! ### Operations that are `updMe` of something -/

section small
variable (s : State) (h : s.live)

@[simp] theorem latchOld_me (v : Word) (h : s.live) :
    (s.latchOld v).me = { s.me with tmp := { s.me.tmp with old := v } } := updMe_me s _ h
@[simp] theorem updTmp_me (f : Temps → Temps) (h : s.live) :
    (s.updTmp f).me = { s.me with tmp := f s.me.tmp } := updMe_me s _ h
@[simp] theorem setR0_me (v : Word) (h : s.live) : (s.setR0 v).me = { s.me with r0 := v } :=
  updMe_me s _ h
@[simp] theorem setSt_me (c : Status) (h : s.live) : (s.setSt c).me = { s.me with st := c.code } :=
  updMe_me s _ h
@[simp] theorem goto_me (l : Label) (h : s.live) :
    (s.goto l).me = { s.me with phase := s.me.phase.goto l } := updMe_me s _ h
@[simp] theorem raise_me (f : AccessFault) (a : Word) (h : s.live) :
    (s.raise f a).me = { s.me with fsr := f.code, far := a, phase := .faulted } := updMe_me s _ h

end small

/-! ### Everything else is left alone by them -/

section smallFrame
variable (s : State)

@[simp] theorem updTmp_cores_length (f : Temps → Temps) : (s.updTmp f).cores.length = s.cores.length :=
  updMe_cores_length s _
@[simp] theorem updTmp_live (f : Temps → Temps) : (s.updTmp f).live = s.live := updMe_live s _
@[simp] theorem updTmp_imask (f : Temps → Temps) (j : Nat) : (s.updTmp f).imask j = s.imask j := updMe_imask s _ j
@[simp] theorem updTmp_resv (f : Temps → Temps) (j : Nat) : (s.updTmp f).resv j = s.resv j := updMe_resv s _ j
@[simp] theorem updTmp_depth (f : Temps → Temps) (j : Nat) : (s.updTmp f).depth j = s.depth j := updMe_depth s _ j

@[simp] theorem latchOld_cores_length (v : Word) : (s.latchOld v).cores.length = s.cores.length :=
  updMe_cores_length s _
@[simp] theorem latchOld_live (v : Word) : (s.latchOld v).live = s.live := updMe_live s _
@[simp] theorem latchOld_imask (v : Word) (j : Nat) : (s.latchOld v).imask j = s.imask j := updMe_imask s _ j
@[simp] theorem latchOld_resv (v : Word) (j : Nat) : (s.latchOld v).resv j = s.resv j := updMe_resv s _ j
@[simp] theorem latchOld_depth (v : Word) (j : Nat) : (s.latchOld v).depth j = s.depth j := updMe_depth s _ j

@[simp] theorem setR0_cores_length (v : Word) : (s.setR0 v).cores.length = s.cores.length :=
  updMe_cores_length s _
@[simp] theorem setR0_live (v : Word) : (s.setR0 v).live = s.live := updMe_live s _
@[simp] theorem setR0_imask (v : Word) (j : Nat) : (s.setR0 v).imask j = s.imask j := updMe_imask s _ j
@[simp] theorem setR0_resv (v : Word) (j : Nat) : (s.setR0 v).resv j = s.resv j := updMe_resv s _ j
@[simp] theorem setR0_depth (v : Word) (j : Nat) : (s.setR0 v).depth j = s.depth j := updMe_depth s _ j

@[simp] theorem setSt_cores_length (c : Status) : (s.setSt c).cores.length = s.cores.length :=
  updMe_cores_length s _
@[simp] theorem setSt_live (c : Status) : (s.setSt c).live = s.live := updMe_live s _
@[simp] theorem setSt_imask (c : Status) (j : Nat) : (s.setSt c).imask j = s.imask j := updMe_imask s _ j
@[simp] theorem setSt_resv (c : Status) (j : Nat) : (s.setSt c).resv j = s.resv j := updMe_resv s _ j
@[simp] theorem setSt_depth (c : Status) (j : Nat) : (s.setSt c).depth j = s.depth j := updMe_depth s _ j

@[simp] theorem goto_cores_length (l : Label) : (s.goto l).cores.length = s.cores.length :=
  updMe_cores_length s _
@[simp] theorem goto_live (l : Label) : (s.goto l).live = s.live := updMe_live s _
@[simp] theorem goto_imask (l : Label) (j : Nat) : (s.goto l).imask j = s.imask j := updMe_imask s _ j
@[simp] theorem goto_resv (l : Label) (j : Nat) : (s.goto l).resv j = s.resv j := updMe_resv s _ j
@[simp] theorem goto_depth (l : Label) (j : Nat) : (s.goto l).depth j = s.depth j := updMe_depth s _ j

@[simp] theorem raise_cores_length (f : AccessFault) (a : Word) : (s.raise f a).cores.length = s.cores.length :=
  updMe_cores_length s _
@[simp] theorem raise_live (f : AccessFault) (a : Word) : (s.raise f a).live = s.live := updMe_live s _
@[simp] theorem raise_imask (f : AccessFault) (a : Word) (j : Nat) : (s.raise f a).imask j = s.imask j := updMe_imask s _ j
@[simp] theorem raise_resv (f : AccessFault) (a : Word) (j : Nat) : (s.raise f a).resv j = s.resv j := updMe_resv s _ j
@[simp] theorem raise_depth (f : AccessFault) (a : Word) (j : Nat) : (s.raise f a).depth j = s.depth j := updMe_depth s _ j

end smallFrame

/-- `goto` stays within the command. -/
@[simp] theorem goto_at (op : Op) (l m : Label) : (Phase.at op l).goto m = .at op m := rfl

/-! ### The memory primitives: what each can do, once -/

/-- When an access meets no fault (20_memory R52, R56). -/
theorem accessFault_none_iff (cfg : Config) (a : Word) (w : Width) :
    accessFault cfg a w = none ↔
      a.toNat % w.bytes = 0 ∧ cfg.memBase ≤ a.toNat ∧
        a.toNat + w.bytes ≤ cfg.memBase + cfg.memSize := by
  simp only [accessFault, aligned, inRange]
  by_cases h1 : a.toNat % w.bytes = 0
  · by_cases h2 : cfg.memBase ≤ a.toNat ∧ a.toNat + w.bytes ≤ cfg.memBase + cfg.memSize
    · simp [h1, h2]
    · simp only [h1, decide_true, if_true, true_and, h2, iff_false]
      simp only [not_and, not_le] at h2
      by_cases h3 : cfg.memBase ≤ a.toNat
      · simp [h3, h2 h3]
      · simp [h3]
  · simp [h1]

theorem load_ok {s : State} {a : Word} {w : Width} (h : accessFault s.cfg a w = none)
    (k : Word → State → State) :
    s.load a w k = k (s.mem.read a.toNat w) (s.record (.read a w (s.mem.read a.toNat w))) := by
  simp [State.load, h]

theorem load_fault {s : State} {a : Word} {w : Width} {f : AccessFault}
    (h : accessFault s.cfg a w = some f) (k : Word → State → State) : s.load a w k = s.raise f a := by
  simp [State.load, h]

theorem store_ok {s : State} {a : Word} {w : Width} (h : accessFault s.cfg a w = none) (v : Word)
    (k : State → State) : s.store a w v k = k ((s.writeMem a w v).record (.write a w v)) := by
  simp [State.store, h]

theorem store_fault {s : State} {a : Word} {w : Width} {f : AccessFault}
    (h : accessFault s.cfg a w = some f) (v : Word) (k : State → State) :
    s.store a w v k = s.raise f a := by
  simp [State.store, h]

theorem ll_ok {s : State} {a : Word} {w : Width} (h : accessFault s.cfg a w = none)
    (k : Word → State → State) :
    s.ll a w k = k (s.mem.read a.toNat w)
      ((s.record (.read a w (s.mem.read a.toNat w))).setResv (some (granule a))) := by
  simp [State.ll, State.load, h]

theorem ll_fault {s : State} {a : Word} {w : Width} {f : AccessFault}
    (h : accessFault s.cfg a w = some f) (k : Word → State → State) : s.ll a w k = s.raise f a := by
  simp [State.ll, State.load, h]

/-- A conditional store whose reservation holds (20_memory R65). -/
theorem sc_ok {s : State} {a : Word} {w : Width} (h : accessFault s.cfg a w = none)
    (hr : s.resv s.actor = some (granule a)) (v : Word) (k : Bool → State → State) :
    s.sc a w v k = k true ((s.writeMem a w v).record (.write a w v)) := by
  simp [State.sc, h, hr]

/-- A conditional store whose reservation is lost (20_memory R65). -/
theorem sc_lost {s : State} {a : Word} {w : Width} (h : accessFault s.cfg a w = none)
    (hr : s.resv s.actor ≠ some (granule a)) (v : Word) (k : Bool → State → State) :
    s.sc a w v k = k false s.clrResv := by
  simp [State.sc, h, hr]

theorem sc_fault {s : State} {a : Word} {w : Width} {f : AccessFault}
    (h : accessFault s.cfg a w = some f) (v : Word) (k : Bool → State → State) :
    s.sc a w v k = s.raise f a := by
  simp [State.sc, h]

/-- What a load can do: it faults, or it goes on with the value read. -/
theorem load_cases (s : State) (a : Word) (w : Width) (k : Word → State → State) :
    (∃ f, accessFault s.cfg a w = some f ∧ s.load a w k = s.raise f a) ∨
    (accessFault s.cfg a w = none ∧
      s.load a w k = k (s.mem.read a.toNat w) (s.record (.read a w (s.mem.read a.toNat w)))) := by
  cases h : accessFault s.cfg a w with
  | some f => exact .inl ⟨f, rfl, load_fault h k⟩
  | none => exact .inr ⟨rfl, load_ok h k⟩

/-- What a store can do. -/
theorem store_cases (s : State) (a : Word) (w : Width) (v : Word) (k : State → State) :
    (∃ f, accessFault s.cfg a w = some f ∧ s.store a w v k = s.raise f a) ∨
    (accessFault s.cfg a w = none ∧
      s.store a w v k = k ((s.writeMem a w v).record (.write a w v))) := by
  cases h : accessFault s.cfg a w with
  | some f => exact .inl ⟨f, rfl, store_fault h v k⟩
  | none => exact .inr ⟨rfl, store_ok h v k⟩

/-- What a conditional store can do. -/
theorem sc_cases (s : State) (a : Word) (w : Width) (v : Word) (k : Bool → State → State) :
    (∃ f, accessFault s.cfg a w = some f ∧ s.sc a w v k = s.raise f a) ∨
    (accessFault s.cfg a w = none ∧ s.resv s.actor = some (granule a) ∧
      s.sc a w v k = k true ((s.writeMem a w v).record (.write a w v))) ∨
    (accessFault s.cfg a w = none ∧ s.resv s.actor ≠ some (granule a) ∧
      s.sc a w v k = k false s.clrResv) := by
  cases h : accessFault s.cfg a w with
  | some f => exact .inl ⟨f, rfl, sc_fault h v k⟩
  | none =>
    by_cases hr : s.resv s.actor = some (granule a)
    · exact .inr (.inl ⟨rfl, hr, sc_ok h hr v k⟩)
    · exact .inr (.inr ⟨rfl, hr, sc_lost h hr v k⟩)

/-! ### The frame of a micro-step -/

/-- A micro-step at a step of its command gives what the body gives. -/
theorem microStep_at {op : Op} {body : State → Label → Option State} {s t : State} {l : Label}
    (hp : s.me.phase = .at op l) (hb : body s l = some t) : microStep op body s = .next t := by
  simp [microStep, hp, hb]

/-- What a micro-step can do: the executing context stands at a step of the command, and the body gives
the next state. -/
theorem microStep_next {op : Op} {body : State → Label → Option State} {s t : State}
    (h : microStep op body s = .next t) :
    ∃ l, s.me.phase = .at op l ∧ body s l = some t := by
  unfold microStep at h
  split at h
  · next o l hp =>
    split at h
    · next ho =>
      split at h
      · next u hb => exact ⟨l, by rw [hp, ho], by cases h; exact hb⟩
      · cases h
    · cases h
  · cases h
  · cases h

end Sys2Proof.Machine
end

