-- ==== Sys2Proof/Laws/Exec.lean ====
section
/-! SUPPORT. The steps of each command in one table, and `exec` and `step` in terms of it. -/

namespace Sys2Proof.Machine

/-- The steps of a command: the body of its micro-step. -/
def stepsOf : Instr → State → Label → Option State
  | .aload => rmwSteps .word (fun c => c.tmp.old) resultOld
  | .astore => rmwSteps .word (fun c => c.a1) resultNone
  | .aadd => rmwSteps .word (fun c => c.tmp.old + c.a1) resultOld
  | .asub => rmwSteps .word (fun c => c.tmp.old - c.a1) resultOld
  | .aand => rmwSteps .word (fun c => c.tmp.old &&& c.a1) resultOld
  | .aor => rmwSteps .word (fun c => c.tmp.old ||| c.a1) resultOld
  | .axor => rmwSteps .word (fun c => c.tmp.old ^^^ c.a1) resultOld
  | .axchg => rmwSteps .word (fun c => c.a1) resultOld
  | .afclr => rmwSteps .word (fun _ => 0#32) resultNone
  | .aftas => rmwSteps .word (fun c => c.tmp.old ||| 1#32) resultOld
  | .acas => acasSteps
  | .bsetB b => rmwSteps .byte (setBit b) resultNone
  | .bsetH b => rmwSteps .half (setBit b) resultNone
  | .bsetW b => rmwSteps .word (setBit b) resultNone
  | .bclrB b => rmwSteps .byte (clearBit b) resultNone
  | .bclrH b => rmwSteps .half (clearBit b) resultNone
  | .bclrW b => rmwSteps .word (clearBit b) resultNone
  | .bchgB b => rmwSteps .byte (changeBit b) resultNone
  | .bchgH b => rmwSteps .half (changeBit b) resultNone
  | .bchgW b => rmwSteps .word (changeBit b) resultNone
  | .btstB b => bitTestSteps .byte b
  | .btstH b => bitTestSteps .half b
  | .btstW b => bitTestSteps .word b
  | .btasB b => rmwSteps .byte (setBit b) (resultBit b)
  | .btasH b => rmwSteps .half (setBit b) (resultBit b)
  | .btasW b => rmwSteps .word (setBit b) (resultBit b)
  | .btacB b => rmwSteps .byte (clearBit b) (resultBit b)
  | .btacH b => rmwSteps .half (clearBit b) (resultBit b)
  | .btacW b => rmwSteps .word (clearBit b) (resultBit b)
  | .btchB b => rmwSteps .byte (changeBit b) (resultBit b)
  | .btchH b => rmwSteps .half (changeBit b) (resultBit b)
  | .btchW b => rmwSteps .word (changeBit b) (resultBit b)
  | .rinit => rinitSteps
  | .rprod => produceSteps State.done
  | .rcons => consumeSteps State.done
  | .rpeek => peekSteps
  | .rlin => linearSteps State.done
  | .rskip => skipSteps
  | .rprodl => lockedSteps produceSteps
  | .rconsl => lockedSteps consumeSteps
  | .rlinl => lockedSteps linearSteps
  | .irqlock => lockSteps
  | .irqunlock => unlockSteps
  | .csenter => lockSteps
  | .csexit => unlockSteps
  | .intenter => nestSteps (fun n => n + 1#32)
  | .intleave => nestSteps (fun n => n - 1#32)
  | .inint => inIntSteps
  | .spinit => spinitSteps
  | .splock => splockSteps
  | .sptry => sptrySteps
  | .spunlock => spunlockSteps

/-- Every arm of `exec` is one micro-step of its command. -/
theorem exec_eq (i : Instr) (s : State) : exec i s = microStep i.op (stepsOf i) s := by
  cases i <;> rfl

/-- A command at a step whose body gives a state. -/
theorem exec_at {i : Instr} {s t : State} {l : Label} (hp : s.me.phase = .at i.op l)
    (hb : stepsOf i s l = some t) : exec i s = .next t := by
  rw [exec_eq]
  exact microStep_at hp hb

/-- What `exec` can do when it gives a next state. -/
theorem exec_next {i : Instr} {s t : State} (h : exec i s = .next t) :
    ∃ l, s.me.phase = .at i.op l ∧ stepsOf i s l = some t := by
  rw [exec_eq] at h
  exact microStep_next h

/-- `exec` never ends in a fault: an access fault is taken in the next state. -/
theorem exec_no_fault (i : Instr) (s : State) (f : Fault) : exec i s ≠ .fault f := by
  rw [exec_eq]
  unfold microStep
  split
  · split
    · split <;> simp
    · simp
  · simp
  · simp

/-- What fetching a micro-step's command can give when it gives one. -/
theorem fetch_ok {s : State} {k : Nat} {i : Instr} (h : s.fetch k = .ok i) :
    k < s.cfg.ncore ∧ decodeWord (s.running k).cmdr = .ok i ∧
      ∃ l, (s.running k).phase = .at i.op l := by
  unfold State.fetch at h
  split at h
  · next hk =>
    split at h
    · cases h
    · cases h
    · next op l hp =>
      split at h
      · cases h
      · next j hd =>
        split at h
        · next ho => cases h; exact ⟨hk, hd, l, by rw [hp, ho]⟩
        · cases h
  · cases h

/-- Fetching succeeds in a busy context whose `CMDR` agrees with its `PHASE`. -/
theorem fetch_of {s : State} {k : Nat} {i : Instr} {l : Label} (hk : k < s.cfg.ncore)
    (hp : (s.running k).phase = .at i.op l) (hd : decodeWord (s.running k).cmdr = .ok i) :
    s.fetch k = .ok i := by
  simp [State.fetch, hk, hp, hd]

/-- What a step can do when it gives a next state: nothing is left to happen, or a command's micro-step
runs, or an event of the environment happens. -/
theorem step_next {s t : State} (h : step s = .next t) :
    s.cfg.legal = true ∧
    ((s.schedule = [] ∧ t = s) ∨
    (∃ k rest i, s.schedule = .micro k :: rest ∧ k < s.cfg.ncore ∧
      decodeWord (s.running k).cmdr = .ok i ∧ (∃ l, (s.running k).phase = .at i.op l) ∧
      exec i (({ s with schedule := rest } : State).actAs k) = .next t) ∨
    (∃ e rest, s.schedule = e :: rest ∧ (∀ k, e ≠ .micro k) ∧
      ({ s with schedule := rest } : State).environment e = .next t)) := by
  unfold step at h
  split at h
  · next hl =>
    refine ⟨hl, ?_⟩
    split at h
    · next hs => cases h; exact .inl ⟨hs, rfl⟩
    · next e rest hs =>
      right
      unfold State.happen at h
      split at h
      · next k =>
        left
        unfold State.microEvent at h
        split at h
        · next i hf =>
          obtain ⟨hk, hd, hp⟩ := fetch_ok hf
          exact ⟨k, rest, i, hs, hk, hd, hp, h⟩
        · cases h
        · cases h
      · next hm =>
        exact .inr ⟨e, rest, hs, fun k hk => hm k hk, h⟩
  · cases h

end Sys2Proof.Machine
end

