-- ==== Sys2Proof/Laws/Frames.lean ====
section
/-! SUPPORT. The frames of the shared operations, once each, and how frames compose: a step is a primitive
followed by changes of the executing context. -/

namespace Sys2Proof.Machine

/-! ### Changes of the executing context only -/

theorem SameElse.refl (s : State) : SameElse s s := ⟨rfl, rfl, rfl, rfl, fun _ => rfl, fun _ _ _ => rfl⟩

theorem SameElse.trans {s t u : State} (h : SameElse s t) (g : SameElse t u) : SameElse s u where
  cfg := g.cfg.trans h.cfg
  schedule := g.schedule.trans h.schedule
  actor := g.actor.trans h.actor
  cores := g.cores.trans h.cores
  depth k := (g.depth k).trans (h.depth k)
  ports k l hn := by
    rw [g.ports k l (by rwa [h.actor, h.depth]), h.ports k l hn]

theorem Logs.nil (s : State) : Logs s s [] := rfl

theorem Logs.trans {s t u : State} {l m : List Access} (h : Logs s t l) (g : Logs t u m)
    (e : SameElse s t) : Logs s u (m ++ l) := by
  unfold Logs at *
  rw [g, h, e.actor, e.depth, List.map_append, List.append_assoc]

/-- A state that differs in the executing context and in what nothing reads. -/
theorem OnlyContext.of_updMe {s t : State} (f : Context → Context)
    (h : t = s.updMe f ∨ ∃ n, t = { s.updMe f with fresh := n }) : OnlyContext s t := by
  have p : ∀ k l, ¬(k = s.actor ∧ l = s.depth s.actor) → (s.updMe f).port k l = s.port k l :=
    fun k l hn => updMe_port_ne s f hn
  rcases h with rfl | ⟨n, rfl⟩
  · exact { cfg := rfl, schedule := rfl, actor := rfl, cores := updMe_cores_length s f,
            depth := updMe_depth s f, ports := p, bytes := fun _ => rfl, nest := rfl,
            masks := updMe_imask s f, resv := updMe_resv s f, logs := rfl }
  · exact { cfg := rfl, schedule := rfl, actor := rfl, cores := updMe_cores_length s f,
            depth := updMe_depth s f, ports := p, bytes := fun _ => rfl, nest := rfl,
            masks := updMe_imask s f, resv := updMe_resv s f, logs := rfl }

theorem OnlyContext.refl (s : State) : OnlyContext s s where
  toSameElse := SameElse.refl s
  bytes _ := rfl
  nest := rfl
  masks _ := rfl
  resv _ := rfl
  logs := rfl

theorem OnlyContext.trans {s t u : State} (h : OnlyContext s t) (g : OnlyContext t u) :
    OnlyContext s u where
  toSameElse := h.toSameElse.trans g.toSameElse
  bytes x := (g.bytes x).trans (h.bytes x)
  nest := g.nest.trans h.nest
  masks k := (g.masks k).trans (h.masks k)
  resv k := (g.resv k).trans (h.resv k)
  logs := h.logs.trans g.logs h.toSameElse

section context
variable (s : State)

theorem updMe_only (f : Context → Context) : OnlyContext s (s.updMe f) := .of_updMe f (.inl rfl)
theorem updTmp_only (f : Temps → Temps) : OnlyContext s (s.updTmp f) := updMe_only s _
theorem latchOld_only (v : Word) : OnlyContext s (s.latchOld v) := updTmp_only s _
theorem setR0_only (v : Word) : OnlyContext s (s.setR0 v) := updMe_only s _
theorem setSt_only (c : Status) : OnlyContext s (s.setSt c) := updMe_only s _
theorem goto_only (l : Label) : OnlyContext s (s.goto l) := updMe_only s _
theorem done_only : OnlyContext s s.done := .of_updMe _ (.inr ⟨_, rfl⟩)
theorem finish_only (c : Status) : OnlyContext s (s.finish c) := (setSt_only s c).trans (done_only _)
theorem report_only {fin : State → State} (hf : ∀ t, OnlyContext t (fin t)) (v : Word) :
    OnlyContext s (s.report v fin) := ((setR0_only s v).trans (setSt_only _ _)).trans (hf _)

/-- Taking a fault changes nothing but the executing context (60_exceptions R203). -/
theorem raise_only (f : AccessFault) (a : Word) : OnlyContext s (s.raise f a) := updMe_only s _

end context

/-! ### What may follow a primitive: a change of the executing context -/

section follow
variable {s t u : State} {a : Word} {w : Width} {v : Word} {r : Option Word}

theorem OnlyReads.andThen (h : OnlyReads s t a w) (g : OnlyContext t u) : OnlyReads s u a w where
  toSameElse := h.toSameElse.trans g.toSameElse
  bytes x := (g.bytes x).trans (h.bytes x)
  nest := g.nest.trans h.nest
  masks k := (g.masks k).trans (h.masks k)
  resv k := (g.resv k).trans (h.resv k)
  logs := h.logs.trans g.logs h.toSameElse

theorem OnlyReserves.andThen (h : OnlyReserves s t a w r) (g : OnlyContext t u) :
    OnlyReserves s u a w r where
  toSameElse := h.toSameElse.trans g.toSameElse
  bytes x := (g.bytes x).trans (h.bytes x)
  nest := g.nest.trans h.nest
  masks k := (g.masks k).trans (h.masks k)
  resv k := (g.resv k).trans (h.resv k)
  logs := h.logs.trans g.logs h.toSameElse

theorem OnlyWrites.andThen (h : OnlyWrites s t a w v) (g : OnlyContext t u) :
    OnlyWrites s u a w v where
  toSameElse := h.toSameElse.trans g.toSameElse
  bytes := ⟨(Memory.read_congr fun x _ _ => g.bytes x).trans h.bytes.1,
    fun x hx => (g.bytes x).trans (h.bytes.2 x hx)⟩
  nest := g.nest.trans h.nest
  masks k := (g.masks k).trans (h.masks k)
  resv k := (g.resv k).trans (h.resv k)
  logs := h.logs.trans g.logs h.toSameElse

theorem OnlyReleases.andThen (h : OnlyReleases s t) (g : OnlyContext t u) : OnlyReleases s u where
  toSameElse := h.toSameElse.trans g.toSameElse
  bytes x := (g.bytes x).trans (h.bytes x)
  nest := g.nest.trans h.nest
  masks k := (g.masks k).trans (h.masks k)
  resv k := (g.resv k).trans (h.resv k)
  logs := h.logs.trans g.logs h.toSameElse

theorem OnlyFences.andThen (h : OnlyFences s t) (g : OnlyContext t u) : OnlyFences s u where
  toSameElse := h.toSameElse.trans g.toSameElse
  bytes x := (g.bytes x).trans (h.bytes x)
  nest := g.nest.trans h.nest
  masks k := (g.masks k).trans (h.masks k)
  resv k := (g.resv k).trans (h.resv k)
  logs := h.logs.trans g.logs h.toSameElse

theorem OnlyMasks.andThen (h : OnlyMasks s t v) (g : OnlyContext t u) : OnlyMasks s u v where
  toSameElse := h.toSameElse.trans g.toSameElse
  bytes x := (g.bytes x).trans (h.bytes x)
  nest := g.nest.trans h.nest
  masks k := (g.masks k).trans (h.masks k)
  resv k := (g.resv k).trans (h.resv k)
  logs := h.logs.trans g.logs h.toSameElse

theorem OnlyMasks.after (g : OnlyContext s t) (h : OnlyMasks t u v) : OnlyMasks s u v where
  toSameElse := g.toSameElse.trans h.toSameElse
  bytes x := (h.bytes x).trans (g.bytes x)
  nest := h.nest.trans g.nest
  masks k := by rw [h.masks k, g.actor, g.masks k]
  resv k := (h.resv k).trans (g.resv k)
  logs := g.logs.trans h.logs g.toSameElse

theorem OnlyCounts.andThen (h : OnlyCounts s t v) (g : OnlyContext t u) : OnlyCounts s u v where
  toSameElse := h.toSameElse.trans g.toSameElse
  bytes x := (g.bytes x).trans (h.bytes x)
  nest := g.nest.trans h.nest
  masks k := (g.masks k).trans (h.masks k)
  resv k := (g.resv k).trans (h.resv k)
  logs := h.logs.trans g.logs h.toSameElse

end follow

/-! ### The primitives -/

section primitives
variable (s : State)

/-- A read that has passed its checks (20_memory R50). -/
theorem record_read_only (a : Word) (w : Width) :
    OnlyReads s (s.record (.read a w (s.mem.read a.toNat w))) a w where
  toSameElse := ⟨rfl, rfl, rfl, rfl, fun _ => rfl, fun _ _ _ => rfl⟩
  bytes _ := rfl
  nest := rfl
  masks _ := rfl
  resv _ := rfl
  logs := rfl

/-- An exclusive load that has passed its checks (20_memory R64). -/
theorem record_reserve_only (h : s.live) (a : Word) (w : Width) (r : Option Word) :
    OnlyReserves s ((s.record (.read a w (s.mem.read a.toNat w))).setResv r) a w r where
  toSameElse := ⟨rfl, rfl, rfl, by simp, by simp, by simp⟩
  bytes _ := rfl
  nest := rfl
  masks _ := by simp
  resv k := by
    rw [setResv_resv]
    simp [(live_iff.mp h).1]
  logs := rfl

/-- A write that has passed its checks (20_memory R50, R66). -/
theorem writeMem_only (h : s.mem.wf = true) (a : Word) (w : Width) (v : Word) :
    OnlyWrites s ((s.writeMem a w v).record (.write a w v)) a w v where
  toSameElse := ⟨rfl, rfl, rfl, by simp, by simp, by simp⟩
  bytes := ⟨Memory.read_write_self h _ _ _, fun _ hx => Memory.get_write_outside _ _ _ hx⟩
  nest := rfl
  masks _ := by simp
  resv k := by simp
  logs := by simp [Logs, State.record]

/-- `CLRRESV` (20_memory R67). -/
theorem clrResv_only : OnlyReleases s s.clrResv where
  toSameElse := ⟨rfl, rfl, rfl, by simp, by simp, by simp⟩
  bytes _ := rfl
  nest := rfl
  masks _ := by simp
  resv k := by simp
  logs := rfl

/-- `BARRIER` (20_memory R61). -/
theorem barrier_only : OnlyFences s s.barrier where
  toSameElse := ⟨rfl, rfl, rfl, rfl, fun _ => rfl, fun _ _ _ => rfl⟩
  bytes _ := rfl
  nest := rfl
  masks _ := rfl
  resv _ := rfl
  logs := rfl

/-- A write of `IMASK` (10_state R28). -/
theorem setImask_only (h : s.live) (v : Word) : OnlyMasks s (s.setImask v) (v &&& 1#32) where
  toSameElse := ⟨rfl, rfl, rfl, by simp, by simp, by simp⟩
  bytes _ := rfl
  nest := rfl
  masks k := setImask_imask_live s v h k
  resv k := by simp
  logs := rfl

/-- The acquire step (43_irq_lock R171). -/
theorem acquire_only (h : s.live) : OnlyMasks s s.acquire 1#32 :=
  OnlyMasks.after (updTmp_only s _) (setImask_only (s.updTmp _) (by simpa [State.updTmp] using h) 1#32)

@[simp] theorem acquire_live : s.acquire.live = s.live := by
  simp [State.acquire, State.updTmp]

@[simp] theorem acquire_me (h : s.live) :
    s.acquire.me = { s.me with tmp := { s.me.tmp with snap := s.imask s.actor } } := by
  simp [State.acquire, h]

/-- The release step (43_irq_lock R172). -/
theorem release_only (h : s.live) (v : Word) : OnlyMasks s (s.release v) (v &&& 1#32) :=
  setImask_only s h v

end primitives

/-! ### What an access gives, with its frame -/

section access
variable {s : State} {a : Word} {w : Width}

theorem accessible_iff : accessFault s.cfg a w = none ↔ Accessible s.cfg a w :=
  accessFault_none_iff s.cfg a w

/-- An access that is not allowed takes the fault of 60_exceptions R203. -/
theorem accessFault_of_not (h : ¬ Accessible s.cfg a w) :
    ∃ f, accessFault s.cfg a w = some f ∧
      f.code = if a.toNat % w.bytes ≠ 0 then 1#32 else 2#32 := by
  cases hf : accessFault s.cfg a w with
  | none => exact absurd (accessible_iff.mp hf) h
  | some f =>
    refine ⟨f, rfl, ?_⟩
    unfold accessFault aligned at hf
    by_cases h1 : a.toNat % w.bytes = 0
    · simp only [h1, decide_true, if_true] at hf
      split at hf
      · cases hf
      · cases hf; simp [h1, AccessFault.code]
    · simp [h1] at hf
      subst hf
      simp [h1, AccessFault.code]

end access

end Sys2Proof.Machine
end

