-- ==== Sys2Proof/Laws/Commands.lean ====
section
/-! SUPPORT. What each shared list of steps can do, one lemma a step: the read-modify-write of the Atomic Core
and the Bit-Field commands, `LOADDESC`, the payload copy, and which commands are made of which. -/

namespace Sys2Proof.Machine

theorem live_at {s : State} {op : Op} {l : Label} (h : s.me.phase = .at op l) : s.live = true :=
  live_of_busy (by rw [h]; simp)

/-! ### The read-modify-write -/

section rmw
variable {w : Width} {f : Context → Word} {res : Context → Context} {s : State} {op : Op}

/-- `S0` of the retry pattern: the exclusive load (40_atomic_core R101). -/
theorem rmw_load (hb : s.cfg.backend = .llsc) (h : s.me.phase = .at op .s0)
    (ha : Accessible s.cfg s.me.a0 w) :
    ∃ t, rmwSteps w f res s .s0 = some t ∧
      OnlyReserves s t s.me.a0 w (some (granule s.me.a0)) ∧
      t.me = { s.me with
        phase := .at op .s1, tmp := { s.me.tmp with old := s.mem.read s.me.a0.toNat w } } := by
  have hl := live_at h
  refine ⟨_, by simp only [rmwSteps, hb]; rfl, ?_⟩
  rw [ll_ok (accessible_iff.mpr ha)]
  refine ⟨((record_reserve_only s hl _ _ _).andThen (latchOld_only _ _)).andThen (goto_only _ _), ?_⟩
  simp [hl, h, State.latchOld, State.updTmp]

/-- `S1` of the retry pattern with the reservation lost: nothing is stored, back to `S0`. -/
theorem rmw_lost (hb : s.cfg.backend = .llsc) (h : s.me.phase = .at op .s1)
    (ha : Accessible s.cfg s.me.a0 w) (hr : s.resv s.actor ≠ some (granule s.me.a0)) :
    ∃ t, rmwSteps w f res s .s1 = some t ∧ OnlyReleases s t ∧
      t.me = { s.me with phase := .at op .s0 } := by
  have hl := live_at h
  refine ⟨_, by simp only [rmwSteps, hb]; rfl, ?_⟩
  rw [sc_lost (accessible_iff.mpr ha) hr]
  refine ⟨(clrResv_only s).andThen (goto_only _ _), ?_⟩
  simp [hl, h]

/-- `S1` of the retry pattern with the reservation held: the new value is stored, the command completes. -/
theorem rmw_commit (hb : s.cfg.backend = .llsc) (hw : s.mem.wf = true)
    (h : s.me.phase = .at op .s1) (ha : Accessible s.cfg s.me.a0 w)
    (hr : s.resv s.actor = some (granule s.me.a0)) :
    ∃ t, rmwSteps w f res s .s1 = some t ∧ OnlyWrites s t s.me.a0 w (f s.me) ∧
      Completed t { res s.me with st := 0#32 } := by
  have hl := live_at h
  refine ⟨_, by simp only [rmwSteps, hb]; rfl, ?_⟩
  rw [sc_ok (accessible_iff.mpr ha) hr]
  refine ⟨((writeMem_only s hw _ _ _).andThen (updMe_only _ _)).andThen (finish_only _ _), ?_⟩
  simp [hl, Completed, Status.code]

/-- `S0` under `IRQMASK`: the acquire step (40_atomic_core R113). -/
theorem rmw_mask (hb : s.cfg.backend = .irqmask) (h : s.me.phase = .at op .s0) :
    ∃ t, rmwSteps w f res s .s0 = some t ∧ OnlyMasks s t 1#32 ∧
      t.me = { s.me with
        phase := .at op .s1, tmp := { s.me.tmp with snap := s.imask s.actor } } := by
  have hl := live_at h
  refine ⟨_, by simp only [rmwSteps, hb]; rfl, (acquire_only s hl).andThen (goto_only _ _), ?_⟩
  simp [hl, h]

/-- `S1` under `IRQMASK`: the plain read. -/
theorem rmw_read (hb : s.cfg.backend = .irqmask) (h : s.me.phase = .at op .s1)
    (ha : Accessible s.cfg s.me.a0 w) :
    ∃ t, rmwSteps w f res s .s1 = some t ∧ OnlyReads s t s.me.a0 w ∧
      t.me = { s.me with
        phase := .at op .s2, tmp := { s.me.tmp with old := s.mem.read s.me.a0.toNat w } } := by
  have hl := live_at h
  refine ⟨_, by simp only [rmwSteps, hb]; rfl, ?_⟩
  rw [load_ok (accessible_iff.mpr ha)]
  refine ⟨((record_read_only s _ _).andThen (latchOld_only _ _)).andThen (goto_only _ _), ?_⟩
  simp [hl, h, State.latchOld, State.updTmp]

/-- `S2` under `IRQMASK`: the plain write. -/
theorem rmw_write (hb : s.cfg.backend = .irqmask) (hw : s.mem.wf = true)
    (h : s.me.phase = .at op .s2) (ha : Accessible s.cfg s.me.a0 w) :
    ∃ t, rmwSteps w f res s .s2 = some t ∧ OnlyWrites s t s.me.a0 w (f s.me) ∧
      t.me = { s.me with phase := .at op .s3 } := by
  have hl := live_at h
  refine ⟨_, by simp only [rmwSteps, hb]; rfl, ?_⟩
  rw [store_ok (accessible_iff.mpr ha)]
  refine ⟨(writeMem_only s hw _ _ _).andThen (goto_only _ _), ?_⟩
  simp [hl, h]

/-- `S3` under `IRQMASK`: the release step and the results. -/
theorem rmw_unmask (hb : s.cfg.backend = .irqmask) (h : s.me.phase = .at op .s3) :
    ∃ t, rmwSteps w f res s .s3 = some t ∧ OnlyMasks s t (s.me.tmp.snap &&& 1#32) ∧
      Completed t { res s.me with st := 0#32 } := by
  have hl := live_at h
  refine ⟨_, by simp only [rmwSteps, hb]; rfl,
    ((release_only s hl _).andThen (updMe_only _ _)).andThen (finish_only _ _), ?_⟩
  simp [hl, Completed, Status.code]

end rmw

/-! ### Which commands are read-modify-writes -/

/-- The Atomic Core commands of 40_atomic_core R102 to R111 are read-modify-writes by their rule. -/
theorem stepsOf_rule {r : RmwRule} (hr : r ∈ atomicRules) :
    stepsOf r.instr = rmwSteps .word (fun c => r.new c.tmp.old c.a1)
      (if r.returnsOld = true then resultOld else resultNone) := by
  simp only [atomicRules, List.mem_cons, List.not_mem_nil, or_false] at hr
  rcases hr with rfl | rfl | rfl | rfl | rfl | rfl | rfl | rfl | rfl | rfl <;> rfl

theorem rule_op {r : RmwRule} (hr : r ∈ atomicRules) :
    r.instr.op.isRmw = true ∧ r.instr.op.cellWidth = .word := by
  simp only [atomicRules, List.mem_cons, List.not_mem_nil, or_false] at hr
  rcases hr with rfl | rfl | rfl | rfl | rfl | rfl | rfl | rfl | rfl | rfl <;> exact ⟨rfl, rfl⟩

/-- The new value of the cell in a mutating Bit-Field command (41_bitfield_ops R122 to R128). -/
def bitFunction (o : BitOp) (b : BitVec 5) : Context → Word :=
  match o with
  | .set => setBit b
  | .clear => clearBit b
  | .change => changeBit b
  | .test => setBit b
  | .testSet => setBit b
  | .testClear => clearBit b
  | .testChange => changeBit b

/-- The mutating Bit-Field commands are read-modify-writes at the cell width (41_bitfield_ops R121). -/
theorem stepsOf_ofBit {o : BitOp} (ho : o ≠ .test) (w : Width) (b : BitVec 5) :
    stepsOf (Instr.ofBit o w b) = rmwSteps w (bitFunction o b)
      (if o.returnsBit = true then resultBit b else resultNone) := by
  cases o <;> cases w <;> first | rfl | exact absurd rfl ho

theorem stepsOf_btst (w : Width) (b : BitVec 5) :
    stepsOf (Instr.ofBit .test w b) = bitTestSteps w b := by cases w <;> rfl

@[simp] theorem ofBit_op (o : BitOp) (w : Width) (b : BitVec 5) :
    (Instr.ofBit o w b).op = .bit o w := by cases o <;> cases w <;> rfl

@[simp] theorem ofBit_bit (o : BitOp) (w : Width) (b : BitVec 5) :
    (Instr.ofBit o w b).bit = b := by cases o <;> cases w <;> rfl

/-- Every read-modify-write but `ACAS` runs the shared steps at its cell width. -/
theorem stepsOf_rmw {i : Instr} (hi : i.op.isRmw = true) (hc : i ≠ .acas) :
    ∃ f res, stepsOf i = rmwSteps i.op.cellWidth f res := by
  cases i
  case acas => exact absurd rfl hc
  all_goals first
    | (dsimp only [stepsOf, Instr.op, Op.cellWidth]; exact ⟨_, _, rfl⟩)
    | (simp [Op.isRmw, Instr.op] at hi)

/-! ### The bits of a Bit-Field cell -/

theorem bitMask_getLsbD (b : BitVec 5) {j : Nat} (hj : j < 32) :
    (bitMask b).getLsbD j = decide (j = b.toNat) := by
  have hb := b.isLt
  simp only [bitMask, BitVec.getLsbD_shiftLeft, hj, decide_true, Bool.true_and]
  by_cases h : j < b.toNat
  · simp [h, show j ≠ b.toNat by omega]
  · by_cases h2 : j = b.toNat
    · subst h2; simp
    · have : j - b.toNat ≠ 0 := by omega
      simp [h, h2, this]

/-- The bit an operation returns, as a word: 1 or 0 (41_bitfield_ops R120). -/
theorem bitValue_eq (old : Word) (b : BitVec 5) :
    bitValue old b = if old.getLsbD b.toNat = true then 1#32 else 0#32 := by
  refine BitVec.eq_of_getLsbD_eq fun j hj => ?_
  simp only [bitValue, BitVec.getLsbD_and, BitVec.getLsbD_ushiftRight]
  rcases Nat.eq_zero_or_pos j with rfl | h
  · cases h : old.getLsbD b.toNat <;> simp
  · have : (1#32).getLsbD j = false := by
      rw [BitVec.getLsbD_one]; simp; omega
    rw [this]
    cases h : old.getLsbD b.toNat <;> simp [this]

/-- What a mutating Bit-Field operation makes of the cell, bit by bit (41_bitfield_ops R122 to R128). -/
theorem bitFunction_getLsbD {o : BitOp} (ho : o ≠ .test) (b : BitVec 5) (c : Context) {j : Nat}
    (hj : j < 32) :
    (bitFunction o b c).getLsbD j =
      if j = b.toNat then o.onBit (c.tmp.old.getLsbD j) else c.tmp.old.getLsbD j := by
  have hm := bitMask_getLsbD b hj
  cases o <;> simp only [bitFunction, setBit, clearBit, changeBit, BitOp.onBit, BitVec.getLsbD_or,
    BitVec.getLsbD_and, BitVec.getLsbD_xor, BitVec.getLsbD_not, hm, hj] <;>
    first | exact absurd rfl ho | (split <;> simp_all)

/-- The bits a cell keeps of a value. -/
theorem keepLow_getLsbD (w : Width) (v : Word) {j : Nat} (hj : j < w.bits) :
    (keepLow w v).getLsbD j = v.getLsbD j := by
  cases w <;> simp only [Width.bits] at hj <;> simp [keepLow, BitVec.getLsbD_setWidth, hj] <;>
    omega

/-! ### `LOADDESC` and the payload copy -/

section ring
variable {s : State} {op : Op} {plan : Temps → Temps}

/-- A `LOADDESC` step that passes its checks: one read, one latch (42_ring_buffer R144). -/
theorem loadDesc_step {l : Label} {a : Word} (h : s.me.phase = .at op l)
    (hd : descriptorWord l s.me = some a) (ha : Accessible s.cfg a .word) :
    ∃ t, loadDescSteps plan s l = some t ∧ OnlyReads s t a .word ∧
      (l = .s0 → t.me = { s.me with
        phase := .at op .s1, tmp := { s.me.tmp with mask := s.mem.read a.toNat .word } }) ∧
      (l = .s1 → t.me = { s.me with
        phase := .at op .s2, tmp := { s.me.tmp with inIdx := s.mem.read a.toNat .word } }) ∧
      (l = .s2 → t.me = { s.me with
        phase := .at op .s3, tmp := { s.me.tmp with outIdx := s.mem.read a.toNat .word } }) ∧
      (l = .s3 → t.me = { s.me with
        phase := .at op .s4, tmp := { s.me.tmp with esz := s.mem.read a.toNat .word } }) ∧
      (l = .s4 → t.me = { s.me with
        phase := .at op .s5, tmp := plan { s.me.tmp with data := s.mem.read a.toNat .word } }) := by
  have hl := live_at h
  cases l <;> simp only [descriptorWord, Option.some.injEq, reduceCtorEq] at hd <;> subst hd <;>
    (simp only [loadDescSteps, Context.descWord, Option.some.injEq, exists_eq_left', BitVec.add_zero]
     rw [load_ok (accessible_iff.mpr ha)]
     refine ⟨((record_read_only s _ _).andThen (updTmp_only _ _)).andThen (goto_only _ _), ?_⟩
     simp [hl, h, State.updTmp])

/-- A copy step whose two accesses pass: one byte moves and `t.i` counts it (42_ring_buffer R145). -/
theorem copyByte_ok (hw : s.mem.wf = true) (h : s.me.phase = .at op .s5) {src dst : Word}
    (hs : Accessible s.cfg src .byte) (hd : Accessible s.cfg dst .byte) :
    SameElse s (s.copyByte src dst) ∧ (s.copyByte src dst).nest = s.nest ∧
      SameMasks s (s.copyByte src dst) ∧
      StoredCell s (s.copyByte src dst) dst .byte (s.mem.read src.toNat .byte) ∧
      ResvBroken s (s.copyByte src dst) dst ∧
      Logs s (s.copyByte src dst) [.write dst .byte (s.mem.read src.toNat .byte),
        .read src .byte (s.mem.read src.toNat .byte)] ∧
      (s.copyByte src dst).me =
        { s.me with tmp := { s.me.tmp with i := s.me.tmp.i + 1#32 } } := by
  have hl := live_at h
  have e1 := record_read_only s src .byte
  have e2 := (writeMem_only (s.record (.read src .byte (s.mem.read src.toNat .byte))) hw dst .byte
    (s.mem.read src.toNat .byte)).andThen ((updTmp_only _ (fun x => { x with i := x.i + 1#32 })).trans
      (goto_only _ .s5))
  have hc : s.copyByte src dst = ((((s.record (.read src .byte (s.mem.read src.toNat .byte))).writeMem
      dst .byte (s.mem.read src.toNat .byte)).record (.write dst .byte (s.mem.read src.toNat .byte))).updTmp
      (fun x => { x with i := x.i + 1#32 })).goto .s5 := by
    unfold State.copyByte
    rw [load_ok (accessible_iff.mpr hs)]
    exact store_ok (s := s.record _) (accessible_iff.mpr hd) _ _
  rw [hc]
  refine ⟨e1.toSameElse.trans e2.toSameElse, e2.nest, e2.masks, e2.bytes, e2.resv,
    e1.logs.trans e2.logs e1.toSameElse, ?_⟩
  simp [hl, State.updTmp, h]

end ring

/-! ### The numbers of the ring -/

theorem minWord_toNat (a b : Word) : (minWord a b).toNat = min a.toNat b.toNat := by
  unfold minWord
  simp only [BitVec.le_def]
  split <;> omega

theorem divWord_toNat (a b : Word) : (divWord a b).toNat = a.toNat / b.toNat := by
  have := Nat.div_le_self a.toNat b.toNat
  simp only [divWord, BitVec.toNat_ofNat]
  exact Nat.mod_eq_of_lt (by omega)

/-- `floor_pow2` of a number that is not 0: a power of two, and the largest one not above it (00_scope R8). -/
theorem floorPow2_spec {q : Word} (hq : q.toNat ≠ 0) :
    (floorPow2 q).toNat = 2 ^ Nat.log2 q.toNat ∧ 2 ^ Nat.log2 q.toNat ≤ q.toNat ∧
      q.toNat < 2 ^ (Nat.log2 q.toNat + 1) := by
  have h1 : 2 ^ Nat.log2 q.toNat ≤ q.toNat := Nat.log2_self_le hq
  have h2 : q.toNat < 2 ^ (Nat.log2 q.toNat + 1) := Nat.lt_log2_self
  refine ⟨?_, h1, h2⟩
  simp only [floorPow2, BitVec.toNat_ofNat]
  exact Nat.mod_eq_of_lt (by omega)

end Sys2Proof.Machine
end

