-- ==== Sys2Proof/Laws/Micro.lean ====
section
/-! SUPPORT. What one micro-step of any command can do, said once: changes of the executing context, one
primitive of 00_scope R9, changes of the executing context; or a fault. Later proofs cite `exec_shape` and
unfold no command. -/

namespace Sys2Proof.Machine

/-! ### Changes of the executing context -/

theorem updRunning_updRunning (c : CoreState) (f g : Context → Context) :
    (c.updRunning f).updRunning g = c.updRunning (fun x => g (f x)) := by
  simp only [CoreState.updRunning, List.modify_modify_eq]
  rfl

theorem updCore_updCore (s : State) (k : Nat) (f g : CoreState → CoreState) :
    (s.updCore k f).updCore k g = s.updCore k (fun c => g (f c)) := by
  simp only [State.updCore, List.modify_modify_eq]
  rfl

theorem updMe_updMe (s : State) (f g : Context → Context) :
    (s.updMe f).updMe g = s.updMe (fun c => g (f c)) := by
  unfold State.updMe
  rw [updCore_actor, updCore_updCore]
  simp only [updRunning_updRunning]

/-- What a command may do to its own context between two accesses: it keeps `A0`, `A2`, `A3`, `CMDR`, `FSR`
and `FAR`, `A1` and `R1` too unless `p` and `q` say otherwise, and its position moves to idle or to another
step of the same command. -/
structure Tame (p q : Bool) (c d : Context) : Prop where
  a0 : d.a0 = c.a0
  a1 : p = false → d.a1 = c.a1
  a2 : d.a2 = c.a2
  a3 : d.a3 = c.a3
  r1 : q = false → d.r1 = c.r1
  cmdr : d.cmdr = c.cmdr
  fsr : d.fsr = c.fsr
  far : d.far = c.far
  phase : d.phase = c.phase ∨ d.phase = .idle ∨ ∃ m, d.phase = c.phase.goto m

theorem Phase.goto_goto (x : Phase) (l m : Label) : (x.goto l).goto m = x.goto m := by cases x <;> rfl

theorem Tame.trans {p q : Bool} {c d e : Context} (h : Tame p q c d) (g : Tame p q d e) :
    Tame p q c e where
  a0 := g.a0.trans h.a0
  a1 x := (g.a1 x).trans (h.a1 x)
  a2 := g.a2.trans h.a2
  a3 := g.a3.trans h.a3
  r1 x := (g.r1 x).trans (h.r1 x)
  cmdr := g.cmdr.trans h.cmdr
  fsr := g.fsr.trans h.fsr
  far := g.far.trans h.far
  phase := by
    rcases g.phase with g | g | ⟨m, g⟩
    · rw [g]; exact h.phase
    · exact .inr (.inl g)
    · rcases h.phase with h | h | ⟨n, h⟩
      · exact .inr (.inr ⟨m, by rw [g, h]⟩)
      · exact .inr (.inl (by rw [g, h]; rfl))
      · exact .inr (.inr ⟨m, by rw [g, h, Phase.goto_goto]⟩)

/-- Only the executing context changes, tamely. -/
def Ctx (p q : Bool) (s t : State) : Prop :=
  ∃ f n, (∀ c, Tame p q c (f c)) ∧ t = { s.updMe f with fresh := n }

section ctx
variable {p q : Bool} {s t u : State}

theorem Ctx.of_updMe {f : Context → Context} (h : ∀ c, Tame p q c (f c)) : Ctx p q s (s.updMe f) :=
  ⟨f, s.fresh, h, rfl⟩

theorem Ctx.trans (h : Ctx p q s t) (g : Ctx p q t u) : Ctx p q s u := by
  obtain ⟨f, n, hf, rfl⟩ := h
  obtain ⟨f', m, hf', rfl⟩ := g
  refine ⟨fun c => f' (f c), m, fun c => (hf c).trans (hf' _), ?_⟩
  have h := updMe_updMe s f f'
  exact congrArg (fun x : State => { x with fresh := m }) h

theorem Tame.of_tmp (c : Context) (x : Temps) : Tame p q c { c with tmp := x } :=
  ⟨rfl, fun _ => rfl, rfl, rfl, fun _ => rfl, rfl, rfl, rfl, .inl rfl⟩
theorem Tame.of_r0 (c : Context) (v : Word) : Tame p q c { c with r0 := v } :=
  ⟨rfl, fun _ => rfl, rfl, rfl, fun _ => rfl, rfl, rfl, rfl, .inl rfl⟩
theorem Tame.of_st (c : Context) (v : Word) : Tame p q c { c with st := v } :=
  ⟨rfl, fun _ => rfl, rfl, rfl, fun _ => rfl, rfl, rfl, rfl, .inl rfl⟩
theorem Tame.of_goto (c : Context) (l : Label) : Tame p q c { c with phase := c.phase.goto l } :=
  ⟨rfl, fun _ => rfl, rfl, rfl, fun _ => rfl, rfl, rfl, rfl, .inr (.inr ⟨l, rfl⟩)⟩
theorem Tame.of_idle (c : Context) (x : Temps) : Tame p q c { c with phase := .idle, tmp := x } :=
  ⟨rfl, fun _ => rfl, rfl, rfl, fun _ => rfl, rfl, rfl, rfl, .inr (.inl rfl)⟩

variable (s)

theorem ctx_refl : Ctx p q s s := by
  refine ⟨id, s.fresh, fun c => Tame.of_tmp c c.tmp, ?_⟩
  have h : s.cores.modify s.actor (fun c => c.updRunning id) = s.cores := by
    rw [show (fun c : CoreState => c.updRunning id) = id from
      funext fun c => by simp [CoreState.updRunning, List.modify_id]]
    exact List.modify_id _ _
  exact (congrArg (fun x => { s with cores := x }) h).symm

theorem ctx_updTmp (f : Temps → Temps) : Ctx p q s (s.updTmp f) :=
  .of_updMe fun c => Tame.of_tmp c (f c.tmp)
theorem ctx_latchOld (v : Word) : Ctx p q s (s.latchOld v) := ctx_updTmp s _
theorem ctx_setR0 (v : Word) : Ctx p q s (s.setR0 v) := .of_updMe fun c => Tame.of_r0 c v
theorem ctx_setSt (c : Status) : Ctx p q s (s.setSt c) := .of_updMe fun x => Tame.of_st x c.code
theorem ctx_goto (l : Label) : Ctx p q s (s.goto l) := .of_updMe fun c => Tame.of_goto c l
theorem ctx_done : Ctx p q s s.done :=
  ⟨_, s.fresh + 13, fun c => Tame.of_idle c (Temps.free s.fresh), rfl⟩
theorem ctx_finish (c : Status) : Ctx p q s (s.finish c) := (ctx_setSt s c).trans (ctx_done _)
theorem ctx_report {fin : State → State} (hf : ∀ t, Ctx p q t (fin t)) (v : Word) :
    Ctx p q s (s.report v fin) := ((ctx_setR0 s v).trans (ctx_setSt _ _)).trans (hf _)

end ctx

/-! ### The primitives -/

/-- One primitive of 00_scope R9 or 43_irq_lock on the state; `move` is the two accesses of a copy step;
`count` only where `r` says so, a reservation only where `x` says so. -/
inductive Prim (r x : Bool) (s : State) : State → Prop
  | none : Prim r x s s
  | read (a : Word) (w : Width) : accessFault s.cfg a w = .none →
      Prim r x s (s.record (.read a w (s.mem.read a.toNat w)))
  | reserve (a : Word) (w : Width) (g : Option Word) : accessFault s.cfg a w = .none →
      (g = .none ∨ (x = true ∧ g = some (granule a))) →
      Prim r x s ((s.record (.read a w (s.mem.read a.toNat w))).setResv g)
  | write (a : Word) (w : Width) (v : Word) : accessFault s.cfg a w = .none →
      Prim r x s ((s.writeMem a w v).record (.write a w v))
  | move (a b : Word) : accessFault s.cfg a .byte = .none → accessFault s.cfg b .byte = .none →
      Prim r x s (((s.record (.read a .byte (s.mem.read a.toNat .byte))).writeMem b .byte
        (s.mem.read a.toNat .byte)).record (.write b .byte (s.mem.read a.toNat .byte)))
  | release : Prim r x s s.clrResv
  | fence : Prim r x s s.barrier
  | mask (v : Word) : Prim r x s (s.setImask v)
  | count (n : Word) : r = true → Prim r x s { s with nest := n }

/-- What a micro-step does: context, one primitive, context; or a fault, taken before the access or, in a copy
step, after the read. -/
inductive Shape (p q r x : Bool) (s t : State) : Prop
  | acts (s' u : State) : Ctx p q s s' → Prim r x s' u → Ctx p q u t → Shape p q r x s t
  | faults (f : AccessFault) (a : Word) : t = s.raise f a → Shape p q r x s t
  | faultsLate (f : AccessFault) (a b : Word) : accessFault s.cfg b .byte = none →
      t = (s.record (.read b .byte (s.mem.read b.toNat .byte))).raise f a → Shape p q r x s t

section shape
variable {p q r x : Bool} {s t u : State}

theorem Shape.prim (h : Prim r x s u) (g : Ctx p q u t) : Shape p q r x s t := .acts s u (ctx_refl s) h g

theorem Shape.ctx (h : Ctx p q s t) : Shape p q r x s t := .prim .none h

theorem Shape.load {a : Word} {w : Width} {k : Word → State → State}
    (h : ∀ v t, Ctx p q t (k v t)) : Shape p q r x s (s.load a w k) := by
  rcases load_cases s a w k with ⟨f, _, e⟩ | ⟨ha, e⟩ <;> rw [e]
  · exact .faults f a rfl
  · exact .prim (.read a w ha) (h _ _)

theorem Shape.store {a : Word} {w : Width} {v : Word} {k : State → State}
    (h : ∀ t, Ctx p q t (k t)) : Shape p q r x s (s.store a w v k) := by
  rcases store_cases s a w v k with ⟨f, _, e⟩ | ⟨ha, e⟩ <;> rw [e]
  · exact .faults f a rfl
  · exact .prim (.write a w v ha) (h _)

theorem Shape.ll {a : Word} {w : Width} {k : Word → State → State}
    (h : ∀ v t, Ctx p q t (k v t)) : Shape p q r true s (s.ll a w k) := by
  rcases load_cases s a w (fun v t => k v (t.setResv (some (granule a)))) with ⟨f, _, e⟩ | ⟨ha, e⟩
  · exact .faults f a e
  · unfold State.ll
    rw [e]
    exact .prim (.reserve a w _ ha (.inr ⟨rfl, rfl⟩)) (h _ _)

theorem Shape.sc {a : Word} {w : Width} {v : Word} {k : Bool → State → State}
    (ht : ∀ t, Ctx p q t (k true t)) (hf : ∀ t, Ctx p q t (k false t)) :
    Shape p q r x s (s.sc a w v k) := by
  rcases sc_cases s a w v k with ⟨f, _, e⟩ | ⟨ha, _, e⟩ | ⟨_, _, e⟩ <;> rw [e]
  · exact .faults f a rfl
  · exact .prim (.write a w v ha) (ht _)
  · exact .prim .release (hf _)

theorem Shape.copyByte {a b : Word} : Shape p q r x s (s.copyByte a b) := by
  unfold State.copyByte
  cases ha : accessFault s.cfg a .byte with
  | some f => rw [load_fault ha]; exact .faults f a rfl
  | none =>
    rw [load_ok ha]
    cases hb : accessFault s.cfg b .byte with
    | some f => rw [store_fault (s := s.record _) hb]; exact .faultsLate f b a ha rfl
    | none =>
      rw [store_ok (s := s.record _) hb]
      exact .prim (.move a b ha hb) ((ctx_updTmp _ _).trans (ctx_goto _ _))

/-- The acquire step, then more of the context. -/
theorem Shape.masked {v : Word} (h : Ctx p q s u) (g : Ctx p q (u.setImask v) t) :
    Shape p q r x s t := .acts u _ h (.mask v) g

end shape

/-! ### The steps of each command -/

section steps
variable {p q r x : Bool} {s t : State} {l : Label}

theorem Shape.acquired {m : Label} : Shape p q r x s (s.acquire.goto m) :=
  .masked (ctx_updTmp s _) (ctx_goto _ m)

theorem Shape.released {v : Word} (h : Ctx p q (s.release v) t) : Shape p q r x s t :=
  .prim (.mask v) h

theorem Shape.fenced {m : Label} : Shape p q r x s (s.barrier.goto m) := .prim .fence (ctx_goto _ m)

theorem latch_goto (f : Temps → Temps) (m : Label) : Ctx p q s ((s.updTmp f).goto m) :=
  (ctx_updTmp s f).trans (ctx_goto _ m)

theorem res_finish {res : Context → Context} (hr : ∀ c, Tame p q c (res c)) (c : Status) :
    Ctx p q s ((s.updMe res).finish c) := (Ctx.of_updMe hr).trans (ctx_finish _ c)

theorem setR0_finish (v : Word) (c : Status) : Ctx p q s ((s.setR0 v).finish c) :=
  (ctx_setR0 s v).trans (ctx_finish _ c)

theorem shape_rmw {w : Width} {f : Context → Word} {res : Context → Context}
    (hr : ∀ c, Tame p q c (res c)) (h : rmwSteps w f res s l = some t) : Shape p q r true s t := by
  unfold rmwSteps at h
  split at h <;> cases h
  · exact .ll fun v t => latch_goto _ _
  · exact .sc (fun t => res_finish hr _) fun t => ctx_goto t _
  · exact .acquired
  · exact .load fun v t => latch_goto _ _
  · exact .store fun t => ctx_goto t _
  · exact .released (res_finish hr _)

theorem tame_none (c : Context) : Tame p q c (resultNone c) := Tame.of_tmp c c.tmp
theorem tame_old (c : Context) : Tame p q c (resultOld c) := Tame.of_r0 c c.tmp.old
theorem tame_bit (b : BitVec 5) (c : Context) : Tame p q c (resultBit b c) :=
  Tame.of_r0 c (bitValue c.tmp.old b)

theorem Tame.of_a1 (c : Context) (v x : Word) (y : Temps) :
    Tame true q c { c with a1 := v, r0 := x, tmp := y } :=
  ⟨rfl, (fun h => Bool.noConfusion h), rfl, rfl, fun _ => rfl, rfl, rfl, rfl, .inl rfl⟩

theorem tame_extent (c : Context) : Tame p true c c.linearExtent :=
  ⟨rfl, fun _ => rfl, rfl, rfl, (fun h => Bool.noConfusion h), rfl, rfl, rfl, .inl rfl⟩

theorem shape_acas (h : acasSteps s l = some t) : Shape true q r true s t := by
  unfold acasSteps at h
  split at h <;> cases h
  · exact .ll fun v t => latch_goto _ _
  · split
    · exact .prim .release (res_finish (fun c => Tame.of_a1 c _ _ _) _)
    · exact .sc (fun t => setR0_finish _ _) fun t => ctx_goto t _
  · exact .acquired
  · exact .load fun v t => latch_goto _ _
  · split
    · exact .store fun t => latch_goto _ _
    · exact .ctx ((Ctx.of_updMe (fun c => Tame.of_a1 c _ _ _)).trans (ctx_goto _ _))
  · exact .released (setR0_finish _ _)

theorem clrResv_updMe (f : Context → Context) : (s.updMe f).clrResv = s.clrResv.updMe f := by
  unfold State.clrResv State.setResv State.updMe
  rw [updCore_actor, updCore_actor, updCore_updCore, updCore_updCore]
  rfl

theorem clrResv_setResv (g : Option Word) : (s.setResv g).clrResv = s.clrResv := by
  unfold State.clrResv State.setResv
  rw [updCore_actor, updCore_updCore]

theorem shape_btst {w : Width} {b : BitVec 5} (h : bitTestSteps w b s l = some t) :
    Shape p q r x s t := by
  unfold bitTestSteps at h
  split at h <;> cases h
  · rcases load_cases s s.me.a0 w (fun v t => ((((t.setResv (some (granule s.me.a0))).latchOld
      v).clrResv).updMe (resultBit b)).finish .ok) with ⟨f, _, e⟩ | ⟨ha, e⟩
    · exact .faults f _ e
    · unfold State.ll
      rw [e, latchOld_eq, clrResv_updMe, clrResv_setResv]
      exact .prim (.reserve _ w none ha (.inl rfl))
        ((ctx_latchOld _ _).trans (res_finish (tame_bit b) _))
  · exact .load fun v t => (ctx_latchOld t v).trans (res_finish (tame_bit b) _)

theorem shape_rinit (h : rinitSteps s l = some t) : Shape p q r x s t := by
  unfold rinitSteps at h
  split at h <;> cases h
  · split
    · exact .ctx (ctx_finish s _)
    · split
      · exact .ctx (ctx_finish s _)
      · exact .ctx (latch_goto _ _)
  · exact .store fun t => ctx_goto t _
  · exact .store fun t => ctx_goto t _
  · exact .store fun t => ctx_goto t _
  · exact .store fun t => ctx_goto t _
  · exact .store fun t => ctx_finish t _

theorem shape_loadDesc {plan : Temps → Temps} (h : loadDescSteps plan s l = some t) :
    Shape p q r x s t := by
  unfold loadDescSteps at h
  split at h <;> cases h <;> exact .load fun v t => latch_goto _ _

theorem shape_produce {fin : State → State} (hf : ∀ t, Ctx p q t (fin t))
    (h : produceSteps fin s l = some t) : Shape p q r x s t := by
  unfold produceSteps at h
  split at h
  · cases h
    split
    · exact .copyByte
    · exact .ctx (ctx_goto s _)
  · cases h; exact .fenced
  · cases h; exact .store fun t => ctx_report t hf _
  · exact shape_loadDesc h

theorem shape_consume {fin : State → State} (hf : ∀ t, Ctx p q t (fin t))
    (h : consumeSteps fin s l = some t) : Shape p q r x s t := by
  unfold consumeSteps at h
  split at h
  · cases h
    split
    · exact .copyByte
    · exact .ctx (ctx_goto s _)
  · cases h; exact .fenced
  · cases h; exact .store fun t => ctx_report t hf _
  · exact shape_loadDesc h

theorem shape_peek (h : peekSteps s l = some t) : Shape p q r x s t := by
  unfold peekSteps at h
  split at h
  · cases h
    split
    · exact .copyByte
    · exact .ctx (ctx_report s (fun t => ctx_done t) _)
  · exact shape_loadDesc h

theorem shape_linear {fin : State → State} (hf : ∀ t, Ctx p true t (fin t))
    (h : linearSteps fin s l = some t) : Shape p true r x s t := by
  unfold linearSteps at h
  split at h <;> cases h
  · exact .load fun v t => latch_goto _ _
  · exact .load fun v t => latch_goto _ _
  · exact .load fun v t => ((ctx_updTmp t _).trans (Ctx.of_updMe tame_extent)).trans (hf _)

theorem shape_skip (h : skipSteps s l = some t) : Shape p q r x s t := by
  unfold skipSteps at h
  split at h <;> cases h
  · exact .load fun v t => latch_goto _ _
  · exact .fenced
  · exact .store fun t => ctx_finish t _

theorem shape_locked {inner : (State → State) → State → Label → Option State}
    (hi : ∀ {l t}, inner (fun t => t.goto .lz) s l = some t → Shape p q r x s t)
    (h : lockedSteps inner s l = some t) : Shape p q r x s t := by
  unfold lockedSteps at h
  split at h
  · cases h; exact .acquired
  · cases h; exact .released (ctx_done _)
  · exact hi h

theorem shape_lock (h : lockSteps s l = some t) : Shape p q r x s t := by
  unfold lockSteps at h
  split at h <;> cases h
  exact .masked (ctx_setR0 s _) (ctx_finish _ _)

theorem shape_unlock (h : unlockSteps s l = some t) : Shape p q r x s t := by
  unfold unlockSteps at h
  split at h <;> cases h
  exact .released (ctx_finish _ _)

theorem shape_nest {f : Word → Word} (h : nestSteps f s l = some t) : Shape p q true x s t := by
  unfold nestSteps at h
  split at h <;> cases h
  · exact .acquired
  · exact .ctx (latch_goto _ _)
  · exact .prim (.count _ rfl) (ctx_goto _ _)
  · exact .released (ctx_finish _ _)

theorem shape_inInt (h : inIntSteps s l = some t) : Shape p q r x s t := by
  unfold inIntSteps at h
  split at h <;> cases h
  exact .ctx (setR0_finish _ _)

theorem shape_spinit (h : spinitSteps s l = some t) : Shape p q r x s t := by
  unfold spinitSteps at h
  split at h <;> cases h
  · exact .store fun t => ctx_goto t _
  · exact .store fun t => ctx_finish t _

theorem shape_splock (h : splockSteps s l = some t) : Shape p q r true s t := by
  unfold splockSteps at h
  split at h <;> cases h
  · exact .acquired
  · exact .ll fun v t => latch_goto _ _
  · split
    · exact .prim .release (ctx_goto _ _)
    · exact .sc (fun t => ctx_goto t _) fun t => ctx_goto t _
  · exact .fenced
  · exact .store fun t => ctx_finish t _

theorem shape_sptry (h : sptrySteps s l = some t) : Shape p q r true s t := by
  unfold sptrySteps at h
  split at h <;> cases h
  · exact .acquired
  · exact .ll fun v t => latch_goto _ _
  · split
    · exact .prim .release (ctx_goto _ _)
    · exact .sc (fun t => ctx_goto t _) fun t => ctx_goto t _
  · exact .fenced
  · exact .store fun t => setR0_finish _ _
  · exact .released (setR0_finish _ _)

theorem shape_spunlock (h : spunlockSteps s l = some t) : Shape p q r x s t := by
  unfold spunlockSteps at h
  split at h <;> cases h
  · exact .load fun v t => latch_goto _ _
  · exact .fenced
  · exact .store fun t => ctx_goto t _
  · exact .released (ctx_finish _ _)

/-- What one micro-step of any command can do. -/
theorem exec_shape {i : Instr} (h : exec i s = .next t) :
    Shape (decide (i = .acas)) (decide (i = .rlin ∨ i = .rlinl))
      (decide (i = .intenter ∨ i = .intleave))
      (i.op.isRmw || decide (i = .splock ∨ i = .sptry)) s t := by
  obtain ⟨l, _, h⟩ := exec_next h
  cases i <;> simp only [stepsOf] at h
  case aload => exact shape_rmw tame_old h
  case astore => exact shape_rmw tame_none h
  case aadd => exact shape_rmw tame_old h
  case asub => exact shape_rmw tame_old h
  case aand => exact shape_rmw tame_old h
  case aor => exact shape_rmw tame_old h
  case axor => exact shape_rmw tame_old h
  case axchg => exact shape_rmw tame_old h
  case afclr => exact shape_rmw tame_none h
  case aftas => exact shape_rmw tame_old h
  case acas => exact shape_acas h
  case bsetB | bsetH | bsetW | bclrB | bclrH | bclrW | bchgB | bchgH | bchgW =>
    exact shape_rmw tame_none h
  case btstB | btstH | btstW => exact shape_btst h
  case btasB | btasH | btasW | btacB | btacH | btacW | btchB | btchH | btchW =>
    exact shape_rmw (tame_bit _) h
  case rinit => exact shape_rinit h
  case rprod => exact shape_produce (fun t => ctx_done t) h
  case rcons => exact shape_consume (fun t => ctx_done t) h
  case rpeek => exact shape_peek h
  case rlin => exact shape_linear (fun t => ctx_done t) h
  case rskip => exact shape_skip h
  case rprodl => exact shape_locked (shape_produce fun t => ctx_goto t _) h
  case rconsl => exact shape_locked (shape_consume fun t => ctx_goto t _) h
  case rlinl => exact shape_locked (shape_linear fun t => ctx_goto t _) h
  case irqlock | csenter => exact shape_lock h
  case irqunlock | csexit => exact shape_unlock h
  case intenter | intleave => exact shape_nest h
  case inint => exact shape_inInt h
  case spinit => exact shape_spinit h
  case splock => exact shape_splock h
  case sptry => exact shape_sptry h
  case spunlock => exact shape_spunlock h


end steps

end Sys2Proof.Machine
end

