-- ==== Sys2Proof/Laws/Shape.lean ====
section
/-! SUPPORT. What follows from the shape of a micro-step: the frame of every command, what it leaves in its
context, in every core and of every reservation. -/

namespace Sys2Proof.Machine

variable {s t u : State} {p q r x : Bool}

theorem ctx_cfg (g : Ctx p q s t) : t.cfg = s.cfg := by obtain ⟨f, n, _, rfl⟩ := g; rfl

theorem prim_cfg (g : Prim r x s t) : t.cfg = s.cfg := by cases g <;> rfl

/-- A micro-step keeps the configuration. -/
theorem shape_cfg (g : Shape p q r x s t) : t.cfg = s.cfg := by
  cases g with
  | acts s' u h1 h2 h3 => rw [ctx_cfg h3, prim_cfg h2, ctx_cfg h1]
  | faults f a e => subst e; rfl
  | faultsLate f a b _ e => subst e; rfl

theorem ctx_len (g : Ctx p q s t) : t.cores.length = s.cores.length :=
    by obtain ⟨f, n, _, rfl⟩ := g; exact updMe_cores_length s f

theorem prim_len (g : Prim r x s t) : t.cores.length = s.cores.length := by cases g <;> simp

theorem shape_len (g : Shape p q r x s t) : t.cores.length = s.cores.length := by
  cases g with
  | acts s' u h1 h2 h3 => rw [ctx_len h3, prim_len h2, ctx_len h1]
  | faults f a e => subst e; simp
  | faultsLate f a b _ e => subst e; simp

theorem ctx_mem (g : Ctx p q s t) : t.mem = s.mem := by obtain ⟨f, n, _, rfl⟩ := g; rfl

theorem ctx_live (g : Ctx p q s t) : t.live = s.live := by obtain ⟨f, n, _, rfl⟩ := g; exact updMe_live s f

theorem ctx_same (g : Ctx p q s t) : SameElse s t := by
  obtain ⟨f, n, _, rfl⟩ := g; exact (OnlyContext.of_updMe f (.inr ⟨n, rfl⟩)).toSameElse

theorem ctx_only (g : Ctx p q s t) : OnlyContext s t := by
  obtain ⟨f, n, _, rfl⟩ := g; exact (OnlyContext.of_updMe f (.inr ⟨n, rfl⟩))

theorem ctx_me (g : Ctx p q s t) (hl : s.live) : Tame p q s.me t.me := by
  obtain ⟨f, n, h, rfl⟩ := g
  have : ({ s.updMe f with fresh := n } : State).me = f s.me := updMe_me s f hl
  rw [this]; exact h _

theorem prim_live (g : Prim r x s t) : t.live = s.live := by cases g <;> first | rfl | simp

theorem prim_me (g : Prim r x s t) : t.me = s.me := by cases g <;> first | rfl | simp

theorem prim_same (g : Prim r x s t) : SameElse s t := by
  cases g <;> exact ⟨rfl, rfl, rfl, by simp, by first | (intro k; rfl) | simp,
      by first | (intro k l _; rfl) | simp⟩

/-- A micro-step changes nothing of the other contexts, the depths or the configuration. -/
theorem shape_same (g : Shape p q r x s t) : SameElse s t := by
  cases g with
  | acts s' u h1 h2 h3 => exact ((ctx_same h1).trans (prim_same h2)).trans (ctx_same h3)
  | faults f a e => subst e; exact (raise_only s f a).toSameElse
  | faultsLate f a b _ e => subst e; exact (record_read_only s b .byte).toSameElse.trans (raise_only _ f a).toSameElse

/-- What a micro-step leaves of its own context: registers as `Tame` says, or a fault taken. -/
theorem shape_me (hl : s.live) (g : Shape p q r x s t) :
    Tame p q s.me t.me ∨ ∃ f : AccessFault, ∃ a,
      t.me = { s.me with fsr := f.code, far := a, phase := .faulted } := by
  cases g with
  | acts s' u h1 h2 h3 =>
    left
    have a := ctx_me h1 hl
    have b := prim_me h2
    have c := ctx_me h3 (by rw [prim_live h2, ctx_live h1]; exact hl)
    rw [b] at c
    exact a.trans c
  | faults f a e => subst e; right; exact ⟨f, a, raise_me s f a hl⟩
  | faultsLate f a b _ e => subst e; right; exact ⟨f, a, raise_me (s.record _) f a hl⟩

theorem prim_nest (g : Prim false x s t) : t.nest = s.nest := by cases g <;> first | rfl | contradiction

/-- A micro-step that is no nesting command keeps `NEST`. -/
theorem shape_nestW (g : Shape p q r x s t) (h : r = false) : t.nest = s.nest := by
  subst h
  cases g with
  | acts s' u h1 h2 h3 => rw [(ctx_only h3).nest, prim_nest h2, (ctx_only h1).nest]
  | faults f a e => subst e; rfl
  | faultsLate f a b _ e => subst e; rfl

theorem prim_imask (g : Prim r x s t) : ∀ k, k ≠ s.actor → t.imask k = s.imask k := by
  cases g
  case mask => intro k hk; rw [setImask_imask]; simp [hk]
  all_goals intro k hk; first | rfl | simp

/-- A micro-step writes no other core's `IMASK`. -/
theorem shape_imask (g : Shape p q r x s t) : ∀ k, k ≠ s.actor → t.imask k = s.imask k := by
  intro k hk
  cases g with
  | acts s' u h1 h2 h3 => rw [(ctx_only h3).masks, prim_imask h2 k (by rwa [(ctx_only h1).actor]),
      (ctx_only h1).masks]
  | faults f a e => subst e; simp
  | faultsLate f a b _ e => subst e; simp

theorem exec_live {i : Instr} (h : exec i s = .next t) : s.live = true := by
  obtain ⟨l, hp, _⟩ := exec_next h; exact live_at hp

theorem goto_faulted {ph : Phase} {m} (h : ph ≠ .faulted) : ph.goto m ≠ .faulted :=
    by cases ph <;> simp [Phase.goto] at *

theorem tame_fault {c d : Context} (g : Tame p q c d) (h : c.phase ≠ .faulted) : d.phase ≠ .faulted := by
  rcases g.phase with e | e | ⟨m, e⟩ <;> rw [e]
  · exact h
  · simp
  · exact goto_faulted h

/-- A micro-step changes no context but the executing one. -/
theorem exec_port {i} (h : exec i s = .next t) (k l : Nat) : t.port k l = s.port k l ∨ (k = s.actor ∧
    l = s.depth s.actor ∧ t.port k l = t.me) := by
  have g := shape_same (exec_shape h)
  by_cases hc : k = s.actor ∧ l = s.depth s.actor
  · right; obtain ⟨rfl, rfl⟩ := hc; refine ⟨rfl, rfl, ?_⟩; rw [me_eq_port, g.actor, g.depth]
  · exact .inl (g.ports k l hc)

/-- A micro-step leaves the running contexts of the other cores as they are. -/
theorem exec_running {i} (hx : exec i s = .next t) (k) (hk : k ≠ s.actor) : t.running k = s.running k := by
  have g := shape_same (exec_shape hx)
  rw [running_eq_port, running_eq_port, g.depth]
  exact g.ports k _ (fun h => hk h.1)

theorem exec_phase_op {i} (hx : exec i s = .next t) : ∀ op lbl, t.me.phase = .at op lbl → op = i.op := by
  intro op lbl h
  obtain ⟨l, hp, _⟩ := exec_next hx
  rcases shape_me (exec_live hx) (exec_shape hx) with g | ⟨f, a, e⟩
  · rcases g.phase with e | e | ⟨m, e⟩ <;> rw [h] at e
    · rw [hp] at e; cases e; rfl
    · cases e
    · rw [hp] at e; cases e; rfl
  · rw [e] at h; cases h

/-- A granule's address is its own granule (20_memory R63). -/
theorem granule_granule (a : Word) : granule (granule a) = granule a := by
  unfold granule; rw [BitVec.and_assoc]; rfl

theorem granule_shift (a : Word) : granule a = (a >>> 2) <<< 2 := by
  unfold granule
  refine BitVec.eq_of_getLsbD_eq fun j hj => ?_
  rw [BitVec.getLsbD_and, BitVec.getLsbD_shiftLeft, BitVec.getLsbD_ushiftRight]
  rcases Nat.lt_or_ge j 2 with h | h
  · have : j = 0 ∨ j = 1 := by omega
    rcases this with rfl | rfl <;> simp
  · have : (0xFFFFFFFC#32).getLsbD j = true := by
      have : ∀ j < 32, 2 ≤ j → (0xFFFFFFFC#32).getLsbD j = true := by decide
      exact this j hj h
    rw [this]
    simp [hj, show ¬ j < 2 by omega, show 2 + (j - 2) = j by omega]

/-- The granule of an address is its multiple of 4 (20_memory R63). -/
theorem granule_toNat (a : Word) : (granule a).toNat = a.toNat / 4 * 4 := by
  rw [granule_shift, BitVec.toNat_shiftLeft, BitVec.toNat_ushiftRight, Nat.shiftRight_eq_div_pow,
      Nat.shiftLeft_eq]
  have := a.isLt
  omega

theorem granule_eq {a b : Word} : granule a = granule b ↔ a.toNat / 4 = b.toNat / 4 := by
  rw [← BitVec.toNat_inj, granule_toNat, granule_toNat]; omega

/-- A store to one granule leaves a cell of another granule as it was. -/
theorem read_write_other {m : Memory} {a b : Word} {w w' : Width} {v} (ha : a.toNat % w.bytes = 0)
    (hb : b.toNat % w'.bytes = 0)
    (h : granule a ≠ granule b) : (m.write b.toNat w' v).read a.toNat w = m.read a.toNat w := by
  rw [Ne, granule_eq] at h
  refine Memory.read_congr fun x h1 h2 => Memory.get_write_outside _ _ _ ?_
  cases w <;> cases w' <;> simp only [Width.bytes] at * <;> omega

/-- A reservation that is held after a step was held before it (another core's) and its cell keeps its value. -/
def KeepsLinked (s t : State) : Prop := ∀ (a : Word) (w : Width), accessFault s.cfg a w = none → ∀ j,
    t.resv j = some (granule a) →
  (j ≠ s.actor → s.resv j = some (granule a)) ∧ t.mem.read a.toNat w = s.mem.read a.toNat w

theorem link_of_same (hr : ∀ j, j ≠ s.actor → t.resv j = s.resv j) (hm : t.mem = s.mem) : KeepsLinked s t :=
  fun a w _ j h => ⟨fun hj => by rw [← hr j hj, h], by rw [hm]⟩

theorem link_write {b : Word} {w' v} (hb : accessFault s.cfg b w' = none) (hr : ∀ j,
    t.resv j = if s.resv j = some (granule b) then none else s.resv j)
   (hm : t.mem = s.mem.write b.toNat w' v) : KeepsLinked s t := by
  intro a w ha j h
  rw [hr] at h
  split at h
  · cases h
  · next hne =>
    refine ⟨fun _ => h, ?_⟩
    rw [hm]
    refine read_write_other (accessible_iff.1 ha).1 (accessible_iff.1 hb).1 ?_
    intro e; rw [h, e] at hne; exact hne rfl

theorem prim_link (g : Prim r x s t) : KeepsLinked s t := by
  cases g with
  | none => exact link_of_same (fun _ _ => rfl) rfl
  | read => exact link_of_same (fun _ _ => rfl) rfl
  | reserve => exact link_of_same (fun j hj => by rw [setResv_resv]; simp [hj]) rfl
  | write a w v ha => exact link_write ha (fun j => by rw [record_resv, writeMem_resv]) rfl
  | move a b ha hb => exact link_write hb (fun j => by rw [record_resv, writeMem_resv]; rfl) rfl
  | release => exact link_of_same (fun j hj => by simp [hj]) rfl
  | fence => exact link_of_same (fun _ _ => rfl) rfl
  | mask => exact link_of_same (fun j hj => by simp) rfl
  | count => exact link_of_same (fun _ _ => rfl) rfl

/-- Every micro-step meets `KeepsLinked` (20_memory R66). -/
theorem shape_link (g : Shape p q r x s t) : KeepsLinked s t := by
  cases g with
  | acts s' u h1 h2 h3 =>
    have a := ctx_only h1
    have c := ctx_only h3
    intro a' w ha j h
    rw [c.resv] at h
    have := prim_link h2 a' w (by rw [a.cfg]; exact ha) j h
    rw [a.actor, a.resv, ctx_mem h1] at this
    rw [ctx_mem h3]; exact this
  | faults f a e => subst e; exact link_of_same (fun j _ => by simp) rfl
  | faultsLate f a b _ e => subst e; exact link_of_same (fun j _ => by simp) rfl

theorem prim_resv_none (g : Prim r false s t) (h : s.resv s.actor = none) : t.resv s.actor = none := by
  cases g with
  | reserve a w g _ hg =>
    rcases hg with rfl | ⟨h', _⟩
    · rw [setResv_resv]; split
      · rfl
      · exact h
    · cases h'
  | none => exact h
  | read => exact h
  | write a w v _ => rw [record_resv, writeMem_resv]; simp [h]
  | move a b _ _ => rw [record_resv, writeMem_resv, record_resv]; simp [h]
  | release => simp
  | fence => exact h
  | mask => simp [h]
  | count => exact h

/-- A micro-step that takes no reservation leaves a core without one without one. -/
theorem shape_resv_none (g : Shape p q r false s t) (h : s.resv s.actor = none) : t.resv s.actor = none :=
    by
  cases g with
  | acts s' u h1 h2 h3 =>
    have a := ctx_only h1
    have c := ctx_only h3
    rw [c.resv, ← a.actor]
    exact prim_resv_none h2 (by rw [a.resv, a.actor]; exact h)
  | faults f a e => subst e; simpa using h
  | faultsLate f a b _ e => subst e; simpa using h

/-- A micro-step keeps or clears another core's reservation. -/
theorem shape_resv_other (g : Shape p q r x s t) (j) (hj : j ≠ s.actor) : t.resv j = s.resv j ∨
    t.resv j = none := by
  have pr : ∀ {s t : State}, Prim r x s t → j ≠ s.actor → t.resv j = s.resv j ∨ t.resv j = none := by
    intro s t g hj
    cases g with
    | reserve a w g _ hg => left; rw [setResv_resv]; simp [hj]
    | write a w v _ => rw [record_resv,
        writeMem_resv]; by_cases h : s.resv j = some (granule a) <;> simp [h]
    | move a b _ _ => rw [record_resv, writeMem_resv,
        record_resv]; by_cases h : s.resv j = some (granule b) <;> simp [h]
    | release => left; simp [hj]
    | _ => left; first | rfl | simp
  cases g with
  | acts s' u h1 h2 h3 =>
    have a := ctx_only h1
    have c := ctx_only h3
    rw [c.resv]
    have := pr h2 (by rwa [a.actor])
    rwa [a.resv] at this
  | faults f a e => subst e; left; simp
  | faultsLate f a b _ e => subst e; left; simp

/-- A property of every entry is kept by changing one entry in a way that keeps it. -/
theorem forall_mem_modify {α} {P : α → Prop} {l : List α} {k : Nat} {f : α → α} (h : ∀ c ∈ l, P c)
    (hf : ∀ c, l[k]? = some c → P c → P (f c)) : ∀ c ∈ l.modify k f, P c := by
  intro c hc
  obtain ⟨j, hj⟩ := List.getElem?_of_mem hc
  rw [List.getElem?_modify] at hj
  cases hl : l[j]? with
  | none => simp [hl] at hj
  | some d =>
    have hd := h d (List.mem_of_getElem? hl)
    simp only [hl, Option.map_eq_map, Option.map_some, Option.some.injEq] at hj
    split at hj <;> subst hj
    · next e => subst e; exact hf d hl hd
    · exact hd

/-- A property of a core that the updates of registers, mask and reservation keep. -/
structure CoreProp (P : CoreState → Prop) : Prop where
  upd : ∀ c f, P c → P (CoreState.updRunning c f)
  none : ∀ c, P c → P { c with resv := Option.none }
  mask : ∀ c v, P c → P { c with imask := v &&& 1#32 }
  some : ∀ c g, P c → P { c with resv := Option.some (granule g) }

/-- A property holds of every core. -/
def AllCores (P : CoreState → Prop) (s : State) : Prop := ∀ c ∈ s.cores, P c

variable {P : CoreState → Prop}

theorem all_ctx (hP : CoreProp P) (h : AllCores P s) (g : Ctx p q s t) : AllCores P t := by
  obtain ⟨f, n, _, rfl⟩ := g
  exact forall_mem_modify h fun c _ hc => hP.upd _ _ hc

theorem all_write (hP : CoreProp P) (h : AllCores P s) (a w v) : AllCores P (s.writeMem a w v) := by
  intro c hc
  obtain ⟨d, hd, rfl⟩ := List.mem_map.1 hc
  split
  · exact hP.none _ (h d hd)
  · exact h d hd

theorem all_raise (hP : CoreProp P) (h : AllCores P s) (f a) : AllCores P (s.raise f a) :=
    forall_mem_modify h fun _ _ hc => hP.upd _ _ hc

theorem all_prim (hP : CoreProp P) (h : AllCores P s) (g : Prim r x s u) : AllCores P u := by
  cases g
  case none => exact h
  case read => exact h
  case reserve a w g ha hg =>
    rcases hg with rfl | ⟨_, rfl⟩
    · exact forall_mem_modify h fun c _ hc => hP.none _ hc
    · exact forall_mem_modify h fun c _ hc => hP.some _ _ hc
  case write a w v _ => exact all_write hP h a w v
  case move a b _ _ => exact all_write hP (s :=
      s.record (.read a .byte (s.mem.read a.toNat .byte))) h b .byte (s.mem.read a.toNat .byte)
  case release => exact forall_mem_modify h fun c _ hc => hP.none _ hc
  case fence => exact h
  case mask => exact forall_mem_modify h fun c _ hc => hP.mask _ _ hc
  case count => exact h

/-- Every micro-step keeps such a property of every core. -/
theorem all_shape (hP : CoreProp P) (h : AllCores P s) (g : Shape p q r x s t) : AllCores P t := by
  cases g with
  | acts s' u h1 h2 h3 => exact all_ctx hP (all_prim hP (all_ctx hP h h1) h2) h3
  | faults f a e => subst e; exact all_raise hP h _ _
  | faultsLate f a b _ e => subst e; exact all_raise hP (s := s.record _) h _ _

end Sys2Proof.Machine
end

