-- ==== Sys2Proof/Laws/Events.lean ====
section
/-! SUPPORT. What the events of the environment can do, and how a property of every step is proved. -/

namespace Sys2Proof.Machine

variable {s t u : State} {p q r x : Bool}

/-- A host event that answers acted on an idle running context (30_encoding R80). -/
theorem hostEvent_next {s t : State} {k : Nat} {f : State → State} (h : s.hostEvent k f = .next t) :
    k < s.cfg.ncore ∧ (s.running k).phase = .idle ∧ t = f (s.actAs k) := by
  unfold State.hostEvent at h
  split at h
  · split at h
    · cases h; exact ⟨‹_›, ‹_›, rfl⟩
    · cases h
  · cases h

/-- What an event of the host does to the context it acts on. -/
inductive HostCtx : Event → Nat → (Context → Context) → Prop
  | issue k w : HostCtx (.issue k w) k (fun c => c.issue w)
  | setArg k a v : HostCtx (.setArg k a v) k (fun c => c.setArg a v)
  | copyArg k a r : HostCtx (.copyArg k a r) k (fun c => c.setArg a (c.result r))

/-- Everything an event that is no micro-step can do (60_exceptions R222). -/
inductive EnvStep (s : State) : Event → State → Prop
  | ctx {e k f} : HostCtx e k f → k < s.cfg.ncore → (s.running k).phase = .idle →
      EnvStep s e ((s.actAs k).updMe f)
  | readPort k r : k < s.cfg.ncore → (s.running k).phase = .idle → EnvStep s (.readPort k r) (s.actAs k)
  | hostRead k a w : k < s.cfg.ncore → (s.running k).phase = .idle → accessFault s.cfg a w = none →
      EnvStep s (.hostRead k a w) ((s.actAs k).record (.read a w (s.mem.read a.toNat w)))
  | hostWrite k a w v : k < s.cfg.ncore → (s.running k).phase = .idle → accessFault s.cfg a w = none →
      EnvStep s (.hostWrite k a w v) (((s.actAs k).writeMem a w v).record (.write a w v))
  | readFault k a w f : k < s.cfg.ncore → (s.running k).phase = .idle → EnvStep s (.hostRead k a w)
      ((s.actAs k).raise f a)
  | writeFault k a w v f : k < s.cfg.ncore → (s.running k).phase = .idle → EnvStep s (.hostWrite k a w v)
      ((s.actAs k).raise f a)
  | deliver k : k < s.cfg.ncore → s.mayDeliver k = true → EnvStep s (.deliver k) (s.enterHandler k)
  | ret k : k < s.cfg.ncore → s.mayReturn k = true → EnvStep s (.ret k) (s.leaveHandler k)
  | lose k : k < s.cfg.ncore → EnvStep s (.lose k) (s.loseResv k)

/-- An event that answers did one of the things of `EnvStep`. -/
theorem env_next {s t : State} {e : Event} (h : s.environment e = .next t) : EnvStep s e t := by
  cases e <;> simp only [State.environment] at h
  · cases h
  · obtain ⟨hk, hi, rfl⟩ := hostEvent_next h; exact .ctx (.issue _ _) hk hi
  · obtain ⟨hk, hi, rfl⟩ := hostEvent_next h; exact .ctx (.setArg _ _ _) hk hi
  · obtain ⟨hk, hi, rfl⟩ := hostEvent_next h; exact .ctx (.copyArg _ _ _) hk hi
  · obtain ⟨hk, hi, rfl⟩ := hostEvent_next h; exact .readPort _ _ hk hi
  · obtain ⟨hk, hi, rfl⟩ := hostEvent_next h
    rename_i k a w
    rcases load_cases (s.actAs k) a w (fun _ u => u) with ⟨f, _, e⟩ | ⟨ha, e⟩ <;> rw [e]
    · exact .readFault _ _ _ _ hk hi
    · exact .hostRead _ _ _ hk hi ha
  · obtain ⟨hk, hi, rfl⟩ := hostEvent_next h
    rename_i k a w v
    rcases store_cases (s.actAs k) a w v (fun u => u) with ⟨f, _, e⟩ | ⟨ha, e⟩ <;> rw [e]
    · exact .writeFault _ _ _ _ _ hk hi
    · exact .hostWrite _ _ _ _ hk hi ha
  all_goals
    split at h
    · split at h <;> cases h
      first | exact .deliver _ ‹_› ‹_› | exact .ret _ ‹_› ‹_› | exact .lose _ ‹_›
    · cases h

/-- What every micro-step and every event of the environment keeps, every step keeps. -/
theorem step_keeps {P : State → Prop} (hs : ∀ s rest, P s → P { s with schedule := rest })
    (hm : ∀ s i k t, P s → s.cfg.legal = true → k < s.cfg.ncore → exec i (s.actAs k) = .next t → P t)
    (he : ∀ s e t, P s → s.cfg.legal = true → EnvStep s e t → P t) {s t : State} (h : P s)
        (hst : step s = .next t) : P t := by
  obtain ⟨hl, ⟨_, rfl⟩ | ⟨k, rest, i, _, hk, _, _, hx⟩ | ⟨e, rest, _, _, hx⟩⟩ := step_next hst
  · exact h
  · exact hm _ i k t (hs s rest h) hl hk hx
  · exact he _ e t (hs s rest h) hl (env_next hx)

variable {P : CoreState → Prop}

/-- Every event of the environment keeps it, if entry and return do. -/
theorem all_env (hP : CoreProp P) (h : AllCores P s) {e} (g : EnvStep s e t)
    (hd : ∀ k c, s.mayDeliver k = true → s.cores[k]? = some c → P c → P { c with
          depth := c.depth + 1, resv := none, ports := c.ports.set (c.depth + 1) (Context.free s.fresh) })
    (hr : ∀ c, P c → P { c with depth := c.depth - 1, resv := none }) : AllCores P t := by
  cases g
  case ctx => exact forall_mem_modify h fun c _ hc => hP.upd _ _ hc
  case readPort => exact h
  case hostRead => exact h
  case hostWrite k a w v _ _ _ => exact all_write hP (s := s.actAs k) h a w v
  case readFault k a w f _ _ => exact all_raise hP (s := s.actAs k) h f a
  case writeFault k a w v f _ _ => exact all_raise hP (s := s.actAs k) h f a
  case deliver k _ hk => exact forall_mem_modify h fun c hc hp => hd k c hk hc hp
  case ret => exact forall_mem_modify h fun c _ hp => hr c hp
  case lose => exact forall_mem_modify h fun c _ hp => hP.none _ hp

/-- An event of the environment keeps the configuration. -/
theorem env_cfg {e} (g : EnvStep s e t) : t.cfg = s.cfg := by cases g <;> rfl

theorem env_len {e} (g : EnvStep s e t) : t.cores.length = s.cores.length := by
  cases g <;> simp [State.enterHandler, State.leaveHandler, State.loseResv]

theorem port_updMe_cases (f : Context → Context) (k l) :
    (s.updMe f).port k l = s.port k l ∨ (k = s.actor ∧ l = s.depth s.actor ∧
        (s.updMe f).port k l = f s.me) := by
  rw [updMe_port]
  split
  · next h => obtain ⟨⟨rfl, rfl⟩, _⟩ := h; exact .inr ⟨rfl, rfl, rfl⟩
  · exact .inl rfl

theorem enter_coreAt (s : State) (k j : Nat) : (s.enterHandler k).coreAt j =
    if j = k ∧ k < s.cores.length then
      { s.coreAt j with
        depth := (s.coreAt j).depth + 1, resv := none,
        ports := (s.coreAt j).ports.set ((s.coreAt j).depth + 1) (Context.free s.fresh) }
    else s.coreAt j :=
  coreAt_updCore s k j _

theorem leave_coreAt (s : State) (k j : Nat) : (s.leaveHandler k).coreAt j =
    if j = k ∧ k < s.cores.length then
      { s.coreAt j with depth := (s.coreAt j).depth - 1, resv := none }
    else s.coreAt j :=
  coreAt_updCore s k j _

theorem enter_port {s : State} (k j l) : (s.enterHandler k).port j l = s.port j l ∨ (j = k ∧
    l = s.depth k + 1 ∧ (s.enterHandler k).port j l = Context.free s.fresh) := by
  unfold State.port
  rw [enter_coreAt]
  split
  · next h =>
    obtain ⟨rfl, _⟩ := h
    simp only [CoreState.port, List.getD_eq_getElem?_getD, List.getElem?_set]
    split
    · next h =>
      split
      · right; exact ⟨trivial, h.symm, rfl⟩
      · next h2 =>
        left
        have : (s.coreAt j).ports.length ≤ l := by omega
        simp [this]
    · left; rfl
  · left; rfl

theorem leave_port (k j l) : (s.leaveHandler k).port j l = s.port j l :=
  port_updCore s k (fun c => { c with depth := c.depth - 1, resv := none }) (fun _ => rfl) j l

theorem lose_port (k j l) : (s.loseResv k).port j l = s.port j l :=
  port_updCore s k (fun c => { c with resv := none }) (fun _ => rfl) j l

/-- What an event of the environment leaves in a context. -/
theorem env_port {e} (g : EnvStep s e t) (j l : Nat) : t.port j l = s.port j l ∨
    (l = s.depth j ∧ (s.running j).phase = .idle ∧ ∃ f, HostCtx e j f ∧ t.port j l = f (s.running j)) ∨
    (l = s.depth j ∧ (s.running j).phase = .idle ∧ ∃ f : AccessFault, ∃ a,
        t.port j l = { s.running j with fsr := f.code, far := a, phase := .faulted }) ∨
    (e = .deliver j ∧ l = s.depth j + 1 ∧ t.port j l = Context.free s.fresh) := by
  have key : ∀ (k : Nat) (f : Context → Context), ((s.actAs k).updMe f).port j l = s.port j l ∨ (j = k ∧
      l = s.depth k ∧ ((s.actAs k).updMe f).port j l = f (s.running k)) :=
    fun k f => port_updMe_cases (s := s.actAs k) f j l
  cases g with
  | @ctx _ k f hf hk hi =>
    rcases key k f with h | ⟨h1, h2, h⟩
    · exact .inl h
    · subst h1; exact .inr (.inl ⟨h2, hi, f, hf, h⟩)
  | readPort => exact .inl rfl
  | hostRead => exact .inl rfl
  | hostWrite => left; simp
  | readFault k a w f _ hi =>
    rcases key k (fun c => { c with fsr := f.code, far := a, phase := .faulted }) with h | ⟨h1, h2, h⟩
    · exact .inl h
    · subst h1; exact .inr (.inr (.inl ⟨h2, hi, f, a, h⟩))
  | writeFault k a w v f _ hi =>
    rcases key k (fun c => { c with fsr := f.code, far := a, phase := .faulted }) with h | ⟨h1, h2, h⟩
    · exact .inl h
    · subst h1; exact .inr (.inr (.inl ⟨h2, hi, f, a, h⟩))
  | deliver k _ _ =>
    rcases enter_port k j l with h | ⟨h1, h2, h⟩
    · exact .inl h
    · subst h1; exact .inr (.inr (.inr ⟨rfl, h2, h⟩))
  | ret => exact .inl (leave_port _ _ _)
  | lose => exact .inl (lose_port _ _ _)

theorem host_fsr {e k f} (h : HostCtx e k f) (c : Context) (hc : c.phase = .idle) : (f c).fsr = c.fsr ∧
    (f c).phase ≠ .faulted := by
  cases h
  case issue w => unfold Context.issue; cases decodeWord w <;> simp [hc]
  case setArg a v => cases a <;> simp [Context.setArg, hc]
  case copyArg a r => cases a <;> simp [Context.setArg, hc]

/-- What an event of the environment leaves in `DEPTH[k]`. -/
theorem env_depth {e} (g : EnvStep s e t) (j : Nat) : t.depth j = s.depth j ∨ (e = .deliver j ∧
    s.mayDeliver j = true ∧ t.depth j = s.depth j + 1) ∨ (e = .ret j ∧ s.mayReturn j = true ∧
    t.depth j = s.depth j - 1) := by
  cases g
  case ctx => left; simp
  case readPort => exact .inl rfl
  case hostRead => exact .inl rfl
  case hostWrite => left; simp
  case readFault => left; simp
  case writeFault => left; simp
  case deliver k _ hd =>
    unfold State.depth
    rw [enter_coreAt]
    split
    · next h => obtain ⟨rfl, _⟩ := h; exact .inr (.inl ⟨rfl, hd, rfl⟩)
    · exact .inl rfl
  case ret k _ hd =>
    unfold State.depth
    rw [leave_coreAt]
    split
    · next h => obtain ⟨rfl, _⟩ := h; exact .inr (.inr ⟨rfl, hd, rfl⟩)
    · exact .inl rfl
  case lose k _ => left; exact depth_updCore s k (fun c => { c with resv := none }) (fun _ => rfl) j

theorem resv_none_core (k j : Nat) (f : CoreState → CoreState) (hf : ∀ c, (f c).resv = none) :
    (s.updCore k f).resv j = s.resv j ∨ (s.updCore k f).resv j = none := by
  unfold State.resv
  rw [coreAt_updCore]; split
  · right; exact hf _
  · exact .inl rfl

/-- An event of the environment keeps or clears every reservation. -/
theorem env_resv {e} (g : EnvStep s e t) (j : Nat) : (t.resv j = s.resv j ∧ t.depth j = s.depth j) ∨
    t.resv j = none := by
  cases g with
  | ctx => left; simp
  | readPort => left; exact ⟨rfl, rfl⟩
  | hostRead => left; exact ⟨rfl, rfl⟩
  | hostWrite k a w v =>
    rw [record_resv, writeMem_resv, record_depth, writeMem_depth]
    by_cases h : (s.actAs k).resv j = some (granule a)
    · right; simp [h]
    · left; rw [if_neg h]; exact ⟨rfl, rfl⟩
  | readFault => left; simp
  | writeFault => left; simp
  | deliver k _ _ =>
    unfold State.resv State.depth
    rw [enter_coreAt]
    split
    · exact .inr rfl
    · exact .inl ⟨rfl, rfl⟩
  | ret k _ _ =>
    unfold State.resv State.depth
    rw [leave_coreAt]
    split
    · exact .inr rfl
    · exact .inl ⟨rfl, rfl⟩
  | lose k _ =>
    rcases resv_none_core (s := s) k j (fun c => { c with resv := none }) (fun _ => rfl) with h | h
    · exact .inl ⟨h, depth_updCore s k (fun c => { c with resv := none }) (fun _ => rfl) j⟩
    · exact .inr h

/-- Every event of the environment keeps a held reservation's cell (20_memory R66). -/
theorem env_link {e} (g : EnvStep s e t) : ∀ (a : Word) (w : Width), accessFault s.cfg a w = none → ∀ j,
    t.resv j = some (granule a) →
   s.resv j = some (granule a) ∧ t.mem.read a.toNat w = s.mem.read a.toNat w := by
  intro a w ha j h
  have h1 : s.resv j = some (granule a) := by
    rcases env_resv g j with ⟨e, _⟩ | e <;> rw [e] at h
    · exact h
    · cases h
  refine ⟨h1, ?_⟩
  cases g with
  | hostWrite k b w' v _ _ hb =>
    rw [record_resv, writeMem_resv, actAs_resv] at h
    by_cases hne : s.resv j = some (granule b)
    · simp [hne] at h
    · refine read_write_other (accessible_iff.1 ha).1 (accessible_iff.1 hb).1 ?_
      intro e; rw [h1, e] at hne; exact hne rfl
  | _ => rfl

/-- A store that passed its checks keeps the memory canonical and populated. -/
theorem memOk_write {s : State} (h : s.MemOk) {a w} (ha : accessFault s.cfg a w = none) (v) (t : State)
    (hm : t.mem = s.mem.write a.toNat w v) (hc : t.cfg = s.cfg) : t.MemOk := by
  have hA := accessible_iff.1 ha
  refine ⟨by rw [hm]; exact Memory.write_wf h.wf _ _ _, ?_⟩
  intro c hcm
  rw [hm] at hcm
  rw [hc]
  have key : c ∈ s.mem ∨ (a.toNat ≤ c.1 ∧ c.1 < a.toNat + w.bytes) := by
    cases w <;> simp only [Memory.write, Width.bytes] at hcm ⊢
    · rcases Memory.mem_set hcm with h | h
      · exact .inl h
      · right; rw [h.1]; simp
    · rcases Memory.mem_set hcm with h | h
      · rcases Memory.mem_set h with h | h
        · exact .inl h
        · right; rw [h.1]; simp
      · right; rw [h.1]; simp
    · rcases Memory.mem_set hcm with h | h
      · rcases Memory.mem_set h with h | h
        · rcases Memory.mem_set h with h | h
          · rcases Memory.mem_set h with h | h
            · exact .inl h
            · right; rw [h.1]; simp
          · right; rw [h.1]; simp
        · right; rw [h.1]; simp
      · right; rw [h.1]; simp
  rcases key with h1 | ⟨h1, h2⟩
  · exact h.populated c h1
  · obtain ⟨_, h3, h4⟩ := hA; omega

theorem memOk_same {s t : State} (h : s.MemOk) (hm : t.mem = s.mem) (hc : t.cfg = s.cfg) : t.MemOk :=
  ⟨by rw [hm]; exact h.wf, by rw [hm, hc]; exact h.populated⟩

theorem memOk_prim {s u : State} (h : s.MemOk) (g : Prim r x s u) : u.MemOk := by
  cases g
  case write a w v ha => exact memOk_write h ha v _ rfl rfl
  case move a b _ hb => exact memOk_write h hb _ _ rfl rfl
  all_goals exact memOk_same h rfl rfl

end Sys2Proof.Machine
end

