-- ==== Sys2Proof/Laws/PerInstr.lean ====
section
/-! SUPPORT. The per-instruction family `EncodesRow`: the word of a well-formed command matches the row of
spec/opcode_table.json that carries its mnemonic (30_encoding R81, R87, R93). -/

/-- The encoding of a well-formed command matches a row of the opcode table with its mnemonic. -/
def Sys2Proof.Laws.EncodesRow.Statement (i : Sys2Proof.Instr) : Prop :=
  i.wf = true →
    ∃ r ∈ Sys2Proof.opcodeTable, r.mnemonic = i.mnemonic ∧ r.accepts (Sys2Proof.encode i) = true

namespace Sys2Proof.Laws

/-- A row found by its position shows the statement. -/
theorem encodesRow_of_row {i : Instr} (n : Nat) (h : n < opcodeTable.length)
    (hm : (opcodeTable[n]).mnemonic = i.mnemonic)
    (ha : i.wf = true → (opcodeTable[n]).accepts (encode i) = true) :
    Sys2Proof.Laws.EncodesRow.Statement i :=
  fun hw => ⟨opcodeTable[n], List.getElem_mem h, hm, ha hw⟩

end Sys2Proof.Laws

theorem Sys2Proof.Laws.EncodesRow.aload :
    Sys2Proof.Laws.EncodesRow.Statement .aload :=
  Sys2Proof.Laws.encodesRow_of_row 0 (by decide) rfl (by decide)

theorem Sys2Proof.Laws.EncodesRow.astore :
    Sys2Proof.Laws.EncodesRow.Statement .astore :=
  Sys2Proof.Laws.encodesRow_of_row 1 (by decide) rfl (by decide)

theorem Sys2Proof.Laws.EncodesRow.aadd :
    Sys2Proof.Laws.EncodesRow.Statement .aadd :=
  Sys2Proof.Laws.encodesRow_of_row 2 (by decide) rfl (by decide)

theorem Sys2Proof.Laws.EncodesRow.asub :
    Sys2Proof.Laws.EncodesRow.Statement .asub :=
  Sys2Proof.Laws.encodesRow_of_row 3 (by decide) rfl (by decide)

theorem Sys2Proof.Laws.EncodesRow.aand :
    Sys2Proof.Laws.EncodesRow.Statement .aand :=
  Sys2Proof.Laws.encodesRow_of_row 4 (by decide) rfl (by decide)

theorem Sys2Proof.Laws.EncodesRow.aor :
    Sys2Proof.Laws.EncodesRow.Statement .aor :=
  Sys2Proof.Laws.encodesRow_of_row 5 (by decide) rfl (by decide)

theorem Sys2Proof.Laws.EncodesRow.axor :
    Sys2Proof.Laws.EncodesRow.Statement .axor :=
  Sys2Proof.Laws.encodesRow_of_row 6 (by decide) rfl (by decide)

theorem Sys2Proof.Laws.EncodesRow.axchg :
    Sys2Proof.Laws.EncodesRow.Statement .axchg :=
  Sys2Proof.Laws.encodesRow_of_row 7 (by decide) rfl (by decide)

theorem Sys2Proof.Laws.EncodesRow.afclr :
    Sys2Proof.Laws.EncodesRow.Statement .afclr :=
  Sys2Proof.Laws.encodesRow_of_row 8 (by decide) rfl (by decide)

theorem Sys2Proof.Laws.EncodesRow.aftas :
    Sys2Proof.Laws.EncodesRow.Statement .aftas :=
  Sys2Proof.Laws.encodesRow_of_row 9 (by decide) rfl (by decide)

theorem Sys2Proof.Laws.EncodesRow.acas :
    Sys2Proof.Laws.EncodesRow.Statement .acas :=
  Sys2Proof.Laws.encodesRow_of_row 10 (by decide) rfl (by decide)

theorem Sys2Proof.Laws.EncodesRow.bsetB (bit : BitVec 5) :
    Sys2Proof.Laws.EncodesRow.Statement (.bsetB bit) :=
  Sys2Proof.Laws.encodesRow_of_row 11 (by decide) rfl (by revert bit; decide)

theorem Sys2Proof.Laws.EncodesRow.bsetH (bit : BitVec 5) :
    Sys2Proof.Laws.EncodesRow.Statement (.bsetH bit) :=
  Sys2Proof.Laws.encodesRow_of_row 12 (by decide) rfl (by revert bit; decide)

theorem Sys2Proof.Laws.EncodesRow.bsetW (bit : BitVec 5) :
    Sys2Proof.Laws.EncodesRow.Statement (.bsetW bit) :=
  Sys2Proof.Laws.encodesRow_of_row 13 (by decide) rfl (by revert bit; decide)

theorem Sys2Proof.Laws.EncodesRow.bclrB (bit : BitVec 5) :
    Sys2Proof.Laws.EncodesRow.Statement (.bclrB bit) :=
  Sys2Proof.Laws.encodesRow_of_row 14 (by decide) rfl (by revert bit; decide)

theorem Sys2Proof.Laws.EncodesRow.bclrH (bit : BitVec 5) :
    Sys2Proof.Laws.EncodesRow.Statement (.bclrH bit) :=
  Sys2Proof.Laws.encodesRow_of_row 15 (by decide) rfl (by revert bit; decide)

theorem Sys2Proof.Laws.EncodesRow.bclrW (bit : BitVec 5) :
    Sys2Proof.Laws.EncodesRow.Statement (.bclrW bit) :=
  Sys2Proof.Laws.encodesRow_of_row 16 (by decide) rfl (by revert bit; decide)

theorem Sys2Proof.Laws.EncodesRow.bchgB (bit : BitVec 5) :
    Sys2Proof.Laws.EncodesRow.Statement (.bchgB bit) :=
  Sys2Proof.Laws.encodesRow_of_row 17 (by decide) rfl (by revert bit; decide)

theorem Sys2Proof.Laws.EncodesRow.bchgH (bit : BitVec 5) :
    Sys2Proof.Laws.EncodesRow.Statement (.bchgH bit) :=
  Sys2Proof.Laws.encodesRow_of_row 18 (by decide) rfl (by revert bit; decide)

theorem Sys2Proof.Laws.EncodesRow.bchgW (bit : BitVec 5) :
    Sys2Proof.Laws.EncodesRow.Statement (.bchgW bit) :=
  Sys2Proof.Laws.encodesRow_of_row 19 (by decide) rfl (by revert bit; decide)

theorem Sys2Proof.Laws.EncodesRow.btstB (bit : BitVec 5) :
    Sys2Proof.Laws.EncodesRow.Statement (.btstB bit) :=
  Sys2Proof.Laws.encodesRow_of_row 20 (by decide) rfl (by revert bit; decide)

theorem Sys2Proof.Laws.EncodesRow.btstH (bit : BitVec 5) :
    Sys2Proof.Laws.EncodesRow.Statement (.btstH bit) :=
  Sys2Proof.Laws.encodesRow_of_row 21 (by decide) rfl (by revert bit; decide)

theorem Sys2Proof.Laws.EncodesRow.btstW (bit : BitVec 5) :
    Sys2Proof.Laws.EncodesRow.Statement (.btstW bit) :=
  Sys2Proof.Laws.encodesRow_of_row 22 (by decide) rfl (by revert bit; decide)

theorem Sys2Proof.Laws.EncodesRow.btasB (bit : BitVec 5) :
    Sys2Proof.Laws.EncodesRow.Statement (.btasB bit) :=
  Sys2Proof.Laws.encodesRow_of_row 23 (by decide) rfl (by revert bit; decide)

theorem Sys2Proof.Laws.EncodesRow.btasH (bit : BitVec 5) :
    Sys2Proof.Laws.EncodesRow.Statement (.btasH bit) :=
  Sys2Proof.Laws.encodesRow_of_row 24 (by decide) rfl (by revert bit; decide)

theorem Sys2Proof.Laws.EncodesRow.btasW (bit : BitVec 5) :
    Sys2Proof.Laws.EncodesRow.Statement (.btasW bit) :=
  Sys2Proof.Laws.encodesRow_of_row 25 (by decide) rfl (by revert bit; decide)

theorem Sys2Proof.Laws.EncodesRow.btacB (bit : BitVec 5) :
    Sys2Proof.Laws.EncodesRow.Statement (.btacB bit) :=
  Sys2Proof.Laws.encodesRow_of_row 26 (by decide) rfl (by revert bit; decide)

theorem Sys2Proof.Laws.EncodesRow.btacH (bit : BitVec 5) :
    Sys2Proof.Laws.EncodesRow.Statement (.btacH bit) :=
  Sys2Proof.Laws.encodesRow_of_row 27 (by decide) rfl (by revert bit; decide)

theorem Sys2Proof.Laws.EncodesRow.btacW (bit : BitVec 5) :
    Sys2Proof.Laws.EncodesRow.Statement (.btacW bit) :=
  Sys2Proof.Laws.encodesRow_of_row 28 (by decide) rfl (by revert bit; decide)

theorem Sys2Proof.Laws.EncodesRow.btchB (bit : BitVec 5) :
    Sys2Proof.Laws.EncodesRow.Statement (.btchB bit) :=
  Sys2Proof.Laws.encodesRow_of_row 29 (by decide) rfl (by revert bit; decide)

theorem Sys2Proof.Laws.EncodesRow.btchH (bit : BitVec 5) :
    Sys2Proof.Laws.EncodesRow.Statement (.btchH bit) :=
  Sys2Proof.Laws.encodesRow_of_row 30 (by decide) rfl (by revert bit; decide)

theorem Sys2Proof.Laws.EncodesRow.btchW (bit : BitVec 5) :
    Sys2Proof.Laws.EncodesRow.Statement (.btchW bit) :=
  Sys2Proof.Laws.encodesRow_of_row 31 (by decide) rfl (by revert bit; decide)

theorem Sys2Proof.Laws.EncodesRow.rinit :
    Sys2Proof.Laws.EncodesRow.Statement .rinit :=
  Sys2Proof.Laws.encodesRow_of_row 32 (by decide) rfl (by decide)

theorem Sys2Proof.Laws.EncodesRow.rprod :
    Sys2Proof.Laws.EncodesRow.Statement .rprod :=
  Sys2Proof.Laws.encodesRow_of_row 33 (by decide) rfl (by decide)

theorem Sys2Proof.Laws.EncodesRow.rcons :
    Sys2Proof.Laws.EncodesRow.Statement .rcons :=
  Sys2Proof.Laws.encodesRow_of_row 34 (by decide) rfl (by decide)

theorem Sys2Proof.Laws.EncodesRow.rpeek :
    Sys2Proof.Laws.EncodesRow.Statement .rpeek :=
  Sys2Proof.Laws.encodesRow_of_row 35 (by decide) rfl (by decide)

theorem Sys2Proof.Laws.EncodesRow.rlin :
    Sys2Proof.Laws.EncodesRow.Statement .rlin :=
  Sys2Proof.Laws.encodesRow_of_row 36 (by decide) rfl (by decide)

theorem Sys2Proof.Laws.EncodesRow.rskip :
    Sys2Proof.Laws.EncodesRow.Statement .rskip :=
  Sys2Proof.Laws.encodesRow_of_row 37 (by decide) rfl (by decide)

theorem Sys2Proof.Laws.EncodesRow.rprodl :
    Sys2Proof.Laws.EncodesRow.Statement .rprodl :=
  Sys2Proof.Laws.encodesRow_of_row 38 (by decide) rfl (by decide)

theorem Sys2Proof.Laws.EncodesRow.rconsl :
    Sys2Proof.Laws.EncodesRow.Statement .rconsl :=
  Sys2Proof.Laws.encodesRow_of_row 39 (by decide) rfl (by decide)

theorem Sys2Proof.Laws.EncodesRow.rlinl :
    Sys2Proof.Laws.EncodesRow.Statement .rlinl :=
  Sys2Proof.Laws.encodesRow_of_row 40 (by decide) rfl (by decide)

theorem Sys2Proof.Laws.EncodesRow.irqlock :
    Sys2Proof.Laws.EncodesRow.Statement .irqlock :=
  Sys2Proof.Laws.encodesRow_of_row 41 (by decide) rfl (by decide)

theorem Sys2Proof.Laws.EncodesRow.irqunlock :
    Sys2Proof.Laws.EncodesRow.Statement .irqunlock :=
  Sys2Proof.Laws.encodesRow_of_row 42 (by decide) rfl (by decide)

theorem Sys2Proof.Laws.EncodesRow.csenter :
    Sys2Proof.Laws.EncodesRow.Statement .csenter :=
  Sys2Proof.Laws.encodesRow_of_row 43 (by decide) rfl (by decide)

theorem Sys2Proof.Laws.EncodesRow.csexit :
    Sys2Proof.Laws.EncodesRow.Statement .csexit :=
  Sys2Proof.Laws.encodesRow_of_row 44 (by decide) rfl (by decide)

theorem Sys2Proof.Laws.EncodesRow.intenter :
    Sys2Proof.Laws.EncodesRow.Statement .intenter :=
  Sys2Proof.Laws.encodesRow_of_row 45 (by decide) rfl (by decide)

theorem Sys2Proof.Laws.EncodesRow.intleave :
    Sys2Proof.Laws.EncodesRow.Statement .intleave :=
  Sys2Proof.Laws.encodesRow_of_row 46 (by decide) rfl (by decide)

theorem Sys2Proof.Laws.EncodesRow.inint :
    Sys2Proof.Laws.EncodesRow.Statement .inint :=
  Sys2Proof.Laws.encodesRow_of_row 47 (by decide) rfl (by decide)

theorem Sys2Proof.Laws.EncodesRow.spinit :
    Sys2Proof.Laws.EncodesRow.Statement .spinit :=
  Sys2Proof.Laws.encodesRow_of_row 48 (by decide) rfl (by decide)

theorem Sys2Proof.Laws.EncodesRow.splock :
    Sys2Proof.Laws.EncodesRow.Statement .splock :=
  Sys2Proof.Laws.encodesRow_of_row 49 (by decide) rfl (by decide)

theorem Sys2Proof.Laws.EncodesRow.sptry :
    Sys2Proof.Laws.EncodesRow.Statement .sptry :=
  Sys2Proof.Laws.encodesRow_of_row 50 (by decide) rfl (by decide)

theorem Sys2Proof.Laws.EncodesRow.spunlock :
    Sys2Proof.Laws.EncodesRow.Statement .spunlock :=
  Sys2Proof.Laws.encodesRow_of_row 51 (by decide) rfl (by decide)
end

