-- ==== Sys2Proof/Tests/Slice0.lean ====
section
/-! SUPPORT. Tests: the smoke test of well-formedness, the words of every command, one step of every command
on small states with values from spec/95_test_vectors.md, and for every statement with hypotheses a state and
operands that meet them. -/

namespace Sys2Proof.Tests

open Sys2Proof.Machine

/-! ### Well-formedness: the one check, `BIT` below the cell width (30_encoding R84) -/

theorem test_wf_refuses_bit_8_of_a_byte : (Instr.bsetB 8#5).wf = false := by decide
theorem test_wf_refuses_bit_16_of_a_halfword : (Instr.btchH 16#5).wf = false := by decide
theorem test_wf_accepts_the_last_bits :
    (Instr.bsetB 7#5).wf = true ∧ (Instr.btchH 15#5).wf = true ∧ (Instr.btacW 31#5).wf = true ∧
    Instr.aload.wf = true := by decide

/-! ### Decoding: `RSV BIT SZ OP` written out from 30_encoding R81 and R87 -/

theorem test_decode_aload :
    decodeWord (0b00000000000000000#17 ++ (0b00000#5 ++ (0b00#2 ++ 0b00010000#8))) = .ok .aload := by decide
theorem test_decode_astore :
    decodeWord (0b00000000000000000#17 ++ (0b00000#5 ++ (0b00#2 ++ 0b00010001#8))) = .ok .astore := by decide
theorem test_decode_aadd :
    decodeWord (0b00000000000000000#17 ++ (0b00000#5 ++ (0b00#2 ++ 0b00010010#8))) = .ok .aadd := by decide
theorem test_decode_asub :
    decodeWord (0b00000000000000000#17 ++ (0b00000#5 ++ (0b00#2 ++ 0b00010011#8))) = .ok .asub := by decide
theorem test_decode_aand :
    decodeWord (0b00000000000000000#17 ++ (0b00000#5 ++ (0b00#2 ++ 0b00010100#8))) = .ok .aand := by decide
theorem test_decode_aor :
    decodeWord (0b00000000000000000#17 ++ (0b00000#5 ++ (0b00#2 ++ 0b00010101#8))) = .ok .aor := by decide
theorem test_decode_axor :
    decodeWord (0b00000000000000000#17 ++ (0b00000#5 ++ (0b00#2 ++ 0b00010110#8))) = .ok .axor := by decide
theorem test_decode_axchg :
    decodeWord (0b00000000000000000#17 ++ (0b00000#5 ++ (0b00#2 ++ 0b00010111#8))) = .ok .axchg := by decide
theorem test_decode_afclr :
    decodeWord (0b00000000000000000#17 ++ (0b00000#5 ++ (0b00#2 ++ 0b00011000#8))) = .ok .afclr := by decide
theorem test_decode_aftas :
    decodeWord (0b00000000000000000#17 ++ (0b00000#5 ++ (0b00#2 ++ 0b00011001#8))) = .ok .aftas := by decide
theorem test_decode_acas :
    decodeWord (0b00000000000000000#17 ++ (0b00000#5 ++ (0b00#2 ++ 0b00011010#8))) = .ok .acas := by decide
theorem test_decode_bsetB :
    decodeWord (0b00000000000000000#17 ++ (0b00101#5 ++ (0b00#2 ++ 0b00100000#8))) = .ok (.bsetB 5#5) := by decide
theorem test_decode_bsetH :
    decodeWord (0b00000000000000000#17 ++ (0b01001#5 ++ (0b01#2 ++ 0b00100000#8))) = .ok (.bsetH 9#5) := by decide
theorem test_decode_bsetW :
    decodeWord (0b00000000000000000#17 ++ (0b11011#5 ++ (0b10#2 ++ 0b00100000#8))) = .ok (.bsetW 27#5) := by decide
theorem test_decode_bclrB :
    decodeWord (0b00000000000000000#17 ++ (0b00101#5 ++ (0b00#2 ++ 0b00100001#8))) = .ok (.bclrB 5#5) := by decide
theorem test_decode_bclrH :
    decodeWord (0b00000000000000000#17 ++ (0b01001#5 ++ (0b01#2 ++ 0b00100001#8))) = .ok (.bclrH 9#5) := by decide
theorem test_decode_bclrW :
    decodeWord (0b00000000000000000#17 ++ (0b11011#5 ++ (0b10#2 ++ 0b00100001#8))) = .ok (.bclrW 27#5) := by decide
theorem test_decode_bchgB :
    decodeWord (0b00000000000000000#17 ++ (0b00101#5 ++ (0b00#2 ++ 0b00100010#8))) = .ok (.bchgB 5#5) := by decide
theorem test_decode_bchgH :
    decodeWord (0b00000000000000000#17 ++ (0b01001#5 ++ (0b01#2 ++ 0b00100010#8))) = .ok (.bchgH 9#5) := by decide
theorem test_decode_bchgW :
    decodeWord (0b00000000000000000#17 ++ (0b11011#5 ++ (0b10#2 ++ 0b00100010#8))) = .ok (.bchgW 27#5) := by decide
theorem test_decode_btstB :
    decodeWord (0b00000000000000000#17 ++ (0b00101#5 ++ (0b00#2 ++ 0b00100011#8))) = .ok (.btstB 5#5) := by decide
theorem test_decode_btstH :
    decodeWord (0b00000000000000000#17 ++ (0b01001#5 ++ (0b01#2 ++ 0b00100011#8))) = .ok (.btstH 9#5) := by decide
theorem test_decode_btstW :
    decodeWord (0b00000000000000000#17 ++ (0b11011#5 ++ (0b10#2 ++ 0b00100011#8))) = .ok (.btstW 27#5) := by decide
theorem test_decode_btasB :
    decodeWord (0b00000000000000000#17 ++ (0b00101#5 ++ (0b00#2 ++ 0b00100100#8))) = .ok (.btasB 5#5) := by decide
theorem test_decode_btasH :
    decodeWord (0b00000000000000000#17 ++ (0b01001#5 ++ (0b01#2 ++ 0b00100100#8))) = .ok (.btasH 9#5) := by decide
theorem test_decode_btasW :
    decodeWord (0b00000000000000000#17 ++ (0b11011#5 ++ (0b10#2 ++ 0b00100100#8))) = .ok (.btasW 27#5) := by decide
theorem test_decode_btacB :
    decodeWord (0b00000000000000000#17 ++ (0b00101#5 ++ (0b00#2 ++ 0b00100101#8))) = .ok (.btacB 5#5) := by decide
theorem test_decode_btacH :
    decodeWord (0b00000000000000000#17 ++ (0b01001#5 ++ (0b01#2 ++ 0b00100101#8))) = .ok (.btacH 9#5) := by decide
theorem test_decode_btacW :
    decodeWord (0b00000000000000000#17 ++ (0b11011#5 ++ (0b10#2 ++ 0b00100101#8))) = .ok (.btacW 27#5) := by decide
theorem test_decode_btchB :
    decodeWord (0b00000000000000000#17 ++ (0b00101#5 ++ (0b00#2 ++ 0b00100110#8))) = .ok (.btchB 5#5) := by decide
theorem test_decode_btchH :
    decodeWord (0b00000000000000000#17 ++ (0b01001#5 ++ (0b01#2 ++ 0b00100110#8))) = .ok (.btchH 9#5) := by decide
theorem test_decode_btchW :
    decodeWord (0b00000000000000000#17 ++ (0b11011#5 ++ (0b10#2 ++ 0b00100110#8))) = .ok (.btchW 27#5) := by decide
theorem test_decode_rinit :
    decodeWord (0b00000000000000000#17 ++ (0b00000#5 ++ (0b00#2 ++ 0b00110000#8))) = .ok .rinit := by decide
theorem test_decode_rprod :
    decodeWord (0b00000000000000000#17 ++ (0b00000#5 ++ (0b00#2 ++ 0b00110001#8))) = .ok .rprod := by decide
theorem test_decode_rcons :
    decodeWord (0b00000000000000000#17 ++ (0b00000#5 ++ (0b00#2 ++ 0b00110010#8))) = .ok .rcons := by decide
theorem test_decode_rpeek :
    decodeWord (0b00000000000000000#17 ++ (0b00000#5 ++ (0b00#2 ++ 0b00110011#8))) = .ok .rpeek := by decide
theorem test_decode_rlin :
    decodeWord (0b00000000000000000#17 ++ (0b00000#5 ++ (0b00#2 ++ 0b00110100#8))) = .ok .rlin := by decide
theorem test_decode_rskip :
    decodeWord (0b00000000000000000#17 ++ (0b00000#5 ++ (0b00#2 ++ 0b00110101#8))) = .ok .rskip := by decide
theorem test_decode_rprodl :
    decodeWord (0b00000000000000000#17 ++ (0b00000#5 ++ (0b00#2 ++ 0b00110110#8))) = .ok .rprodl := by decide
theorem test_decode_rconsl :
    decodeWord (0b00000000000000000#17 ++ (0b00000#5 ++ (0b00#2 ++ 0b00110111#8))) = .ok .rconsl := by decide
theorem test_decode_rlinl :
    decodeWord (0b00000000000000000#17 ++ (0b00000#5 ++ (0b00#2 ++ 0b00111000#8))) = .ok .rlinl := by decide
theorem test_decode_irqlock :
    decodeWord (0b00000000000000000#17 ++ (0b00000#5 ++ (0b00#2 ++ 0b01000000#8))) = .ok .irqlock := by decide
theorem test_decode_irqunlock :
    decodeWord (0b00000000000000000#17 ++ (0b00000#5 ++ (0b00#2 ++ 0b01000001#8))) = .ok .irqunlock := by decide
theorem test_decode_csenter :
    decodeWord (0b00000000000000000#17 ++ (0b00000#5 ++ (0b00#2 ++ 0b01000010#8))) = .ok .csenter := by decide
theorem test_decode_csexit :
    decodeWord (0b00000000000000000#17 ++ (0b00000#5 ++ (0b00#2 ++ 0b01000011#8))) = .ok .csexit := by decide
theorem test_decode_intenter :
    decodeWord (0b00000000000000000#17 ++ (0b00000#5 ++ (0b00#2 ++ 0b01000100#8))) = .ok .intenter := by decide
theorem test_decode_intleave :
    decodeWord (0b00000000000000000#17 ++ (0b00000#5 ++ (0b00#2 ++ 0b01000101#8))) = .ok .intleave := by decide
theorem test_decode_inint :
    decodeWord (0b00000000000000000#17 ++ (0b00000#5 ++ (0b00#2 ++ 0b01000110#8))) = .ok .inint := by decide
theorem test_decode_spinit :
    decodeWord (0b00000000000000000#17 ++ (0b00000#5 ++ (0b00#2 ++ 0b01010000#8))) = .ok .spinit := by decide
theorem test_decode_splock :
    decodeWord (0b00000000000000000#17 ++ (0b00000#5 ++ (0b00#2 ++ 0b01010001#8))) = .ok .splock := by decide
theorem test_decode_sptry :
    decodeWord (0b00000000000000000#17 ++ (0b00000#5 ++ (0b00#2 ++ 0b01010010#8))) = .ok .sptry := by decide
theorem test_decode_spunlock :
    decodeWord (0b00000000000000000#17 ++ (0b00000#5 ++ (0b00#2 ++ 0b01010011#8))) = .ok .spunlock := by decide

/-- 95_test_vectors 2.6. -/
theorem test_illegal_words : ([ 0x00000000#32, 0x0000000F#32, 0x0000001B#32, 0x00000027#32, 0x00000039#32, 0x00000047#32,
      0x00000054#32, 0x000000FF#32, 0x00000110#32, 0x00000431#32, 0x00008010#32, 0x80000040#32,
      0x00000320#32, 0x00002020#32, 0x00004120#32].all
      fun w => (decodeWord w).toOption.isNone) = true := by decide

/-! ### Small states -/

/-- A memory that holds the given words. -/
def words (l : List (Nat × Word)) : Memory := l.foldl (fun m p => m.write p.1 .word p.2) []

/-- After reset, with memory `m`, core 0 standing at step `l` of command `i`; `f` sets its registers. -/
def standing (i : Instr) (l : Label) (f : Context → Context) (m : Memory := []) : State :=
  { State.reset with mem := m }.updMe
    (fun c => f { c with cmdr := encode i, phase := .at i.op l })

/-- The same under `ATOMIC_BACKEND = IRQMASK` with one core. -/
def masked (i : Instr) (l : Label) (f : Context → Context) (m : Memory := []) : State :=
  { State.resetWith { Config.standard with ncore := 1, backend := .irqmask } with mem := m }.updMe
    (fun c => f { c with cmdr := encode i, phase := .at i.op l })

/-- The step gives a next state with the property `p`. -/
def ran (i : Instr) (s : State) (p : State → Bool) : Bool :=
  match exec i s with
  | .next t => p t
  | .fault _ => false
  | .refused _ => false

/-- The same of the next event. -/
def stepped (s : State) (p : State → Bool) : Bool :=
  match step s with
  | .next t => p t
  | .fault _ => false
  | .refused _ => false

/-- Core 0 at the second step of a retry loop on the word at `0x1000`: it was read as `old` and the
reservation holds. -/
def retry (i : Instr) (old a1 a2 : Word) : State :=
  (standing i .s1 (fun c => { c with
      a0 := 0x1000#32, a1 := a1, a2 := a2, r0 := 0x77#32, tmp := { c.tmp with old := old } })
    (words [(0x1000, old)])).setResv (some 0x1000#32)

/-- The cell at `0x1000`, `R0`, `A1` and `ST` of the acting context. -/
def cellRegs (t : State) (cell r0 a1 : Word) : Bool :=
  decide (t.mem.read 0x1000 .word = cell ∧ t.me.r0 = r0 ∧ t.me.a1 = a1 ∧ t.me.st = 0#32 ∧
    t.me.phase = .idle ∧ t.resv 0 = none)

/-! ### Atomic Core: 95_test_vectors A1 to A18 -/

/-- A1. -/
theorem test_aload_commit :
    ran .aload (retry .aload 0xDEADBEEF#32 0#32 0#32) (cellRegs · 0xDEADBEEF#32 0xDEADBEEF#32 0#32) = true := by decide

/-- A2. -/
theorem test_astore_commit :
    ran .astore (retry .astore 7#32 9#32 0#32) (cellRegs · 9#32 0x77#32 9#32) = true := by decide

/-- A3. -/
theorem test_aadd_commit :
    ran .aadd (retry .aadd 0xFFFFFFFE#32 5#32 0#32) (cellRegs · 3#32 0xFFFFFFFE#32 5#32) = true := by decide

/-- A5. -/
theorem test_asub_commit :
    ran .asub (retry .asub 3#32 5#32 0#32) (cellRegs · 0xFFFFFFFE#32 3#32 5#32) = true := by decide

/-- A7. -/
theorem test_aand_commit :
    ran .aand (retry .aand 0xF0F0F0F0#32 0x0FF00FF0#32 0#32) (cellRegs · 0x00F000F0#32 0xF0F0F0F0#32 0x0FF00FF0#32) = true := by decide

/-- A8. -/
theorem test_aor_commit :
    ran .aor (retry .aor 0xF0F0F0F0#32 0x0FF00FF0#32 0#32) (cellRegs · 0xFFF0FFF0#32 0xF0F0F0F0#32 0x0FF00FF0#32) = true := by decide

/-- A9. -/
theorem test_axor_commit :
    ran .axor (retry .axor 0xF0F0F0F0#32 0x0FF00FF0#32 0#32) (cellRegs · 0xFF00FF00#32 0xF0F0F0F0#32 0x0FF00FF0#32) = true := by decide

/-- A10. -/
theorem test_axchg_commit :
    ran .axchg (retry .axchg 0x11111111#32 0x22222222#32 0#32) (cellRegs · 0x22222222#32 0x11111111#32 0x22222222#32) = true := by decide

/-- A11. -/
theorem test_afclr_commit :
    ran .afclr (retry .afclr 1#32 0#32 0#32) (cellRegs · 0#32 0x77#32 0#32) = true := by decide

/-- A11b. -/
theorem test_aftas_commit :
    ran .aftas (retry .aftas 0#32 0#32 0#32) (cellRegs · 1#32 0#32 0#32) = true := by decide

/-- A12. -/
theorem test_acas_commit :
    ran .acas (retry .acas 5#32 5#32 9#32) (cellRegs · 9#32 1#32 5#32) = true := by decide

/-- A13: the comparison fails. -/
theorem test_acas_mismatch :
    ran .acas (retry .acas 9#32 5#32 7#32) (cellRegs · 9#32 0#32 9#32) = true := by decide

/-- A15: misaligned. -/
theorem test_aload_misaligned :
    ran .aload (standing .aload .s0 fun c => { c with a0 := 0x1002#32 }) (fun t =>
      decide (t.me.fsr = 1#32 ∧ t.me.far = 0x1002#32 ∧ t.me.phase = .faulted)) = true := by decide

/-- A17: the first byte past the populated region. -/
theorem test_astore_out_of_range :
    ran .astore (standing .astore .s0 fun c => { c with a0 := 0x4000#32 }) (fun t =>
      decide (t.me.fsr = 2#32 ∧ t.me.far = 0x4000#32 ∧ t.me.phase = .faulted)) = true := by decide

/-- A16: address 0. -/
theorem test_aadd_null :
    ran .aadd (standing .aadd .s0 id) (fun t =>
      decide (t.me.fsr = 2#32 ∧ t.me.far = 0#32 ∧ t.me.phase = .faulted)) = true := by decide

/-- P4, event 4: the reservation is lost, the command goes back to `S0` and nothing is written. -/
theorem test_aor_retries :
    ran .aor ((retry .aor 5#32 2#32 0#32).clrResv) (fun t =>
      decide (t.mem.read 0x1000 .word = 5#32 ∧ t.me.phase = .at .aor .s0 ∧ t.me.r0 = 0x77#32)) =
      true := by decide

/-- 20_memory R66: the successful `SC` of one core breaks the reservation of the other. -/
theorem test_axchg_breaks_the_other_reservation :
    ran .axchg ((retry .axchg 5#32 7#32 0#32).updCore 1 fun c =>
        { c with resv := some 0x1000#32 }) (fun t =>
      decide (t.resv 1 = none ∧ t.mem.read 0x1000 .word = 7#32)) = true := by decide

/-- 40_atomic_core R113: under `IRQMASK` the last step restores the mask and writes the results. -/
theorem test_aand_restores_the_mask :
    ran .aand ((masked .aand .s3 fun c => { c with tmp := { c.tmp with old := 6#32 } }).setImask
        1#32) (fun t =>
      decide (t.imask 0 = 0#32 ∧ t.me.r0 = 6#32 ∧ t.me.st = 0#32 ∧ t.me.phase = .idle)) =
      true := by decide

/-! ### Bit-Field Ops: 95_test_vectors F1 to F26 -/

/-- Core 0 at `S1` of a bit-field command on the cell at `a`, read as `old`, reservation held. -/
def bitAt (i : Instr) (a old : Word) (w : Width) : State :=
  (standing i .s1 (fun c => { c with a0 := a, r0 := 0x77#32, tmp := { c.tmp with old := old } })
    (Memory.write [] a.toNat w old)).setResv (some (granule a))

/-- The cell, `R0` and `ST`. -/
def cellBit (t : State) (a : Nat) (w : Width) (cell r0 : Word) : Bool :=
  decide (t.mem.read a w = cell ∧ t.me.r0 = r0 ∧ t.me.st = 0#32 ∧ t.me.phase = .idle)

/-- F1. -/
theorem test_bsetB :
    ran (.bsetB 7#5) (bitAt (.bsetB 7#5) 0x1000#32 0x01#32 .byte)
      (cellBit · 0x1000 .byte 0x81#32 0x77#32) = true := by decide

/-- F19. -/
theorem test_bsetH :
    ran (.bsetH 15#5) (bitAt (.bsetH 15#5) 0x1002#32 0x0000#32 .half)
      (cellBit · 0x1002 .half 0x8000#32 0x77#32) = true := by decide

/-- F3. -/
theorem test_bsetW :
    ran (.bsetW 31#5) (bitAt (.bsetW 31#5) 0x1000#32 0#32 .word)
      (cellBit · 0x1000 .word 0x80000000#32 0x77#32) = true := by decide

/-- F5. -/
theorem test_bclrB :
    ran (.bclrB 5#5) (bitAt (.bclrB 5#5) 0x1001#32 0x20#32 .byte)
      (cellBit · 0x1001 .byte 0#32 0x77#32) = true := by decide

/-- F4. -/
theorem test_bclrH :
    ran (.bclrH 0#5) (bitAt (.bclrH 0#5) 0x1002#32 0xFFFF#32 .half)
      (cellBit · 0x1002 .half 0xFFFE#32 0x77#32) = true := by decide

/-- F20. -/
theorem test_bclrW :
    ran (.bclrW 13#5) (bitAt (.bclrW 13#5) 0x1000#32 0x80002000#32 .word)
      (cellBit · 0x1000 .word 0x80000000#32 0x77#32) = true := by decide

/-- R124. -/
theorem test_bchgB :
    ran (.bchgB 0#5) (bitAt (.bchgB 0#5) 0x1003#32 0x01#32 .byte)
      (cellBit · 0x1003 .byte 0x00#32 0x77#32) = true := by decide

/-- F7. -/
theorem test_bchgH :
    ran (.bchgH 8#5) (bitAt (.bchgH 8#5) 0x1000#32 0x0100#32 .half)
      (cellBit · 0x1000 .half 0#32 0x77#32) = true := by decide

/-- F6. -/
theorem test_bchgW :
    ran (.bchgW 31#5) (bitAt (.bchgW 31#5) 0x1000#32 0#32 .word)
      (cellBit · 0x1000 .word 0x80000000#32 0x77#32) = true := by decide

/-- R126. -/
theorem test_btasB :
    ran (.btasB 7#5) (bitAt (.btasB 7#5) 0x1001#32 0x80#32 .byte)
      (cellBit · 0x1001 .byte 0x80#32 1#32) = true := by decide

/-- F10. -/
theorem test_btasH :
    ran (.btasH 9#5) (bitAt (.btasH 9#5) 0x1000#32 0#32 .half)
      (cellBit · 0x1000 .half 0x0200#32 0#32) = true := by decide

/-- R126. -/
theorem test_btasW :
    ran (.btasW 31#5) (bitAt (.btasW 31#5) 0x1000#32 0#32 .word)
      (cellBit · 0x1000 .word 0x80000000#32 0#32) = true := by decide

/-- P2. -/
theorem test_btacB :
    ran (.btacB 5#5) (bitAt (.btacB 5#5) 0x1009#32 0x20#32 .byte)
      (cellBit · 0x1009 .byte 0#32 1#32) = true := by decide

/-- F13. -/
theorem test_btacH :
    ran (.btacH 15#5) (bitAt (.btacH 15#5) 0x1002#32 0x7FFF#32 .half)
      (cellBit · 0x1002 .half 0x7FFF#32 0#32) = true := by decide

/-- F12. -/
theorem test_btacW :
    ran (.btacW 0#5) (bitAt (.btacW 0#5) 0x1000#32 3#32 .word)
      (cellBit · 0x1000 .word 2#32 1#32) = true := by decide

/-- F14. -/
theorem test_btchB :
    ran (.btchB 0#5) (bitAt (.btchB 0#5) 0x1000#32 0xFE#32 .byte)
      (cellBit · 0x1000 .byte 0xFF#32 0#32) = true := by decide

/-- P2. -/
theorem test_btchH :
    ran (.btchH 15#5) (bitAt (.btchH 15#5) 0x100A#32 0#32 .half)
      (cellBit · 0x100A .half 0x8000#32 0#32) = true := by decide

/-- F15. -/
theorem test_btchW :
    ran (.btchW 16#5) (bitAt (.btchW 16#5) 0x1000#32 0x10000#32 .word)
      (cellBit · 0x1000 .word 0#32 1#32) = true := by decide

/-- F8. -/
theorem test_btstB :
    ran (.btstB 3#5) (standing (.btstB 3#5) .s0 (fun c => { c with a0 := 0x1000#32 })
      (Memory.write [] 0x1000 .byte 0x08#32)) (cellBit · 0x1000 .byte 0x08#32 1#32) = true := by decide

/-- F18. -/
theorem test_btstH :
    ran (.btstH 13#5) (standing (.btstH 13#5) .s0 (fun c => { c with a0 := 0x1000#32 })
      (Memory.write [] 0x1000 .half 0x2000#32)) (cellBit · 0x1000 .half 0x2000#32 1#32) = true := by decide

/-- F9. -/
theorem test_btstW :
    ran (.btstW 31#5) (standing (.btstW 31#5) .s0 (fun c => { c with a0 := 0x1000#32 })
      (Memory.write [] 0x1000 .word 0x7FFFFFFF#32)) (cellBit · 0x1000 .word 0x7FFFFFFF#32 0#32) = true := by decide

/-- F24. -/
theorem test_bsetH_misaligned :
    ran (.bsetH 0#5) (standing (.bsetH 0#5) .s0 fun c => { c with a0 := 0x1001#32 }) (fun t =>
      decide (t.me.fsr = 1#32 ∧ t.me.far = 0x1001#32 ∧ t.me.phase = .faulted)) = true := by decide

/-- F16: bit 13 of a word is bit 5 of its second byte. -/
theorem test_little_endian :
    ((words [(0x1000, 0x00002000#32)]).read 0x1001 .byte) = 0x20#32 := by decide

/-! ### Ring Buffer: 95_test_vectors E1 and B1 to B20 -/

/-- The descriptor `{in, out, mask, esz, data}` at `0x1000`. -/
def ring (i o m e d : Word) : Memory :=
  words [(0x1000, i), (0x1004, o), (0x1008, m), (0x100C, e), (0x1010, d)]

/-- E1: the capacity of `RINIT` with `A2 = B`, `A3 = E`. -/
def initWith (b e : Word) : State :=
  standing .rinit .s0 fun c => { c with a0 := 0x1000#32, a1 := 0x2000#32, a2 := b, a3 := e }

/-- E1, rows 100/3 and `0xFFFFFFFF`/1. -/
theorem test_rinit_capacity :
    ran .rinit (initWith 100#32 3#32) (fun t => decide (t.me.tmp.cap = 32#32)) = true ∧
    ran .rinit (initWith 0xFFFFFFFF#32 1#32) (fun t => decide (t.me.tmp.cap = 0x80000000#32)) =
      true := by decide

/-- E1, rows 7/4 and 1000/0. -/
theorem test_rinit_invalid :
    ran .rinit (initWith 7#32 4#32) (fun t => decide (t.me.st = 22#32 ∧ t.me.phase = .idle)) =
      true ∧
    ran .rinit (initWith 1000#32 0#32) (fun t => decide (t.me.st = 22#32 ∧ t.me.phase = .idle)) =
      true := by decide

/-- At the last read of the descriptor, the other words latched. -/
def planning (i : Instr) (p c m e a2 : Word) : State :=
  standing i .s4 (fun x => { x with
      a0 := 0x1000#32, a2 := a2,
      tmp := { x.tmp with inIdx := p, outIdx := c, mask := m, esz := e } })
    (ring p c m e 0x2000#32)

/-- What is latched after it. -/
def latched (t : State) (n off l : Word) : Bool :=
  decide (t.me.tmp.n = n ∧ t.me.tmp.off = off ∧ t.me.tmp.l = l ∧ t.me.tmp.i = 0#32 ∧
    t.me.tmp.data = 0x2000#32)

/-- B1 and B2. -/
theorem test_rprod_plan :
    ran .rprod (planning .rprod 6#32 2#32 7#32 1#32 6#32) (latched · 4#32 6#32 2#32) = true ∧
    ran .rprod (planning .rprod 0xFFFFFFFE#32 0xFFFFFFFA#32 7#32 1#32 6#32)
      (latched · 4#32 6#32 2#32) = true := by decide

/-- B6. -/
theorem test_rcons_plan :
    ran .rcons (planning .rcons 10#32 5#32 7#32 1#32 8#32) (latched · 5#32 5#32 3#32) = true := by
  decide

/-- B8. -/
theorem test_rpeek_plan :
    ran .rpeek (planning .rpeek 10#32 5#32 7#32 1#32 2#32) (latched · 2#32 5#32 2#32) = true := by
  decide

/-- B1, third byte of the copy: past the end of the storage it goes to slot 0. -/
theorem test_rprodl_copies_one_byte :
    ran .rprodl (standing .rprodl .s5 (fun x => { x with
        a1 := 0x3000#32
        tmp := { x.tmp with
          n := 4#32, off := 6#32, l := 2#32, esz := 1#32, data := 0x2000#32, i := 2#32 } })
        [(0x3002, 0xA7#8)]) (fun t =>
      decide (t.mem.get 0x2000 = 0xA7#8 ∧ t.me.tmp.i = 3#32 ∧ t.me.phase = .at .rprodl .s5)) =
      true := by decide

/-- B6, the publishing store. -/
theorem test_rconsl_publishes :
    ran .rconsl (standing .rconsl .s7 (fun x => { x with a0 := 0x1000#32, tmp := { x.tmp with
        n := 5#32, outIdx := 5#32 } }) (ring 10#32 5#32 7#32 1#32 0x2000#32)) (fun t =>
      decide (t.mem.read 0x1004 .word = 10#32 ∧ t.me.r0 = 5#32 ∧ t.me.st = 0#32 ∧
        t.me.phase = .at .rconsl .lz)) = true := by decide

/-- B9. -/
theorem test_rlin_extent :
    ran .rlin (standing .rlin .s2 (fun x => { x with a0 := 0x1000#32, a1 := 100#32, tmp :=
        { x.tmp with mask := 7#32, inIdx := 10#32 } }) (ring 10#32 5#32 7#32 1#32 0x2000#32))
      (fun t => decide (t.me.r0 = 3#32 ∧ t.me.r1 = 5#32 ∧ t.me.st = 0#32)) = true := by decide

/-- B15: `RLINL` on a masked core leaves it masked. -/
theorem test_rlinl_keeps_the_mask :
    ran .rlinl ((standing .rlinl .l0 id).setImask 1#32) (fun t =>
      decide (t.imask 0 = 1#32 ∧ t.me.tmp.snap = 1#32 ∧ t.me.phase = .at .rlinl .s0)) = true := by
  decide

/-- B13. -/
theorem test_rskip_wraps :
    ran .rskip (standing .rskip .s2 (fun x => { x with a0 := 0x1000#32, a1 := 4#32, tmp :=
        { x.tmp with outIdx := 0xFFFFFFFE#32 } })
        (ring 2#32 0xFFFFFFFE#32 7#32 1#32 0x2000#32)) (fun t =>
      decide (t.mem.read 0x1004 .word = 2#32 ∧ t.me.st = 0#32)) = true := by decide

/-- B16: the first word read is the mask, at `A0 + 8`. -/
theorem test_rprod_misaligned :
    ran .rprod (standing .rprod .s0 fun c => { c with a0 := 0x1001#32 }) (fun t =>
      decide (t.me.fsr = 1#32 ∧ t.me.far = 0x1009#32)) = true := by decide

/-! ### IRQ lock: 95_test_vectors I1 to I12 -/

/-- I1 and I2. -/
theorem test_irqlock :
    ran .irqlock (standing .irqlock .s0 id) (fun t =>
      decide (t.me.r0 = 0#32 ∧ t.imask 0 = 1#32 ∧ t.imask 1 = 0#32 ∧ t.me.st = 0#32)) = true ∧
    ran .irqlock ((standing .irqlock .s0 id).setImask 1#32) (fun t =>
      decide (t.me.r0 = 1#32 ∧ t.imask 0 = 1#32)) = true := by decide

/-- I5. -/
theorem test_irqunlock_uses_bit_0 :
    ran .irqunlock ((standing .irqunlock .s0 fun c => { c with a0 := 0xFFFFFFFE#32 }).setImask
      1#32) (fun t => decide (t.imask 0 = 0#32)) = true := by decide

/-- I6, second command. -/
theorem test_csenter_nested :
    ran .csenter ((standing .csenter .s0 id).setImask 1#32) (fun t =>
      decide (t.me.r0 = 1#32 ∧ t.imask 0 = 1#32)) = true := by decide

/-- I6, third command. -/
theorem test_csexit_nested :
    ran .csexit ((standing .csexit .s0 fun c => { c with a0 := 1#32 }).setImask 1#32) (fun t =>
      decide (t.imask 0 = 1#32 ∧ t.me.r0 = 0#32)) = true := by decide

/-- I10. -/
theorem test_intenter_wraps :
    ran .intenter (standing .intenter .s2 fun c =>
        { c with tmp := { c.tmp with nest := 0xFFFFFFFF#32 } }) (fun t =>
      decide (t.nest = 0#32 ∧ t.me.phase = .at .intenter .s3)) = true := by decide

/-- I9. -/
theorem test_intleave :
    ran .intleave (standing .intleave .s2 fun c => { c with tmp := { c.tmp with nest := 2#32 } })
      (fun t => decide (t.nest = 1#32 ∧ t.me.phase = .at .intleave .s3)) = true := by decide

/-- I11. -/
theorem test_inint :
    ran .inint (standing .inint .s0 id) (fun t => decide (t.me.r0 = 0#32)) = true ∧
    ran .inint { standing .inint .s0 id with nest := 0x80000000#32 } (fun t =>
      decide (t.me.r0 = 1#32)) = true := by decide

/-! ### Spinlock: 95_test_vectors S1 to S10 -/

/-- S1, the second store. -/
theorem test_spinit :
    ran .spinit (standing .spinit .s1 (fun c => { c with a0 := 0x1100#32 })
        (words [(0x1104, 1#32)])) (fun t =>
      decide (t.mem.read 0x1104 .word = 0#32 ∧ t.me.st = 0#32 ∧ t.me.phase = .idle)) = true := by
  decide

/-- A spinlock command at `S2`, the lock word read as `old`. -/
def contending (i : Instr) (old : Word) : State :=
  (standing i .s2 (fun c => { c with a0 := 0x1100#32, tmp := { c.tmp with old := old } })
    (words [(0x1100, old)])).setResv (some 0x1100#32)

/-- S2, the `SC`. -/
theorem test_splock_takes :
    ran .splock (contending .splock 0#32) (fun t =>
      decide (t.mem.read 0x1100 .word = 1#32 ∧ t.me.phase = .at .splock .s3)) = true := by decide

/-- S9: a held lock, back to `S1`. -/
theorem test_splock_spins :
    ran .splock (contending .splock 1#32) (fun t =>
      decide (t.resv 0 = none ∧ t.me.phase = .at .splock .s1)) = true := by decide

/-- S4, the last step. -/
theorem test_sptry_busy :
    ran .sptry ((standing .sptry .s5 id).setImask 1#32) (fun t =>
      decide (t.me.r0 = 0#32 ∧ t.me.st = 16#32 ∧ t.imask 0 = 0#32)) = true := by decide

/-- S5, the last step. -/
theorem test_sptry_takes :
    ran .sptry (standing .sptry .s4 fun c => { c with a0 := 0x1100#32 }) (fun t =>
      decide (t.me.r0 = 1#32 ∧ t.me.st = 0#32 ∧ t.mem.read 0x1104 .word = 0#32)) = true := by
  decide

/-- S8, the last step. -/
theorem test_spunlock_restores :
    ran .spunlock ((standing .spunlock .s3 fun c =>
        { c with tmp := { c.tmp with snap := 1#32 } }).setImask 1#32) (fun t =>
      decide (t.imask 0 = 1#32 ∧ t.me.st = 0#32 ∧ t.me.phase = .idle)) = true := by decide

/-! ### Events -/

/-- After reset, with a schedule. -/
def scheduled (l : List Event) : State := { State.reset with schedule := l }

/-- 60_exceptions R208: the handler context is idle and the task's context is kept. -/
theorem test_delivery :
    stepped ((scheduled [.deliver 0]).setResv (some 0x1000#32)) (fun t =>
      decide (t.depth 0 = 1 ∧ (t.running 0).phase = .idle ∧ t.resv 0 = none ∧
        t.port 0 0 = Context.reset)) = true := by decide

/-- 30_encoding R88, R93. -/
theorem test_issue :
    stepped (scheduled [.issue 1 0x00000036#32]) (fun t =>
      decide ((t.running 1).phase = .at .rprodl .l0 ∧ (t.running 1).cmdr = 0x36#32)) = true ∧
    stepped (scheduled [.issue 1 0x00000320#32]) (fun t =>
      decide ((t.running 1).phase = .idle ∧ (t.running 1).st = 95#32)) = true := by decide

/-- An idle context whose registers all differ, with a schedule. -/
def filled (l : List Event) : State :=
  (scheduled l).updMe fun c => { c with
    a0 := 10#32, a1 := 11#32, a2 := 12#32, a3 := 13#32, r0 := 20#32, r1 := 21#32, st := 22#32 }

/-- `A0` to `A3`, `R0`, `R1` and `ST` of the running context of core 0. -/
def regs (t : State) : List Word :=
  [(t.running 0).a0, (t.running 0).a1, (t.running 0).a2, (t.running 0).a3,
    (t.running 0).r0, (t.running 0).r1, (t.running 0).st]

/-- 10_state R21, 30_encoding R91: the host writes `A0` to `A3`, one each time. -/
theorem test_setArg :
    [(ArgReg.a0, [7#32, 11#32, 12#32, 13#32, 20#32, 21#32, 22#32]),
     (.a1, [10#32, 7#32, 12#32, 13#32, 20#32, 21#32, 22#32]),
     (.a2, [10#32, 11#32, 7#32, 13#32, 20#32, 21#32, 22#32]),
     (.a3, [10#32, 11#32, 12#32, 7#32, 20#32, 21#32, 22#32])].all (fun p =>
      stepped (filled [.setArg 0 p.1 7#32]) fun t => decide (regs t = p.2)) = true := by decide

/-- 30_encoding R91: `A0 = R0` copies, and so of every result register. -/
theorem test_copyArg :
    [(ArgReg.a0, ResReg.r0, [20#32, 11#32, 12#32, 13#32, 20#32, 21#32, 22#32]),
     (.a1, .r1, [10#32, 21#32, 12#32, 13#32, 20#32, 21#32, 22#32]),
     (.a3, .st, [10#32, 11#32, 12#32, 22#32, 20#32, 21#32, 22#32])].all (fun p =>
      stepped (filled [.copyArg 0 p.1 p.2.1]) fun t => decide (regs t = p.2.2)) = true := by decide

/-- 20_memory R74, R53, R56 (log 10): a host access that fails a check faults; the registers and the memory stay. -/
theorem test_host_access_faults :
    [(Event.hostRead 0 0x1002#32 .word, 1#32, 0x1002#32),
     (.hostWrite 0 0x4000#32 .byte 1#32, 2#32, 0x4000#32)].all (fun p =>
      stepped (filled [p.1]) fun t =>
        decide ((t.running 0).fsr = p.2.1 ∧ (t.running 0).far = p.2.2 ∧
          (t.running 0).phase = .faulted ∧ regs t = regs (filled []) ∧ t.mem = [])) = true := by
  decide

/-- The placed word is what the next step runs. -/
theorem test_withFetchWord :
    stepped (State.reset.withFetchWord 32 0x00000040) (fun t =>
      decide (t.imask 0 = 1#32 ∧ t.me.phase = .idle)) = true := by decide

/-! ### Witnesses: for each statement with hypotheses, a state and operands that meet them -/

/-- What holds of every context of a machine, and of what stands for an absent one, holds at every index. -/
theorem port_all {P : Context → Prop} {s : State} (h : ∀ c ∈ s.cores, ∀ p ∈ c.ports, P p)
    (h0 : P Context.reset) (k l : Nat) : P (s.port k l) := by
  unfold State.port State.coreAt CoreState.port
  rw [List.getD_eq_getElem?_getD, List.getD_eq_getElem?_getD]
  cases hc : s.cores[k]? with
  | none => simpa [CoreState.absent] using h0
  | some c =>
    cases hp : c.ports[l]? with
    | none => simpa [hp] using h0
    | some p => simpa [hp] using h c (List.mem_of_getElem? hc) p (List.mem_of_getElem? hp)

/-- What holds of every core, and of what stands for an absent one, holds at every index. -/
theorem core_all {P : CoreState → Prop} {s : State} (h : ∀ c ∈ s.cores, P c)
    (h0 : P CoreState.absent) (k : Nat) : P (s.coreAt k) := by
  unfold State.coreAt
  rw [List.getD_eq_getElem?_getD]
  cases hc : s.cores[k]? with
  | none => simpa using h0
  | some c => simpa using h c (List.mem_of_getElem? hc)

/-- The context stands at a step of the command its `CMDR` holds, or at no step. -/
def phaseFits (b : AtomicBackend) (p : Context) : Bool :=
  match p.phase with
  | .idle => true
  | .faulted => true
  | .at op l =>
    (op.steps b).contains l &&
      match decodeWord p.cmdr with
      | .ok i => decide (i.op = op)
      | .error _ => false

theorem phases_of_fits {s : State}
    (h : ∀ c ∈ s.cores, ∀ p ∈ c.ports, phaseFits s.cfg.backend p = true) : s.PhasesOk := by
  intro k l op lbl hp
  have hf := port_all (P := fun p => phaseFits s.cfg.backend p = true) h rfl k l
  simp only [phaseFits, hp, Bool.and_eq_true] at hf
  obtain ⟨h1, h2⟩ := hf
  refine ⟨by simpa using h1, ?_⟩
  cases hd : decodeWord (s.port k l).cmdr with
  | error e => simp [hd] at h2
  | ok i => exact ⟨i, rfl, by simpa [hd] using h2⟩

/-- The context is outside every `LL` to `SC` window. -/
def outside (b : AtomicBackend) (p : Context) : Bool :=
  match p.phase with
  | .idle => true
  | .faulted => true
  | .at op l => !(op.holds b l)

/-- `ResvLinked` where every context but those at step `l` of `op` on the cell at `a` is outside the window, and the
running ones there hold what the cell holds. -/
theorem linked_of {s : State} (op : Op) (l : Label) (a : Word) (hb : s.cfg.backend = .llsc)
    (hp : ∀ c ∈ s.cores, ∀ p ∈ c.ports, outside .llsc p = true ∨ (p.phase = .at op l ∧ p.a0 = a))
    (hr : ∀ c ∈ s.cores, outside .llsc c.running = true ∨
      (c.running.phase = .at op l ∧ c.running.a0 = a ∧
        s.mem.read a.toNat op.cellWidth = c.running.tmp.old))
    (ha : accessFault s.cfg a op.cellWidth = none) : s.ResvLinked where
  access := by
    intro k m o lbl h hh
    rw [hb] at hh
    rcases port_all (P := fun p => outside .llsc p = true ∨ (p.phase = .at op l ∧ p.a0 = a))
      hp (.inl rfl) k m with h1 | ⟨h1, h2⟩
    · simp [outside, h, hh] at h1
    · rw [h] at h1
      cases h1
      rw [h2]
      exact ha
  value := by
    intro k o lbl h hh _
    rw [hb] at hh
    have h' : (s.coreAt k).running.phase = .at o lbl := h
    rcases core_all (P := fun c => outside .llsc c.running = true ∨
        (c.running.phase = .at op l ∧ c.running.a0 = a ∧
          s.mem.read a.toNat op.cellWidth = c.running.tmp.old)) hr (.inl rfl) k with h1 | ⟨h1, h2, h3⟩
    · simp [outside, h', hh] at h1
    · rw [h'] at h1
      cases h1
      show s.mem.read (s.coreAt k).running.a0.toNat _ = _
      rw [h2]
      exact h3

/-- Two cores in the middle of a command: core 0 at `S1` of `AADD` with the reservation held and the next
event its micro-step, core 1 at `S3` of `RPROD`. -/
def midway : State :=
  { (retry .aadd 5#32 1#32 0#32).updCore 1 (fun c => c.updRunning fun p =>
      { p with cmdr := 0x31#32, phase := .at .rprod .s3 }) with schedule := [.micro 0] }

theorem midway_inv : midway.Inv where
  shaped := ⟨by decide, by decide, by decide, by decide⟩
  mem := ⟨by decide, by decide⟩
  cores := ⟨by decide, by
    intro c hc g hg
    have : ∀ c ∈ midway.cores, c.resv = none ∨ c.resv = some 0x1000#32 := by decide
    rcases this c hc with h | h <;> rw [h] at hg <;> cases hg
    decide⟩
  faults := port_all (P := fun p => (p.fsr = 0#32 ∨ p.fsr = 1#32 ∨ p.fsr = 2#32) ∧
    (p.fsr ≠ 0#32 ↔ p.phase = .faulted)) (by decide) (by decide)
  phases := phases_of_fits (by decide)
  idle := by
    intro k hk
    have h := core_all (P := fun c => c.resv = none ∨ c.running.phase = .at .aadd .s1)
      (s := midway) (by decide) (by decide) k
    rcases h with h | h
    · exact absurd h hk
    · exact .inr ⟨.aadd, .s1, h, by decide⟩
  linked := linked_of .aadd .s1 0x1000#32 (by decide) (by decide) (by decide) (by decide)

/-- Each of the seven invariants, with a step that is taken. -/
theorem witness_StepKeeps_invariants : midway.Inv ∧ ∃ t, step midway = .next t :=
  ⟨midway_inv, _, rfl⟩

theorem witness_DecodeInvertsEncode :
    (Instr.bsetB 7#5).wf = true ∧ (Instr.bsetH 15#5).wf = true ∧ (Instr.bsetW 31#5).wf = true ∧
    Instr.spunlock.wf = true ∧ decodeWord 0x00007E20#32 = .ok (.bsetW 31#5) := by decide

theorem witness_DecodeFollowsTheOpcodeTable :
    (∃ r ∈ opcodeTable, r.accepts 0x00007E20#32 = true) ∧
    ∀ r ∈ opcodeTable, r.accepts 0x00002020#32 = false := by decide

theorem scheduled_shaped (l : List Event) : (scheduled l).Shaped :=
  have h : State.reset.Shaped := ⟨by decide, by decide, by decide, by decide⟩
  ⟨h.legal, h.cores, h.ports, h.depth⟩

theorem witness_IssueLatchesAndDecodes :
    (scheduled [.issue 1 0x53#32]).Shaped ∧ 1 < (scheduled [.issue 1 0x53#32]).cfg.ncore ∧
    ((scheduled [.issue 1 0x53#32]).running 1).phase = .idle ∧
    decodeWord 0x53#32 = .ok .spunlock ∧ decodeWord 0x38#32 = .ok .rlinl :=
  ⟨scheduled_shaped _, by decide⟩

/-- Each way of being illegal, at the least value. -/
theorem witness_IllegalWordsAreRejected :
    (scheduled [.issue 1 0x8010#32]).Shaped ∧
    ((scheduled [.issue 1 0x8010#32]).running 1).phase = .idle ∧
    fieldRsv 0x8010#32 ≠ 0#17 ∧
    (∀ r ∈ opcodeTable, fieldOp 0x54#32 ≠ fieldOp r.pattern) ∧
    (fieldOp 0x110#32 < 0x20#8 ∧ fieldSz 0x110#32 ≠ 0#2) ∧
    (0x26#8 < fieldOp 0x431#32 ∧ fieldBit 0x431#32 ≠ 0#5) ∧
    (0x20#8 ≤ fieldOp 0x320#32 ∧ fieldOp 0x320#32 ≤ 0x26#8 ∧ fieldSz 0x320#32 = 3#2) ∧
    (fieldOp 0x2026#32 = 0x26#8 ∧
      8 * 2 ^ (fieldSz 0x2026#32).toNat ≤ (fieldBit 0x2026#32).toNat) :=
  ⟨scheduled_shaped _, by decide⟩

theorem witness_BusyPortAcceptsNothing :
    midway.cfg.legal = true ∧ 1 < midway.cfg.ncore ∧ (midway.running 1).phase ≠ .idle ∧
    (Event.issue 1 0x10#32).hostCore = some 1 := by decide

theorem witness_StepRunsDecodedInstruction :
    midway.cfg.legal = true ∧ midway.schedule = [.micro 0] ∧ 0 < midway.cfg.ncore ∧
    (midway.running 0).phase = .at .aadd .s1 ∧
    decodeWord (midway.running 0).cmdr = .ok .aadd ∧ Instr.aadd.op = .aadd := by decide

theorem witness_EveryStepOfEveryCommandRuns :
    midway.atStep .aadd .s1 ∧ Label.s1 ∈ Instr.aadd.op.steps midway.cfg.backend ∧
    (masked .aadd .s3 id).atStep .aadd .s3 ∧
    Label.s3 ∈ Instr.aadd.op.steps (masked .aadd .s3 id).cfg.backend := by decide

theorem witness_ResetMeetsTheInvariants :
    Config.standard.legal = true ∧
    ({ Config.standard with ncore := 1, backend := .irqmask } : Config).legal = true := by decide

/-- Core 0 FAULTED, an issue on core 1 next. -/
def faulted : State :=
  { State.reset.raise .bus 0x4000#32 with schedule := [.issue 1 0x10#32] }

theorem witness_FaultedIsAbsorbing :
    (faulted.running 0).phase = .faulted ∧ ∃ t, step faulted = .next t := ⟨by decide, _, rfl⟩

theorem witness_OnlyRunningContextsChange :
    (∃ t, step midway = .next t) ∧ 1 ≠ midway.depth 0 ∧
    (1 = midway.depth 0 + 1 → ∀ rest, midway.schedule ≠ .deliver 0 :: rest) :=
  ⟨⟨_, rfl⟩, by decide, fun _ rest h => by
    have : midway.schedule = [.micro 0] := rfl
    rw [this] at h
    cases h⟩

theorem witness_MemoryIsLittleEndian :
    Memory.wf (words [(0x1000, 0x80002001#32)]) = true := by decide

theorem witness_MixedWidthsShareBits :
    Memory.wf (words [(0x1000, 0x80002001#32)]) = true ∧ 0x1000 % 4 = 0 ∧ 31 < 32 := by decide

theorem witness_AccessesAreChecked :
    (0x1002#32).toNat % Width.word.bytes ≠ 0 ∧ (0x1001#32).toNat % Width.half.bytes ≠ 0 ∧
    ([0xFFC#32, 0x4000#32, 0#32, 0xFFFFFFFC#32].Forall fun a =>
      a.toNat % Width.word.bytes = 0 ∧ ¬ Accessible Config.standard a .word) ∧
    midway.me.phase ≠ .idle := by decide

theorem witness_LoadExclusiveReserves :
    midway.me.phase ≠ .idle ∧ Accessible midway.cfg 0x1000#32 .word ∧
    Accessible midway.cfg 0x3FFF#32 .byte ∧ ¬ Accessible midway.cfg 0x3FFE#32 .word := by decide

theorem witness_StoreConditionalDecides :
    midway.me.phase ≠ .idle ∧ midway.mem.wf = true ∧
    (Accessible midway.cfg 0x1002#32 .half ∧
      midway.resv midway.actor = some (0x1002#32 &&& 0xFFFFFFFC#32)) ∧
    (Accessible midway.cfg 0x3FFC#32 .word ∧
      midway.resv midway.actor ≠ some (0x3FFC#32 &&& 0xFFFFFFFC#32)) ∧
    ¬ Accessible midway.cfg 0x4000#32 .byte := by decide

/-- A misaligned descriptor; one just past and one just below the populated region. -/
theorem witness_FaultsAreTaken :
    ([0x1002#32, 0x3FFC#32, 0xFF4#32].Forall fun a0 =>
      (standing .rprod .s0 fun c => { c with a0 := a0 }).atStep .rprod .s0 ∧
      stepAccess .llsc .rprod .s0 (standing .rprod .s0 fun c => { c with a0 := a0 }).me =
        some (a0 + 8#32, .word) ∧
      ¬ Accessible Config.standard (a0 + 8#32) .word) ∧
    (masked .aadd .s2 id).atStep .aadd .s2 ∧
    stepAccess .irqmask .aadd .s2 (masked .aadd .s2 id).me = some (0#32, .word) ∧
    ¬ Accessible (masked .aadd .s2 id).cfg 0#32 .word := by decide

/-- Core 0 at `S0` of a command on the first word, and on the last byte. -/
def starting (i : Instr) (a : Word) : State := standing i .s0 fun c => { c with a0 := a }

theorem witness_RetryLoopStartsAndRetries :
    (Instr.aadd.op.isRmw = true ∧ (starting .aadd 0x1000#32).cfg.backend = .llsc ∧
      Accessible (starting .aadd 0x1000#32).cfg (starting .aadd 0x1000#32).me.a0 .word ∧
      (starting .aadd 0x1000#32).atStep .aadd .s0) ∧
    ((Instr.bsetB 7#5).op.isRmw = true ∧
      Accessible (starting (.bsetB 7#5) 0x3FFF#32).cfg
        (starting (.bsetB 7#5) 0x3FFF#32).me.a0 (Instr.bsetB 7#5).op.cellWidth ∧
      (starting (.bsetB 7#5) 0x3FFF#32).atStep (.bsetB 7#5) .s0) ∧
    ((retry .acas 5#32 5#32 9#32).clrResv.atStep .acas .s1 ∧
      (retry .acas 5#32 5#32 9#32).clrResv.resv 0 ≠ some (granule 0x1000#32) ∧
      (retry .acas 5#32 5#32 9#32).clrResv.me.tmp.old =
        (retry .acas 5#32 5#32 9#32).clrResv.me.a1) := by decide

theorem witness_AtomicCommandsCommit :
    ∀ r ∈ atomicRules,
      (retry r.instr 5#32 1#32 0#32).cfg.backend = .llsc ∧
      (retry r.instr 5#32 1#32 0#32).mem.wf = true ∧
      (retry r.instr 5#32 1#32 0#32).atStep r.instr .s1 ∧
      Accessible (retry r.instr 5#32 1#32 0#32).cfg (retry r.instr 5#32 1#32 0#32).me.a0 .word ∧
      (retry r.instr 5#32 1#32 0#32).resv (retry r.instr 5#32 1#32 0#32).actor =
        some (granule (retry r.instr 5#32 1#32 0#32).me.a0) := by decide

theorem witness_CompareExchangeDecides :
    (retry .acas 9#32 5#32 7#32).cfg.backend = .llsc ∧
    (retry .acas 9#32 5#32 7#32).mem.wf = true ∧ (retry .acas 9#32 5#32 7#32).atStep .acas .s1 ∧
    (retry .acas 9#32 5#32 7#32).me.tmp.old ≠ (retry .acas 9#32 5#32 7#32).me.a1 ∧
    (retry .acas 5#32 5#32 7#32).me.tmp.old = (retry .acas 5#32 5#32 7#32).me.a1 ∧
    Accessible (retry .acas 5#32 5#32 7#32).cfg (retry .acas 5#32 5#32 7#32).me.a0 .word ∧
    (retry .acas 5#32 5#32 7#32).resv 0 = some (granule 0x1000#32) := by decide

theorem witness_BitfieldCommandsCommit :
    ∀ p ∈ [(Width.byte, 7#5, 0x3FFF#32), (Width.half, 15#5, 0x1002#32),
        (Width.word, 31#5, 0x1000#32)],
      BitOp.set ≠ .test ∧ p.2.1.toNat < p.1.bits ∧
      (bitAt (Instr.ofBit .set p.1 p.2.1) p.2.2 1#32 p.1).cfg.backend = .llsc ∧
      (bitAt (Instr.ofBit .set p.1 p.2.1) p.2.2 1#32 p.1).mem.wf = true ∧
      (bitAt (Instr.ofBit .set p.1 p.2.1) p.2.2 1#32 p.1).atStep (Instr.ofBit .set p.1 p.2.1) .s1 ∧
      Accessible (bitAt (Instr.ofBit .set p.1 p.2.1) p.2.2 1#32 p.1).cfg p.2.2 p.1 ∧
      (bitAt (Instr.ofBit .set p.1 p.2.1) p.2.2 1#32 p.1).resv 0 = some (granule p.2.2) := by
  decide

theorem witness_BitTestReads :
    (31#5).toNat < Width.word.bits ∧
    (starting (Instr.ofBit .test .word 31#5) 0x1000#32).atStep (Instr.ofBit .test .word 31#5) .s0 ∧
    Accessible (starting (Instr.ofBit .test .word 31#5) 0x1000#32).cfg 0x1000#32 .word ∧
    (starting (Instr.ofBit .test .word 31#5) 0x1000#32).cfg.backend = .llsc ∧
    (masked (Instr.ofBit .test .word 31#5) .s0 id).cfg.backend = .irqmask := by decide

/-- A command of R102 to R111; `ACAS` that succeeds, that fails with its reservation and without it, and its `LL`;
a Bit-Field command at the top bit of a byte and of a word. -/
theorem witness_AtomicCommitIsIndivisible :
    (midway.ResvLinked ∧ midway.cfg.backend = .llsc ∧ midway.mem.wf = true ∧
      midway.atStep .aadd .s1 ∧ ∃ t, exec .aadd midway = .next t ∧ t.me.phase = .idle) ∧
    (∀ s ∈ [retry .acas 5#32 5#32 9#32, retry .acas 9#32 5#32 7#32,
        (retry .acas 9#32 5#32 7#32).clrResv],
      s.ResvLinked ∧ s.cfg.backend = .llsc ∧ s.mem.wf = true ∧ s.atStep .acas .s1 ∧
      ∃ t, exec .acas s = .next t ∧ t.me.phase = .idle) ∧
    ((starting .acas 0x1000#32).cfg.backend = .llsc ∧
      (starting .acas 0x1000#32).atStep .acas .s0 ∧
      ∃ t, exec .acas (starting .acas 0x1000#32) = .next t ∧ t.me.phase ≠ .faulted) ∧
    ∀ p ∈ [(BitOp.testSet, Width.byte, 7#5, bitAt (.btasB 7#5) 0x1001#32 0#32 .byte),
        (.change, .word, 31#5, bitAt (.bchgW 31#5) 0x1000#32 0#32 .word)],
      p.1 ≠ .test ∧ p.2.2.1.toNat < p.2.1.bits ∧ p.2.2.2.ResvLinked ∧
      p.2.2.2.cfg.backend = .llsc ∧ p.2.2.2.mem.wf = true ∧
      p.2.2.2.atStep (Instr.ofBit p.1 p.2.1 p.2.2.1) .s1 ∧
      ∃ t, exec (Instr.ofBit p.1 p.2.1 p.2.2.1) p.2.2.2 = .next t ∧ t.me.phase = .idle := by
  refine ⟨⟨midway_inv.linked, by decide, by decide, by decide, _, rfl, by decide⟩, ?_,
    ⟨by decide, by decide, _, rfl, by decide⟩, ?_⟩
  · simp only [List.forall_mem_cons, List.not_mem_nil, false_implies, implies_true, and_true]
    refine ⟨?_, ?_, ?_⟩ <;>
      exact ⟨linked_of .acas .s1 0x1000#32 (by decide) (by decide) (by decide) (by decide),
        by decide, by decide, by decide, _, rfl, by decide⟩
  · simp only [List.forall_mem_cons, List.not_mem_nil, false_implies, implies_true, and_true]
    refine ⟨⟨by decide, by decide, ?_, by decide, by decide, by decide, _, rfl, by decide⟩,
      by decide, by decide, ?_, by decide, by decide, by decide, _, rfl, by decide⟩
    · exact linked_of (.bit .testSet .byte) .s1 0x1001#32 (by decide) (by decide) (by decide)
        (by decide)
    · exact linked_of (.bit .change .word) .s1 0x1000#32 (by decide) (by decide) (by decide)
        (by decide)

theorem witness_AtomicCommandAlone :
    ∀ r ∈ atomicRules, (starting r.instr 0x3FFC#32).cfg.backend = .llsc ∧
      (starting r.instr 0x3FFC#32).mem.wf = true ∧ (starting r.instr 0x3FFC#32).atStep r.instr .s0 ∧
      Accessible (starting r.instr 0x3FFC#32).cfg (starting r.instr 0x3FFC#32).me.a0 .word := by
  decide

/-- `ACAS` before its first step, the cell holding 5 and `A1` what is expected. -/
def exchanging (irqmask : Bool) (a1 : Word) : State :=
  if irqmask then
    masked .acas .s0 (fun c => { c with a0 := 0x1000#32, a1 := a1 }) (words [(0x1000, 5#32)])
  else standing .acas .s0 (fun c => { c with a0 := 0x1000#32, a1 := a1 }) (words [(0x1000, 5#32)])

theorem witness_CompareExchangeAlone :
    (∀ s ∈ [exchanging false 5#32, exchanging false 4#32], s.cfg.backend = .llsc ∧
      s.mem.wf = true ∧ s.atStep .acas .s0 ∧ Accessible s.cfg s.me.a0 .word) ∧
    (exchanging false 5#32).mem.read 0x1000 .word = (exchanging false 5#32).me.a1 ∧
    (exchanging false 4#32).mem.read 0x1000 .word ≠ (exchanging false 4#32).me.a1 := by decide

theorem witness_MaskedCompareExchangeAlone :
    (∀ s ∈ [exchanging true 5#32, exchanging true 4#32], s.cfg.backend = .irqmask ∧
      s.mem.wf = true ∧ s.atStep .acas .s0 ∧ Accessible s.cfg s.me.a0 .word) ∧
    (exchanging true 5#32).mem.read 0x1000 .word = (exchanging true 5#32).me.a1 ∧
    (exchanging true 4#32).mem.read 0x1000 .word ≠ (exchanging true 4#32).me.a1 := by decide

theorem witness_MaskedCommandsMaskAndRead :
    Instr.aadd.op.isRmw = true ∧ (masked .aadd .s0 id).cfg.backend = .irqmask ∧
    (masked .aadd .s0 id).atStep .aadd .s0 ∧
    (masked .aadd .s1 fun c => { c with a0 := 0x1000#32 }).atStep .aadd .s1 ∧
    Accessible (masked .aadd .s1 fun c => { c with a0 := 0x1000#32 }).cfg 0x1000#32 .word := by
  decide

theorem witness_MaskedCommandsWriteAndRestore :
    (∀ r ∈ atomicRules, ∀ l ∈ [Label.s2, Label.s3],
      (masked r.instr l fun c => { c with a0 := 0x1000#32 }).cfg.backend = .irqmask ∧
      (masked r.instr l fun c => { c with a0 := 0x1000#32 }).mem.wf = true ∧
      (masked r.instr l fun c => { c with a0 := 0x1000#32 }).atStep r.instr l ∧
      Accessible (masked r.instr l fun c => { c with a0 := 0x1000#32 }).cfg 0x1000#32 .word) ∧
    ∀ p ∈ [(Width.byte, 7#5), (Width.half, 15#5), (Width.word, 31#5)], ∀ l ∈ [Label.s2, Label.s3],
      BitOp.testChange ≠ .test ∧ p.2.toNat < p.1.bits ∧
      (masked (Instr.ofBit .testChange p.1 p.2) l fun c => { c with a0 := 0x1000#32 }).atStep
        (Instr.ofBit .testChange p.1 p.2) l ∧
      Accessible (masked (Instr.ofBit .testChange p.1 p.2) l id).cfg 0x1000#32 p.1 := by decide

theorem witness_OneStepLockCommands :
    ∀ i ∈ [Instr.irqlock, .csenter, .irqunlock, .csexit, .inint],
      (standing i .s0 id).atStep i .s0 := by decide

theorem witness_NestingCounterSteps :
    ∀ i ∈ [Instr.intenter, .intleave], ∀ l ∈ [Label.s0, .s1, .s2, .s3],
      (standing i l id).atStep i l := by decide

theorem witness_SnapshotsNest : midway.me.phase ≠ .idle := by decide

theorem witness_SpinlockAcquires :
    (∀ i ∈ [Instr.splock, .sptry], ∀ l ∈ [Label.s0, .s1, .s3, .s4],
      (standing i l fun c => { c with a0 := 0x1100#32 }).mem.wf = true ∧
      (standing i l fun c => { c with a0 := 0x1100#32 }).atStep i l ∧
      Accessible (standing i l id).cfg 0x1100#32 .word ∧
      Accessible (standing i l id).cfg (0x1100#32 + 4#32) .word) ∧
    ∀ i ∈ [Instr.splock, .sptry], (contending i 0#32).atStep i .s2 ∧
      (contending i 0#32).me.tmp.old = 0#32 ∧ (contending i 0#32).mem.wf = true ∧
      Accessible (contending i 0#32).cfg (contending i 0#32).me.a0 .word ∧
      (contending i 0#32).resv 0 = some (granule (contending i 0#32).me.a0) := by decide

theorem witness_SpinlockBusyPaths :
    (∀ i ∈ [Instr.splock, .sptry], (contending i 1#32).atStep i .s2 ∧
      (contending i 1#32).me.tmp.old ≠ 0#32 ∧ (contending i 0#32).clrResv.atStep i .s2 ∧
      Accessible (contending i 0#32).cfg (contending i 0#32).me.a0 .word ∧
      (contending i 0#32).clrResv.resv 0 ≠ some (granule (contending i 0#32).me.a0)) ∧
    (standing .sptry .s5 id).atStep .sptry .s5 := by decide

theorem witness_SpinlockInitAndUnlock :
    (∀ p ∈ [(Instr.spinit, Label.s0), (.spinit, .s1), (.spunlock, .s0), (.spunlock, .s1),
        (.spunlock, .s2), (.spunlock, .s3)],
      (standing p.1 p.2 fun c => { c with a0 := 0x1100#32 }).atStep p.1 p.2 ∧
      (standing p.1 p.2 fun c => { c with a0 := 0x1100#32 }).mem.wf = true) ∧
    Accessible Config.standard 0x1100#32 .word ∧
    Accessible Config.standard (0x1100#32 + 4#32) .word := by decide

/-- `SPLOCK` at its `SC`, the lock free and the reservation held. -/
theorem witness_SpinlockIsTakenOnlyWhenFree :
    (contending .splock 0#32).ResvLinked ∧ (contending .splock 0#32).mem.wf = true ∧
    (contending .splock 0#32).atStep .splock .s2 ∧
    ∃ t, exec .splock (contending .splock 0#32) = .next t ∧ t.me.phase = .at .splock .s3 := by
  exact ⟨linked_of .splock .s2 0x1100#32 (by decide) (by decide) (by decide) (by decide),
    by decide, by decide, _, rfl, by decide⟩

/-- The three invalid arguments, the quotient just below 2 and just 2, and the five stores. -/
theorem witness_RingInitValidatesAndWrites :
    (initWith 8#32 4#32).atStep .rinit .s0 ∧
    (standing .rinit .s0 id).me.a0 = 0#32 ∧
    (initWith 1000#32 0#32).me.a3 = 0#32 ∧
    (initWith 7#32 4#32).me.a2.toNat / (initWith 7#32 4#32).me.a3.toNat < 2 ∧
    ((initWith 8#32 4#32).me.a0 ≠ 0#32 ∧ (initWith 8#32 4#32).me.a1 ≠ 0#32 ∧
      (initWith 8#32 4#32).me.a3 ≠ 0#32 ∧
      2 ≤ (initWith 8#32 4#32).me.a2.toNat / (initWith 8#32 4#32).me.a3.toNat) ∧
    ∀ p ∈ [(Label.s1, 0#32), (.s2, 4#32), (.s3, 8#32), (.s4, 12#32), (.s5, 16#32)],
      (standing .rinit p.1 fun c => { c with a0 := 0x1000#32 }).atStep .rinit p.1 ∧
      (standing .rinit p.1 id).mem.wf = true ∧
      Accessible Config.standard (0x1000#32 + p.2) .word := by decide

theorem witness_CapacityLaw :
    2 ≤ (8#32).toNat / (4#32).toNat ∧ 2 ≤ (0xFFFFFFFF#32).toNat / (1#32).toNat := by decide

theorem witness_DescriptorIsLoaded :
    ∀ i ∈ loadsDescriptor, ∀ p ∈ [(Label.s0, 0x1008#32), (.s1, 0x1000#32), (.s2, 0x1004#32),
        (.s3, 0x100C#32), (.s4, 0x1010#32)],
      (standing i p.1 fun c => { c with a0 := 0x1000#32 }).atStep i p.1 ∧
      descriptorWord p.1 (standing i p.1 fun c => { c with a0 := 0x1000#32 }).me = some p.2 ∧
      Accessible Config.standard p.2 .word := by decide

/-- A ring command at `S5` with four one-byte elements from slot 6 of 8, `t.i` bytes done. -/
def copying (i : Instr) (a1 done : Word) : State :=
  standing i .s5 fun c => { c with
    a1 := a1
    tmp := { c.tmp with
      n := 4#32, off := 6#32, l := 2#32, esz := 1#32, data := 0x2000#32, i := done } }

/-- The last byte before the end of the storage, the first after it; a caller's buffer that runs out of
range. -/
theorem witness_CopyMovesOneByte :
    (∀ i ∈ loadsDescriptor, (copying i 0x3000#32 1#32).atStep i .s5 ∧
      (copying i 0x3000#32 2#32).atStep i .s5) ∧
    (∀ s ∈ [copying .rprod 0x3000#32 1#32, copying .rcons 0x3000#32 2#32],
      s.mem.wf = true ∧ s.me.tmp.i < s.me.tmp.n * s.me.tmp.esz ∧
      Accessible s.cfg (s.me.a1 + s.me.tmp.i) .byte ∧
      Accessible s.cfg (ringByte s.me.tmp s.me.tmp.i.toNat) .byte) ∧
    ringByte (copying .rprod 0x3000#32 1#32).me.tmp 1 = 0x2007#32 ∧
    ringByte (copying .rcons 0x3000#32 2#32).me.tmp 2 = 0x2000#32 ∧
    (∀ s ∈ [copying .rprod 0x3FFE#32 2#32, copying .rcons 0x3FFE#32 2#32],
      s.me.a1 + s.me.tmp.i = 0x4000#32 ∧ ¬ Accessible s.cfg 0x4000#32 .byte) := by decide

theorem witness_TransferEndsWithBarrierAndPublish :
    (∀ i ∈ loadsDescriptor, (copying i 0x3000#32 4#32).atStep i .s5 ∧
      ¬ (copying i 0x3000#32 4#32).me.tmp.i <
        (copying i 0x3000#32 4#32).me.tmp.n * (copying i 0x3000#32 4#32).me.tmp.esz) ∧
    ∀ i ∈ [Instr.rprod, .rcons, .rprodl, .rconsl], ∀ l ∈ [Label.s6, .s7],
      (standing i l fun c => { c with a0 := 0x1000#32 }).atStep i l ∧
      (standing i l id).mem.wf = true ∧
      Accessible Config.standard 0x1000#32 .word ∧
      Accessible Config.standard (0x1000#32 + 4#32) .word := by decide

theorem witness_LockedRingCommandsWrap :
    ∀ i ∈ [Instr.rprodl, .rconsl, .rlinl], ∀ l ∈ [Label.l0, .lz],
      (standing i l id).atStep i l := by decide

theorem witness_LinearExtentReports :
    ∀ i ∈ [Instr.rlin, .rlinl], ∀ l ∈ [Label.s0, .s1, .s2],
      (standing i l fun c => { c with a0 := 0x1000#32 }).atStep i l ∧
      Accessible Config.standard 0x1000#32 .word ∧
      Accessible Config.standard (0x1000#32 + 4#32) .word ∧
      Accessible Config.standard (0x1000#32 + 8#32) .word := by decide

theorem witness_SkipAdvancesTheConsumer :
    ∀ l ∈ [Label.s0, .s1, .s2],
      (standing .rskip l fun c => { c with a0 := 0x1000#32 }).atStep .rskip l ∧
      (standing .rskip l id).mem.wf = true ∧
      Accessible Config.standard (0x1000#32 + 4#32) .word := by decide

/-- Storage that ends where the address space ends, a transfer that wraps. -/
theorem witness_RingAddressesStayInTheStorage :
    ∃ t : Temps, t.mask.toNat + 1 = 2 ^ 3 ∧ 2 ^ 3 * t.esz.toNat < 2 ^ 32 ∧
      t.data.toNat + 2 ^ 3 * t.esz.toNat ≤ 2 ^ 32 ∧ t.off.toNat < 2 ^ 3 ∧ t.n.toNat ≤ 2 ^ 3 ∧
      t.l.toNat = min t.n.toNat (2 ^ 3 - t.off.toNat) :=
  ⟨{ Temps.reset with
      mask := 7#32, esz := 4#32, data := 0xFFFFFFE0#32, off := 6#32, n := 4#32, l := 2#32 },
    by decide⟩

/-- B2 of 95_test_vectors: `RPROD` of four elements from slot 6 of 8. -/
theorem witness_ProduceAlone :
    ∃ (s : State) (T : Temps) (B : Nat),
      s.mem.wf = true ∧ s.atStep .rprod .s0 ∧
      (∀ o ∈ [0#32, 4#32, 8#32, 12#32, 16#32], Accessible s.cfg (s.me.a0 + o) .word) ∧
      T.mask = s.mem.read (s.me.a0 + 8#32).toNat .word ∧
      T.inIdx = s.mem.read s.me.a0.toNat .word ∧
      T.outIdx = s.mem.read (s.me.a0 + 4#32).toNat .word ∧
      T.esz = s.mem.read (s.me.a0 + 12#32).toNat .word ∧
      T.data = s.mem.read (s.me.a0 + 16#32).toNat .word ∧
      T.off = transferStart .rprod T ∧ IsMinOf T.n s.me.a2 (transferBound .rprod T) ∧
      IsMinOf T.l T.n (T.mask + 1#32 - T.off) ∧ B = (T.n * T.esz).toNat ∧
      (∀ j, j < B → Accessible s.cfg (s.me.a1 + BitVec.ofNat 32 j) .byte ∧
        Accessible s.cfg (ringByte T j) .byte) ∧
      (∀ j, j < B →
        (ringByte T j).toNat < s.me.a0.toNat ∨ s.me.a0.toNat + 4 ≤ (ringByte T j).toNat) ∧
      (∀ j k, j < B → k < B → s.me.a1 + BitVec.ofNat 32 j ≠ ringByte T k) ∧
      ∀ j k, j < B → k < B → ringByte T j = ringByte T k → j = k := by
  refine ⟨standing .rprod .s0 (fun c => { c with a0 := 0x1000#32, a1 := 0x3000#32, a2 := 6#32 })
      (ring 0xFFFFFFFE#32 0xFFFFFFFA#32 7#32 1#32 0x2000#32),
    { Temps.reset with
      mask := 7#32, inIdx := 0xFFFFFFFE#32, outIdx := 0xFFFFFFFA#32, esz := 1#32,
      data := 0x2000#32, off := 6#32, n := 4#32, l := 2#32 }, 4,
    by decide, by decide, List.forall_iff_forall_mem.1 (by decide), by decide, by decide, by decide,
    by decide, by decide,
    by decide, by unfold IsMinOf; decide, by unfold IsMinOf; decide, by decide,
    by decide, by decide, ?_, ?_⟩
  · have h : ∀ j < 4, ∀ k < 4, 0x3000#32 + BitVec.ofNat 32 j ≠ ringByte
        { Temps.reset with
          mask := 7#32, inIdx := 0xFFFFFFFE#32, outIdx := 0xFFFFFFFA#32, esz := 1#32,
          data := 0x2000#32, off := 6#32, n := 4#32, l := 2#32 } k := by decide
    exact fun j k hj hk => h j hj k hk
  · have h : ∀ j < 4, ∀ k < 4, ringByte
        { Temps.reset with
          mask := 7#32, inIdx := 0xFFFFFFFE#32, outIdx := 0xFFFFFFFA#32, esz := 1#32,
          data := 0x2000#32, off := 6#32, n := 4#32, l := 2#32 } j = ringByte
        { Temps.reset with
          mask := 7#32, inIdx := 0xFFFFFFFE#32, outIdx := 0xFFFFFFFA#32, esz := 1#32,
          data := 0x2000#32, off := 6#32, n := 4#32, l := 2#32 } k → j = k := by decide
    exact fun j k hj hk => h j hj k hk

/-- B6 of 95_test_vectors: `RCONS` of five elements from slot 5 of 8. -/
theorem witness_ConsumeAlone :
    ∃ (s : State) (T : Temps) (B : Nat),
      s.mem.wf = true ∧ s.atStep .rcons .s0 ∧
      (∀ o ∈ [0#32, 4#32, 8#32, 12#32, 16#32], Accessible s.cfg (s.me.a0 + o) .word) ∧
      T.mask = s.mem.read (s.me.a0 + 8#32).toNat .word ∧
      T.inIdx = s.mem.read s.me.a0.toNat .word ∧
      T.outIdx = s.mem.read (s.me.a0 + 4#32).toNat .word ∧
      T.esz = s.mem.read (s.me.a0 + 12#32).toNat .word ∧
      T.data = s.mem.read (s.me.a0 + 16#32).toNat .word ∧
      T.off = transferStart .rcons T ∧ IsMinOf T.n s.me.a2 (transferBound .rcons T) ∧
      IsMinOf T.l T.n (T.mask + 1#32 - T.off) ∧ B = (T.n * T.esz).toNat ∧
      (∀ j, j < B → Accessible s.cfg (s.me.a1 + BitVec.ofNat 32 j) .byte ∧
        Accessible s.cfg (ringByte T j) .byte) ∧
      (∀ j, j < B →
        (s.me.a1 + BitVec.ofNat 32 j).toNat < (s.me.a0 + 4#32).toNat ∨
        (s.me.a0 + 4#32).toNat + 4 ≤ (s.me.a1 + BitVec.ofNat 32 j).toNat) ∧
      ∀ j k, j < B → k < B → s.me.a1 + BitVec.ofNat 32 j ≠ ringByte T k := by
  refine ⟨standing .rcons .s0 (fun c => { c with a0 := 0x1000#32, a1 := 0x3100#32, a2 := 8#32 })
      (ring 10#32 5#32 7#32 1#32 0x2000#32),
    { Temps.reset with
      mask := 7#32, inIdx := 10#32, outIdx := 5#32, esz := 1#32,
      data := 0x2000#32, off := 5#32, n := 5#32, l := 3#32 }, 5,
    by decide, by decide, List.forall_iff_forall_mem.1 (by decide), by decide, by decide, by decide,
    by decide, by decide,
    by decide, by unfold IsMinOf; decide, by unfold IsMinOf; decide, by decide,
    by decide, by decide, ?_⟩
  have h : ∀ j < 5, ∀ k < 5, 0x3100#32 + BitVec.ofNat 32 j ≠ ringByte
      { Temps.reset with
        mask := 7#32, inIdx := 10#32, outIdx := 5#32, esz := 1#32,
        data := 0x2000#32, off := 5#32, n := 5#32, l := 3#32 } k := by decide
  exact fun j k hj hk => h j hj k hk

/-- Deliverable at `MAXNEST - 1`; not when masked, not at `MAXNEST`, not when FAULTED. -/
theorem witness_InterruptDelivery :
    (scheduled [.deliver 1]).Shaped ∧ 1 < (scheduled [.deliver 1]).cfg.ncore ∧
    ((scheduled [.deliver 1]).imask 1 = 0#32 ∧
      (scheduled [.deliver 1]).depth 1 < (scheduled [.deliver 1]).cfg.maxnest ∧
      ((scheduled [.deliver 1]).running 1).phase ≠ .faulted) ∧
    ((scheduled []).setImask 1#32).imask 0 ≠ 0#32 ∧
    ¬ ((scheduled []).enterHandler 0).depth 0 < ((scheduled []).enterHandler 0).cfg.maxnest ∧
    (faulted.running 0).phase = .faulted :=
  ⟨scheduled_shaped _, by decide⟩

/-- In a handler, idle. -/
def handling (l : List Event) : State := { State.reset.enterHandler 0 with schedule := l }

theorem handling_shaped (l : List Event) : (handling l).Shaped :=
  have h : (State.reset.enterHandler 0).Shaped := ⟨by decide, by decide, by decide, by decide⟩
  ⟨h.legal, h.cores, h.ports, h.depth⟩

theorem witness_InterruptReturnAndMonitorLoss :
    (handling [.ret 0]).Shaped ∧ 0 < (handling [.ret 0]).cfg.ncore ∧
    (1 ≤ (handling [.ret 0]).depth 0 ∧ ((handling [.ret 0]).running 0).phase = .idle) ∧
    ¬ 1 ≤ (scheduled [.ret 0]).depth 0 ∧
    (scheduled [.lose 1]).cfg.monitorLoss = .allowed ∧
    (State.resetWith { Config.standard with monitorLoss := .never }).cfg.monitorLoss = .never :=
  ⟨handling_shaped _, by decide⟩

/-- The last addresses in range, the first ones out of it, and a misaligned one. -/
theorem witness_HostEventsActOnTheIdleContext :
    (∀ l, (scheduled l).Shaped) ∧ (scheduled []).mem.wf = true ∧ 1 < (scheduled []).cfg.ncore ∧
    ((scheduled []).running 1).phase = .idle ∧
    Accessible (scheduled []).cfg 0x1000#32 .word ∧ Accessible (scheduled []).cfg 0x3FFF#32 .byte ∧
    ¬ Accessible (scheduled []).cfg 0xFFF#32 .byte ∧
    ¬ Accessible (scheduled []).cfg 0x4000#32 .byte ∧
    ¬ Accessible (scheduled []).cfg 0x3FFE#32 .word :=
  ⟨scheduled_shaped, by decide⟩

theorem witness_CommandsKeepWhatTheyDoNotName :
    (∃ t, exec .acas (retry .acas 9#32 5#32 7#32) = .next t) ∧
    ∃ t, exec .intenter (standing .intenter .s2 id) = .next t := ⟨⟨_, rfl⟩, _, rfl⟩

theorem witness_EnvironmentKeepsMasksAndCounters :
    ∀ e ∈ [Event.issue 1 0x10#32, .setArg 0 .a0 1#32, .copyArg 0 .a0 .r0, .readPort 0 .st,
        .hostRead 0 0x1000#32 .word, .hostWrite 0 0x1000#32 .word 1#32, .deliver 0, .lose 1],
      stepped (scheduled [e]) (fun _ => true) = true := by decide


end Sys2Proof.Tests
end

section
/-! SUPPORT. The proofs of the memory family: a value bit by bit (20_memory R50), the checks of an access
(R53, R56) and the exclusive pair (R64, R65). -/

namespace Sys2Proof.Machine

/-! ### A value bit by bit -/

/-- The bits of the lowest byte of a concatenation. -/
theorem getLsbD_append_byte_low {n : Nat} (x : BitVec n) (y : Byte) {j : Nat} (hj : j < 8) :
    (x ++ y).getLsbD (8 * 0 + j) = y.getLsbD j := by
  simp [BitVec.getLsbD_append, hj]

/-- The bits above the lowest byte of a concatenation. -/
theorem getLsbD_append_byte_high {n : Nat} (x : BitVec n) (y : Byte) (i j : Nat) :
    (x ++ y).getLsbD (8 * (i + 1) + j) = x.getLsbD (8 * i + j) := by
  rw [BitVec.getLsbD_append, if_neg (by omega)]
  congr 1
  omega

/-- Byte `i` of a value read is the byte at `a + i` (20_memory R50). -/
theorem Memory.getLsbD_read (m : Memory) (a : Nat) {w : Width} {i j : Nat} (hi : i < w.bytes)
    (hj : j < 8) : (m.read a w).getLsbD (8 * i + j) = (m.get (a + i)).getLsbD j := by
  have low {n : Nat} (x : BitVec n) (y : Byte) := getLsbD_append_byte_low x y hj
  have extend {n : Nat} (x : BitVec n) {b : Nat} (hb : b < 32) :
      (x.setWidth 32).getLsbD b = x.getLsbD b := by simp [hb]
  cases w with
  | byte =>
    obtain rfl : i = 0 := Nat.lt_one_iff.mp hi
    rw [Memory.read, extend _ (by omega), Nat.mul_zero, Nat.zero_add, Nat.add_zero]
  | half =>
    have hi2 : i < 2 := hi
    rw [Memory.read, extend _ (by omega)]
    rcases i with _ | _ | i
    · rw [low, Nat.add_zero]
    · rw [getLsbD_append_byte_high, Nat.mul_zero, Nat.zero_add]
    · omega
  | word =>
    have hi4 : i < 4 := hi
    rw [Memory.read]
    rcases i with _ | _ | _ | _ | i
    · rw [low, Nat.add_zero]
    · rw [getLsbD_append_byte_high, low]
    · rw [getLsbD_append_byte_high, getLsbD_append_byte_high, low]
    · rw [getLsbD_append_byte_high, getLsbD_append_byte_high, getLsbD_append_byte_high,
        Nat.mul_zero, Nat.zero_add]
    · omega

/-- A value read has no bits above its bytes: it is zero-extended (20_memory R50). -/
theorem Memory.getLsbD_read_above (m : Memory) (a : Nat) {w : Width} {b : Nat}
    (hb : 8 * w.bytes ≤ b) : (m.read a w).getLsbD b = false := by
  cases w with
  | byte =>
    rw [Memory.read, BitVec.getLsbD_setWidth, (m.get a).getLsbD_of_ge b hb, Bool.and_false]
  | half =>
    rw [Memory.read, BitVec.getLsbD_setWidth, BitVec.getLsbD_of_ge (m.get (a + 1) ++ m.get a) b hb,
      Bool.and_false]
  | word => exact BitVec.getLsbD_of_ge _ b hb

/-- Byte `i` of a value written is the byte at `a + i` (20_memory R50). -/
theorem Memory.getLsbD_get_write {m : Memory} (h : m.wf = true) (a : Nat) {w : Width} (v : Word)
    {i j : Nat} (hi : i < w.bytes) (hj : j < 8) :
    ((m.write a w v).get (a + i)).getLsbD j = v.getLsbD (8 * i + j) := by
  rw [Memory.get_write_inside h a w v hi, BitVec.getLsbD_extractLsb', decide_eq_true hj,
    Bool.true_and]

/-- Settles O20: each clause is the law of one access, bit by bit. -/
theorem memoryIsLittleEndian : Obligations.MemoryIsLittleEndian := fun m a w v =>
  ⟨fun _ _ => m.getLsbD_read a, fun _ => m.getLsbD_read_above a,
    fun hm _ _ => Memory.getLsbD_get_write hm a v, fun _ => m.get_write_outside w v⟩

/-! ### The checks of an access -/

/-- A misaligned access meets the alignment fault, whatever its range (20_memory R53). -/
theorem accessFault_misaligned (cfg : Config) {a : Word} {w : Width} (h : a.toNat % w.bytes ≠ 0) :
    accessFault cfg a w = some .align := by
  simp [accessFault, aligned, h]

/-- An aligned access that is not allowed meets the bus fault (20_memory R56). -/
theorem accessFault_outOfRange {cfg : Config} {a : Word} {w : Width} (h : a.toNat % w.bytes = 0)
    (hn : ¬ Accessible cfg a w) : accessFault cfg a w = some .bus := by
  have hr : ¬ inRange cfg a w = true := fun hr => hn ⟨h, by simpa [inRange] using hr⟩
  simp [accessFault, aligned, h, hr]

/-- All four primitives take the fault the access meets, whatever would follow it (60_exceptions R203). -/
theorem access_raises {s : State} {a : Word} {w : Width} {f : AccessFault}
    (hf : accessFault s.cfg a w = some f) (v : Word) (kr : Word → State → State)
    (kw : State → State) (kc : Bool → State → State) :
    s.load a w kr = s.raise f a ∧ s.store a w v kw = s.raise f a ∧
      s.ll a w kr = s.raise f a ∧ s.sc a w v kc = s.raise f a :=
  ⟨load_fault hf kr, store_fault hf v kw, ll_fault hf kr, sc_fault hf v kc⟩

/-- What a primitive leaves that meets its access's fault: the executing context has faulted with the
code of the check that failed, and nothing else changed (60_exceptions R203, R205). -/
theorem raised_of_not_accessible {s t : State} {a : Word} {w : Width} (hl : s.live = true)
    (hn : ¬ Accessible s.cfg a w) (ht : ∀ f, accessFault s.cfg a w = some f → t = s.raise f a) :
    OnlyContext s t ∧ t.me = { s.me with
      fsr := if a.toNat % w.bytes ≠ 0 then 1#32 else 2#32, far := a, phase := .faulted } := by
  obtain ⟨f, hf, hcode⟩ := accessFault_of_not hn
  rw [ht f hf, raise_me s f a hl, hcode]
  exact ⟨raise_only s f a, rfl⟩

/-- Settles O22: which fault an access meets, then what raising it does. -/
theorem accessesAreChecked : Obligations.AccessesAreChecked := by
  refine ⟨fun s a w v kr kw kc => ⟨fun hmis => ?_, fun hal hn => ?_⟩, fun s a hp => ?_⟩
  · exact access_raises (accessFault_misaligned s.cfg hmis) v kr kw kc
  · exact access_raises (accessFault_outOfRange hal hn) v kr kw kc
  · have hl := live_of_busy hp
    exact ⟨raise_only s .align a, raise_only s .bus a, raise_me s .align a hl, raise_me s .bus a hl⟩

/-! ### The exclusive pair -/

/-- Settles O23: an exclusive load reserves or faults. -/
theorem loadExclusiveReserves : Obligations.LoadExclusiveReserves := by
  intro s a w k hp
  have hl := live_of_busy hp
  refine ⟨fun ha => ?_, fun hn => raised_of_not_accessible hl hn fun _ hf => ll_fault hf k⟩
  exact ⟨_, ll_ok (accessible_iff.mpr ha) k, record_reserve_only s hl a w _, by simp⟩

/-- Settles O24: a conditional store stores, gives up or faults. After a store the core's own reservation
is gone because it lay on the granule written (20_memory R66). -/
theorem storeConditionalDecides : Obligations.StoreConditionalDecides := by
  intro s a w v k hp hm
  refine ⟨fun ha hr => ?held, fun ha hr => ?lost, fun hn =>
    raised_of_not_accessible (live_of_busy hp) hn fun _ hf => sc_fault hf v k⟩
  case held =>
    have hw := writeMem_only s hm a w v
    exact ⟨_, sc_ok (accessible_iff.mpr ha) hr v k, hw, by simp, (hw.resv _).trans (if_pos hr)⟩
  case lost =>
    have hc := clrResv_only s
    exact ⟨_, sc_lost (accessible_iff.mpr ha) hr v k, hc, by simp, (hc.resv _).trans (if_pos rfl)⟩

end Sys2Proof.Machine
end

section
/-! SUPPORT. The proofs of the encoding family: what a word that decodes looks like, field by field
(30_encoding R81, R84, R87, R88), and what an issue does (R80). -/

namespace Sys2Proof

/-! ### Operation codes -/

/-- The Bit-Field operation codes are `0x20` to `0x26` (30_encoding R87). -/
theorem bitOpOfCode_isSome_iff (c : BitVec 8) :
    (bitOpOfCode c).isSome = true ↔ 0x20#8 ≤ c ∧ c ≤ 0x26#8 := by
  revert c; decide

theorem code_of_bitOpOfCode {c : BitVec 8} {o : BitOp} (h : bitOpOfCode c = some o) : c = o.code := by
  unfold bitOpOfCode at h
  split at h <;> cases h <;> exact BitVec.eq_of_toNat_eq ‹_›

theorem code_of_plainOfCode {c : BitVec 8} {i : Instr} (h : plainOfCode c = some i) :
    c = i.op.code := by
  unfold plainOfCode at h
  split at h <;> cases h <;> exact BitVec.eq_of_toNat_eq ‹_›

theorem code_of_widthOfCode {c : BitVec 2} {w : Width} (h : widthOfCode c = some w) : c = w.code := by
  unfold widthOfCode at h
  split at h <;> cases h <;> exact BitVec.eq_of_toNat_eq ‹_›

/-- `SZ = 3` is reserved (30_encoding R81). -/
theorem Width.code_ne_three (w : Width) : w.code ≠ 3#2 := by cases w <;> decide

/-- `W = 8 << SZ` (30_encoding R84). -/
theorem Width.bits_eq (w : Width) : w.bits = 8 * 2 ^ w.code.toNat := by cases w <;> rfl

theorem BitOp.code_in_table (o : BitOp) : ∃ r ∈ opcodeTable, o.code = fieldOp r.pattern := by
  cases o <;> decide

/-- Every operation code stands in a row of the opcode table (30_encoding R87, R93). -/
theorem Op.code_in_table (o : Op) : ∃ r ∈ opcodeTable, o.code = fieldOp r.pattern := by
  cases o with
  | bit o w => exact o.code_in_table
  | _ => decide

/-! ### The words that decode -/

/-- The two ways a word decodes (30_encoding R93): as a Bit-Field command, whose `SZ` names a width above
`BIT`, or as a command that has neither operand. -/
theorem decodeWord_ok {w : Word} {i : Instr} (h : decodeWord w = .ok i) :
    fieldRsv w = 0#17 ∧
      ((∃ o wd, bitOpOfCode (fieldOp w) = some o ∧ widthOfCode (fieldSz w) = some wd ∧
          (fieldBit w).toNat < wd.bits) ∨
        (bitOpOfCode (fieldOp w) = none ∧ (∃ j, plainOfCode (fieldOp w) = some j) ∧
          fieldSz w = 0#2 ∧ fieldBit w = 0#5)) := by
  unfold decodeWord at h
  split at h
  · cases h
  · next hrsv =>
    refine ⟨not_not.mp hrsv, ?_⟩
    split at h
    · next o ho =>
      split at h
      · cases h
      · next wd hwd =>
        split at h
        · next hbit => exact .inl ⟨o, wd, ho, hwd, hbit⟩
        · cases h
    · next ho =>
      split at h
      · cases h
      · next j hj =>
        split at h
        · next hz => exact .inr ⟨ho, ⟨j, hj⟩, hz⟩
        · cases h

section fields
variable {w : Word} {i : Instr} (h : decodeWord w = .ok i)
include h

/-- The operation code of a word that decodes is one of the table's. -/
theorem fieldOp_of_decodeWord : ∃ r ∈ opcodeTable, fieldOp w = fieldOp r.pattern := by
  obtain ⟨_, ⟨o, _, ho, _⟩ | ⟨_, ⟨j, hj⟩, _⟩⟩ := decodeWord_ok h
  · rw [code_of_bitOpOfCode ho]; exact o.code_in_table
  · rw [code_of_plainOfCode hj]; exact j.op.code_in_table

/-- Outside the Bit-Field family a word that decodes has no operands. -/
theorem operands_zero_of_decodeWord (hop : fieldOp w < 0x20#8 ∨ 0x26#8 < fieldOp w) :
    fieldSz w = 0#2 ∧ fieldBit w = 0#5 := by
  obtain ⟨_, ⟨o, _, ho, _⟩ | ⟨_, _, hz⟩⟩ := decodeWord_ok h
  · obtain ⟨hlo, hhi⟩ := (bitOpOfCode_isSome_iff _).mp (Option.isSome_of_eq_some ho)
    exact absurd hop (not_or.mpr ⟨BitVec.not_lt.mpr hlo, BitVec.not_lt.mpr hhi⟩)
  · exact hz

/-- In the Bit-Field family `SZ` of a word that decodes is a width, and `BIT` lies below it. -/
theorem operands_bounded_of_decodeWord (hlo : 0x20#8 ≤ fieldOp w) (hhi : fieldOp w ≤ 0x26#8) :
    fieldSz w ≠ 3#2 ∧ (fieldBit w).toNat < 8 * 2 ^ (fieldSz w).toNat := by
  obtain ⟨_, ⟨_, wd, _, hwd, hbit⟩ | ⟨hnone, _⟩⟩ := decodeWord_ok h
  · rw [code_of_widthOfCode hwd, ← wd.bits_eq]; exact ⟨wd.code_ne_three, hbit⟩
  · simpa [hnone] using (bitOpOfCode_isSome_iff _).mpr ⟨hlo, hhi⟩

end fields

/-- A word of one of R88's classes does not decode. -/
theorem decodeWord_error {w : Word}
    (h : (fieldRsv w ≠ 0#17) ∨ (∀ r ∈ opcodeTable, fieldOp w ≠ fieldOp r.pattern) ∨
      ((fieldOp w < 0x20#8 ∨ 0x26#8 < fieldOp w) ∧ (fieldSz w ≠ 0#2 ∨ fieldBit w ≠ 0#5)) ∨
      (0x20#8 ≤ fieldOp w ∧ fieldOp w ≤ 0x26#8 ∧
        (fieldSz w = 3#2 ∨ 8 * 2 ^ (fieldSz w).toNat ≤ (fieldBit w).toNat))) :
    ∃ e, decodeWord w = .error e := by
  cases hd : decodeWord w with
  | error e => exact ⟨e, rfl⟩
  | ok i =>
    exfalso
    rcases h with hrsv | hop | ⟨hout, hstray⟩ | ⟨hlo, hhi, hbad⟩
    · exact hrsv (decodeWord_ok hd).1
    · obtain ⟨r, hr, he⟩ := fieldOp_of_decodeWord hd
      exact hop r hr he
    · obtain ⟨hsz, hbit⟩ := operands_zero_of_decodeWord hd hout
      exact hstray.elim (· hsz) (· hbit)
    · obtain ⟨hsz, hbit⟩ := operands_bounded_of_decodeWord hd hlo hhi
      exact hbad.elim hsz (Nat.not_le.mpr hbit)

end Sys2Proof

namespace Sys2Proof.Machine

/-! ### Issue -/

/-- An illegal word is latched and reported, and the context stays where it is (30_encoding R88). -/
theorem issue_of_error {w : Word} {e : Illegal} (h : decodeWord w = .error e) (c : Context) :
    c.issue w = { c with cmdr := w, st := 95#32 } := by
  simp [Context.issue, h, Status.code]

/-- A host event that does `f` on an idle running context does it with that core acting. -/
theorem hostEvent_of_idle {s : State} {k : Nat} (hk : k < s.cfg.ncore)
    (hi : (s.running k).phase = .idle) (f : State → State) :
    s.hostEvent k f = .next (f (s.actAs k)) := by
  rw [State.hostEvent, if_pos hk, if_pos hi]

/-- The step that takes an issue to an idle running context (30_encoding R80). -/
theorem step_issue {s : State} {k : Nat} {w : Word} {rest : List Event} (hl : s.cfg.legal = true)
    (hs : s.schedule = .issue k w :: rest) (hk : k < s.cfg.ncore)
    (hi : (s.running k).phase = .idle) :
    step s = .next ((s.turnTo k rest).updMe fun c => c.issue w) := by
  unfold step
  rw [if_pos hl, hs]
  exact hostEvent_of_idle (s := { s with schedule := rest }) hk hi
    fun t => t.updMe fun c => c.issue w

/-- In a machine of its configuration's shape the running context of every core exists. -/
theorem live_of_shaped {s : State} (h : s.Shaped) (hk : s.actor < s.cfg.ncore) : s.live = true := by
  have hlen : s.actor < s.cores.length := h.cores ▸ hk
  have hmem : s.coreAt s.actor ∈ s.cores := by
    rw [State.coreAt, List.getD_eq_getElem _ _ hlen]; exact List.getElem_mem hlen
  refine live_iff.mpr ⟨hlen, ?_⟩
  rw [h.ports _ hmem]
  exact Nat.lt_succ_of_le (h.depth _ hmem)

theorem turnTo_shaped {s : State} (h : s.Shaped) (k : Nat) (rest : List Event) :
    (s.turnTo k rest).Shaped :=
  ⟨h.legal, h.cores, h.ports, h.depth⟩

@[simp] theorem turnTo_me (s : State) (k : Nat) (rest : List Event) :
    (s.turnTo k rest).me = s.running k := rfl

/-- Settles O5: a word of R88's classes does not decode, so its issue is the rejecting one. -/
theorem illegalWordsAreRejected : Obligations.IllegalWordsAreRejected := by
  intro s k w rest hsh hs hk hi hbad
  obtain ⟨e, he⟩ := decodeWord_error hbad
  have hlive : (s.turnTo k rest).live = true := live_of_shaped (turnTo_shaped hsh k rest) hk
  have hme : ((s.turnTo k rest).updMe fun c => c.issue w).me =
      { s.running k with cmdr := w, st := 95#32 } := by
    rw [updMe_me _ _ hlive, turnTo_me, issue_of_error he]
  exact ⟨_, step_issue hsh.legal hs hk hi, updMe_only _ _, hme, by rw [hme]; exact hi⟩

end Sys2Proof.Machine
end

section
/-! SUPPORT. The proofs of the IRQ-lock family: how a command completes, the steps of the lock, unlock and
nesting commands once each (43_irq_lock R171 to R179), and which commands are made of which. -/

namespace Sys2Proof.Machine

/-! ### From the steps of a command to `exec` -/

/-- What a command's steps give at the step its context stands at is what `exec` gives (00_scope R10). -/
theorem exec_of_steps {i : Instr} {s : State} {l : Label} {steps : State → Label → Option State}
    {P : State → Prop} (hs : stepsOf i = steps) (hp : s.atStep i l)
    (h : ∃ t, steps s l = some t ∧ P t) : ∃ t, exec i s = .next t ∧ P t := by
  obtain ⟨t, ht, hP⟩ := h
  exact ⟨t, exec_at hp (hs ▸ ht), hP⟩

/-- `ST <- code; done` completes the command with that status and no other register changed. -/
theorem finish_completed {s : State} (hl : s.live) (c : Status) :
    Completed (s.finish c) { s.me with st := c.code } := by
  simp [Completed, hl]

/-! ### The commands of one step -/

section oneStep
variable {s : State} (hl : s.live)
include hl

/-- The step of `IRQLOCK` and `CSENTER` (43_irq_lock R171, R173). -/
theorem lock_step : ∃ t, lockSteps s .s0 = some t ∧ OnlyMasks s t 1#32 ∧
    Completed t { s.me with r0 := s.imask s.actor, st := 0#32 } := by
  have hl' : (s.setR0 (s.imask s.actor)).live := by simpa using hl
  have hmask := OnlyMasks.after (setR0_only s _) (setImask_only _ hl' 1#32)
  refine ⟨_, rfl, hmask.andThen (finish_only _ .ok), ?_⟩
  simpa [hl, Status.code] using
    finish_completed (s := (s.setR0 (s.imask s.actor)).setImask 1#32) (by simpa using hl) .ok

/-- The step of `IRQUNLOCK` and `CSEXIT` (43_irq_lock R172, R174), and the last one of `INTENTER` and
`INTLEAVE` (R177, R178). -/
theorem release_finish (v : Word) : OnlyMasks s ((s.release v).finish .ok) (v &&& 1#32) ∧
    Completed ((s.release v).finish .ok) { s.me with st := 0#32 } := by
  refine ⟨(release_only s hl v).andThen (finish_only _ .ok), ?_⟩
  simpa [Status.code] using finish_completed (s := s.release v) (by simpa using hl) .ok

/-- The step of `ININT` (43_irq_lock R179). -/
theorem inInt_step : ∃ t, inIntSteps s .s0 = some t ∧ OnlyContext s t ∧
    Completed t { s.me with r0 := if s.nest = 0#32 then 0#32 else 1#32, st := 0#32 } := by
  refine ⟨_, rfl, (setR0_only s _).trans (finish_only _ .ok), ?_⟩
  have hr0 : boolWord (decide (s.nest ≠ 0#32)) = if s.nest = 0#32 then 0#32 else 1#32 := by
    by_cases hz : s.nest = 0#32 <;> simp [boolWord, hz]
  rw [hr0]
  simpa [hl, Status.code] using finish_completed (s := s.setR0 _) (by simpa using hl) .ok

end oneStep

/-- `CSENTER` has the steps of `IRQLOCK` (43_irq_lock R175). -/
theorem stepsOf_lock {i : Instr} (hi : i ∈ [Instr.irqlock, .csenter]) : stepsOf i = lockSteps := by
  simp only [List.mem_cons, List.not_mem_nil, or_false] at hi
  rcases hi with rfl | rfl <;> rfl

/-- `CSEXIT` has the steps of `IRQUNLOCK` (43_irq_lock R176). -/
theorem stepsOf_unlock {i : Instr} (hi : i ∈ [Instr.irqunlock, .csexit]) :
    stepsOf i = unlockSteps := by
  simp only [List.mem_cons, List.not_mem_nil, or_false] at hi
  rcases hi with rfl | rfl <;> rfl

/-- Settles O37: each command runs the one step it shares with its like. -/
theorem oneStepLockCommands : Obligations.OneStepLockCommands := by
  refine ⟨by decide, fun s => ⟨fun i hi hp => ?lock, fun i hi hp => ?unlock, fun hp => ?inint⟩⟩
  case lock => exact exec_of_steps (stepsOf_lock hi) hp (lock_step (live_at hp))
  case unlock =>
    exact exec_of_steps (stepsOf_unlock hi) hp ⟨_, rfl, release_finish (live_at hp) s.me.a0⟩
  case inint => exact exec_of_steps rfl hp (inInt_step (live_at hp))

/-! ### The nesting counter -/

/-- A write of `NEST` (10_state R29). -/
theorem setNest_only (s : State) (n : Word) : OnlyCounts s { s with nest := n } n where
  toSameElse := ⟨rfl, rfl, rfl, rfl, fun _ => rfl, fun _ _ _ => rfl⟩
  bytes _ := rfl
  nest := rfl
  masks _ := rfl
  resv _ := rfl
  logs := rfl

@[simp] theorem setNest_me (s : State) (n : Word) : ({ s with nest := n } : State).me = s.me := rfl
@[simp] theorem setNest_live (s : State) (n : Word) :
    ({ s with nest := n } : State).live = s.live := rfl

section nest
variable {f : Word → Word} {s : State} {op : Op}

/-- `S0`: the acquire step (43_irq_lock R171). -/
theorem nest_mask (h : s.me.phase = .at op .s0) :
    ∃ t, nestSteps f s .s0 = some t ∧ OnlyMasks s t 1#32 ∧
      t.me = { s.me with
        phase := .at op .s1, tmp := { s.me.tmp with snap := s.imask s.actor } } := by
  have hl := live_at h
  exact ⟨_, rfl, (acquire_only s hl).andThen (goto_only _ _), by simp [hl, h]⟩

/-- `S1`: the counter is read. -/
theorem nest_read (h : s.me.phase = .at op .s1) :
    ∃ t, nestSteps f s .s1 = some t ∧ OnlyContext s t ∧
      t.me = { s.me with phase := .at op .s2, tmp := { s.me.tmp with nest := s.nest } } := by
  have hl := live_at h
  exact ⟨_, rfl, (updTmp_only s _).trans (goto_only _ _), by simp [hl, h]⟩

/-- `S2`: the counter is written, from the value read at `S1`. -/
theorem nest_write (h : s.me.phase = .at op .s2) :
    ∃ t, nestSteps f s .s2 = some t ∧ OnlyCounts s t (f s.me.tmp.nest) ∧
      t.me = { s.me with phase := .at op .s3 } := by
  have hl := live_at h
  exact ⟨_, rfl, (setNest_only s _).andThen (goto_only _ _), by simp [hl, h]⟩

end nest

/-- `INTENTER` adds 1 to the counter and `INTLEAVE` adds `2^32 - 1`, which modulo `2^32` takes 1 away
(43_irq_lock R177, R178). -/
theorem stepsOf_nest {p : Instr × Word}
    (hp : p ∈ [(Instr.intenter, 1#32), (.intleave, 0xFFFFFFFF#32)]) :
    stepsOf p.1 = nestSteps fun n => n + p.2 := by
  simp only [List.mem_cons, List.not_mem_nil, or_false] at hp
  rcases hp with rfl | rfl
  · rfl
  · exact congrArg nestSteps (funext fun n => BitVec.sub_eq_add_neg n 1#32)

/-- Settles O38: both commands run the steps of the counter, each with what it adds. -/
theorem nestingCounterSteps : Obligations.NestingCounterSteps := by
  refine ⟨by decide, fun p hp s => ?_⟩
  have hs := stepsOf_nest hp
  exact ⟨fun h => exec_of_steps hs h (nest_mask h), fun h => exec_of_steps hs h (nest_read h),
    fun h => exec_of_steps hs h (nest_write h),
    fun h => exec_of_steps hs h ⟨_, rfl, release_finish (live_at h) s.me.tmp.snap⟩⟩

end Sys2Proof.Machine
end

section
/-! SUPPORT. The proofs of the invariants of one register or field: shape, memory, core registers, fault
registers (10_state R20, R27, R28, R30 to R32). Each says what a core or a context must meet and cites what
a micro-step and an event can do to one. -/

namespace Sys2Proof.Machine

/-! ### Shape -/

/-- A core has one context for each level, and stands at one of them (10_state R20, R30). -/
def CoreShaped (cfg : Config) (c : CoreState) : Prop :=
  c.ports.length = cfg.maxnest + 1 ∧ c.depth ≤ cfg.maxnest

theorem coreShaped_prop (cfg : Config) : CoreProp (CoreShaped cfg) where
  upd c f h := ⟨(updRunning_ports_length c f).trans h.1, h.2⟩
  none _ h := h
  mask _ _ h := h
  some _ _ h := h

theorem shaped_iff {s : State} : s.Shaped ↔
    s.cfg.legal = true ∧ s.cores.length = s.cfg.ncore ∧ AllCores (CoreShaped s.cfg) s :=
  ⟨fun h => ⟨h.legal, h.cores, fun c hc => ⟨h.ports c hc, h.depth c hc⟩⟩,
    fun ⟨hl, hn, hc⟩ => ⟨hl, hn, fun c h => (hc c h).1, fun c h => (hc c h).2⟩⟩

/-- `DEPTH[k]` of a core the machine has is what the core holds. -/
theorem depth_of_getElem? {s : State} {k : Nat} {c : CoreState} (h : s.cores[k]? = some c) :
    s.depth k = c.depth := by
  simp [State.depth, State.coreAt, List.getD_eq_getElem?_getD, h]

theorem mayDeliver_iff {s : State} {k : Nat} : s.mayDeliver k = true ↔
    s.imask k = 0#32 ∧ s.depth k < s.cfg.maxnest ∧ (s.running k).phase ≠ .faulted := by
  simp [State.mayDeliver, and_assoc]

theorem mayReturn_iff {s : State} {k : Nat} : s.mayReturn k = true ↔
    1 ≤ s.depth k ∧ (s.running k).phase = .idle := by
  simp [State.mayReturn]

/-- Settles O11: a delivery is the one event that deepens a core, and it is enabled below `MAXNEST` only. -/
theorem stepKeepsTheShape : Obligations.StepKeepsTheShape := by
  intro s t h hst
  refine step_keeps (P := State.Shaped) (fun s rest h => ⟨h.legal, h.cores, h.ports, h.depth⟩)
    (fun s i k t h _ _ hx => ?micro) (fun s e t h _ hx => ?event) h hst
  case micro =>
    obtain ⟨hl, hn, hc⟩ := shaped_iff.mp h
    have g := exec_shape hx
    have hcfg : t.cfg = s.cfg := shape_cfg (s := s.actAs k) g
    have hlen : t.cores.length = s.cores.length := shape_len (s := s.actAs k) g
    rw [shaped_iff, hcfg, hlen]
    exact ⟨hl, hn, all_shape (coreShaped_prop s.cfg) (s := s.actAs k) hc g⟩
  case event =>
    obtain ⟨hl, hn, hc⟩ := shaped_iff.mp h
    rw [shaped_iff, env_cfg hx, env_len hx]
    refine ⟨hl, hn, all_env (coreShaped_prop s.cfg) hc hx (fun k c hd hk hp => ?_) fun c hp => ?_⟩
    · obtain ⟨_, hlt, _⟩ := mayDeliver_iff.mp hd
      rw [depth_of_getElem? hk] at hlt
      exact ⟨(List.length_set ..).trans hp.1, hlt⟩
    · exact ⟨hp.1, (Nat.sub_le _ _).trans hp.2⟩

/-! ### Memory -/

theorem memOk_shape {p q r x : Bool} {s t : State} (h : s.MemOk) (g : Shape p q r x s t) : t.MemOk := by
  cases g with
  | acts s' u h1 h2 h3 =>
    have before := memOk_same h (ctx_mem h1) (ctx_cfg h1)
    exact memOk_same (memOk_prim before h2) (ctx_mem h3) (ctx_cfg h3)
  | faults f a e => subst e; exact memOk_same h rfl rfl
  | faultsLate f a b _ e => subst e; exact memOk_same h rfl rfl

theorem memOk_env {s t : State} {e : Event} (h : s.MemOk) (g : EnvStep s e t) : t.MemOk := by
  cases g with
  | hostWrite k a w v _ _ ha => exact memOk_write h ha v _ rfl rfl
  | _ => exact memOk_same h rfl rfl

/-- Settles O12: only a store that passed its checks changes a byte. -/
theorem stepKeepsTheMemory : Obligations.StepKeepsTheMemory := fun _ _ h hst =>
  step_keeps (P := State.MemOk) (fun _ _ h => ⟨h.wf, h.populated⟩)
    (fun s _ k _ h _ _ hx => memOk_shape (s := s.actAs k) ⟨h.wf, h.populated⟩ (exec_shape hx))
    (fun _ _ _ h _ hx => memOk_env h hx) h hst

/-! ### Core registers -/

/-- Bits 31:1 of the mask are zero and a reservation names a granule (10_state R28, R31). -/
def CoreOk (c : CoreState) : Prop :=
  c.imask = c.imask &&& 1#32 ∧ ∀ g, c.resv = some g → granule g = g

theorem coresOk_iff {s : State} : s.CoresOk ↔ AllCores CoreOk s :=
  ⟨fun h c hc => ⟨h.imask c hc, h.resv c hc⟩, fun h => ⟨fun c hc => (h c hc).1, fun c hc => (h c hc).2⟩⟩

theorem coreOk_prop : CoreProp CoreOk where
  upd _ _ h := h
  none _ h := ⟨h.1, fun _ hg => by cases hg⟩
  mask _ v h := ⟨by rw [BitVec.and_assoc, BitVec.and_self], h.2⟩
  some _ g h := ⟨h.1, fun _ hg => by cases hg; exact granule_granule g⟩

/-- Settles O13: a write of `IMASK` stores bit 0, and an `LL` reserves the granule of its address. -/
theorem stepKeepsTheCoreRegisters : Obligations.StepKeepsTheCoreRegisters := by
  intro s t h hst
  refine step_keeps (P := AllCores CoreOk) (fun _ _ h => h) (fun s i k t h _ _ hx => ?_)
    (fun s e t h _ hx => ?_) (coresOk_iff.mp h) hst |> coresOk_iff.mpr
  · exact all_shape coreOk_prop (s := s.actAs k) h (exec_shape hx)
  · exact all_env coreOk_prop h hx (fun _ _ _ _ hp => coreOk_prop.none _ hp)
      fun _ hp => coreOk_prop.none _ hp

/-! ### Fault registers -/

/-- `FSR` is 0 or the code of a fault, and not 0 exactly in a FAULTED context (10_state R27). -/
def FaultOk (c : Context) : Prop :=
  (c.fsr = 0#32 ∨ c.fsr = 1#32 ∨ c.fsr = 2#32) ∧ (c.fsr ≠ 0#32 ↔ c.phase = .faulted)

/-- Taking a fault writes a code that is not 0 (60_exceptions R203). -/
theorem faultOk_raised (c : Context) (f : AccessFault) (a : Word) :
    FaultOk { c with fsr := f.code, far := a, phase := .faulted } := by
  cases f <;> simp [FaultOk, AccessFault.code]

/-- A context that faulted neither before nor after keeps its `FSR` legal with its value. -/
theorem faultOk_of_fsr {c d : Context} (h : FaultOk c) (hf : d.fsr = c.fsr) (hc : c.phase ≠ .faulted)
    (hd : d.phase ≠ .faulted) : FaultOk d := by
  unfold FaultOk
  rw [hf]
  exact ⟨h.1, h.2.trans ⟨fun e => absurd e hc, fun e => absurd e hd⟩⟩

theorem faultOk_free (n : Nat) : FaultOk (Context.free n) := by simp [FaultOk, Context.free]

/-- What a micro-step leaves in its context. -/
theorem faultOk_exec {i : Instr} {s t : State} (hx : exec i s = .next t) (h : FaultOk s.me) :
    FaultOk t.me := by
  obtain ⟨l, hp, _⟩ := exec_next hx
  have busy : s.me.phase ≠ .faulted := by simp [hp]
  rcases shape_me (exec_live hx) (exec_shape hx) with g | ⟨f, a, e⟩
  · exact faultOk_of_fsr h g.fsr busy (tame_fault g busy)
  · rw [e]; exact faultOk_raised _ f a

/-- Settles O14: a fault code is written exactly where a context becomes FAULTED. -/
theorem stepKeepsTheFaultRegisters : Obligations.StepKeepsTheFaultRegisters := by
  intro s t h hst
  refine step_keeps (P := fun s => ∀ j l, FaultOk (s.port j l)) (fun _ _ h => h)
    (fun s i k t h _ _ hx j l => ?micro) (fun s e t h _ hx j l => ?event) h hst
  case micro =>
    rcases exec_port hx j l with e | ⟨_, _, e⟩ <;> rw [e]
    · exact h j l
    · exact faultOk_exec hx (h _ _)
  case event =>
    rcases env_port hx j l with e | ⟨_, hi, f, hf, e⟩ | ⟨_, _, f, a, e⟩ | ⟨_, _, e⟩ <;> rw [e]
    · exact h j l
    · obtain ⟨hfsr, hnot⟩ := host_fsr hf (s.running j) hi
      exact faultOk_of_fsr (h j (s.depth j)) hfsr (by simp [← running_eq_port, hi]) hnot
    · exact faultOk_raised _ f a
    · exact faultOk_free _

end Sys2Proof.Machine
end

section
/-! SUPPORT. The proofs about `PHASE` (10_state R24, R25): every label of a command has a step, that step stays
inside the command, and so `PHASE` and `CMDR` stay consistent. -/

namespace Sys2Proof.Machine

/-! ### The position after an operation -/

/-- The executing context of `t` is idle, FAULTED or at one of the steps `L` of `op`. -/
def Lands (L : List Label) (op : Op) (t : State) : Prop :=
  t.me.phase = .idle ∨ t.me.phase = .faulted ∨ ∃ m ∈ L, t.me.phase = .at op m

/-- The command whose steps are `body` has a step at `l`, and that step lands. -/
def StepRuns (body : State → Label → Option State) (L : List Label) (op : Op) (s : State) (l : Label) :
    Prop :=
  s.me.phase = .at op l → ∃ t, body s l = some t ∧ Lands L op t

/-- A change of the executing context that keeps `PHASE`. -/
theorem updMe_phase (s : State) {f : Context → Context} (hf : ∀ c, (f c).phase = c.phase) :
    (s.updMe f).me.phase = s.me.phase := by
  rw [me_eq_port, me_eq_port, updMe_actor, updMe_depth, updMe_port]
  split
  · exact hf _
  · rfl

section phase
variable (s : State)
@[simp] theorem updTmp_phase (f : Temps → Temps) : (s.updTmp f).me.phase = s.me.phase :=
  updMe_phase s fun _ => rfl
@[simp] theorem latchOld_phase (v : Word) : (s.latchOld v).me.phase = s.me.phase := updTmp_phase s _
@[simp] theorem setR0_phase (v : Word) : (s.setR0 v).me.phase = s.me.phase := updMe_phase s fun _ => rfl
@[simp] theorem setSt_phase (c : Status) : (s.setSt c).me.phase = s.me.phase := updMe_phase s fun _ => rfl
@[simp] theorem acquire_phase : s.acquire.me.phase = s.me.phase := by simp [State.acquire]
end phase

section lands
variable {L : List Label} {op : Op} {l m : Label} {s : State} {a : Word} {w : Width} {v : Word}

theorem lands_goto (hm : m ∈ L) (h : s.me.phase = .at op l) : Lands L op (s.goto m) :=
  .inr (.inr ⟨m, hm, by simp [live_at h, h]⟩)

theorem lands_done (h : s.me.phase = .at op l) : Lands L op s.done := .inl (by simp [live_at h])

theorem lands_finish (c : Status) (h : s.me.phase = .at op l) : Lands L op (s.finish c) :=
  .inl (by simp [live_at h])

theorem lands_updMe_finish {f : Context → Context} (c : Status) (hf : ∀ c, (f c).phase = c.phase)
    (h : s.me.phase = .at op l) : Lands L op ((s.updMe f).finish c) :=
  lands_finish c ((updMe_phase s hf).trans h)

theorem lands_raise (f : AccessFault) (h : s.me.phase = .at op l) : Lands L op (s.raise f a) :=
  .inr (.inl (by simp [live_at h]))

theorem lands_load {k : Word → State → State} (h : s.me.phase = .at op l)
    (hk : ∀ v t, t.me.phase = .at op l → Lands L op (k v t)) : Lands L op (s.load a w k) := by
  rcases load_cases s a w k with ⟨f, _, e⟩ | ⟨_, e⟩ <;> rw [e]
  · exact lands_raise f h
  · exact hk _ _ h

theorem lands_store {k : State → State} (h : s.me.phase = .at op l)
    (hk : ∀ t, t.me.phase = .at op l → Lands L op (k t)) : Lands L op (s.store a w v k) := by
  rcases store_cases s a w v k with ⟨f, _, e⟩ | ⟨_, e⟩ <;> rw [e]
  · exact lands_raise f h
  · exact hk _ (by simpa using h)

theorem lands_ll {k : Word → State → State} (h : s.me.phase = .at op l)
    (hk : ∀ v t, t.me.phase = .at op l → Lands L op (k v t)) : Lands L op (s.ll a w k) :=
  lands_load h fun v t ht => hk v _ (by simpa using ht)

theorem lands_sc {k : Bool → State → State} (h : s.me.phase = .at op l)
    (hk : ∀ b t, t.me.phase = .at op l → Lands L op (k b t)) : Lands L op (s.sc a w v k) := by
  rcases sc_cases s a w v k with ⟨f, _, e⟩ | ⟨_, _, e⟩ | ⟨_, _, e⟩ <;> rw [e]
  · exact lands_raise f h
  · exact hk _ _ (by simpa using h)
  · exact hk _ _ (by simpa using h)

theorem lands_copyByte {src dst : Word} (hm : .s5 ∈ L) (h : s.me.phase = .at op l) :
    Lands L op (s.copyByte src dst) :=
  lands_load h fun _ _ ht => lands_store ht fun _ hu => lands_goto hm (by simpa using hu)

theorem lands_report {fin : State → State} (hf : ∀ t, t.me.phase = .at op l → Lands L op (fin t))
    (h : s.me.phase = .at op l) : Lands L op (s.report v fin) := hf _ (by simpa using h)

theorem lands_latch (f : Temps → Temps) (hm : m ∈ L) (h : s.me.phase = .at op l) :
    Lands L op ((s.updTmp f).goto m) := lands_goto hm (by simpa using h)

theorem lands_acquire (hm : m ∈ L) (h : s.me.phase = .at op l) : Lands L op (s.acquire.goto m) :=
  lands_goto hm (by simpa using h)

theorem lands_release (v : Word) (h : s.me.phase = .at op l) :
    Lands L op ((s.release v).finish .ok) := lands_finish _ (by simpa using h)

end lands

/-! ### The steps of each command -/

section runs
variable {L : List Label} {op : Op} {s : State} {l : Label}

theorem runs_rmw {w : Width} {f : Context → Word} {res : Context → Context}
    (hop : op.isRmw = true) (hres : ∀ c, (res c).phase = c.phase) (hl : l ∈ op.steps s.cfg.backend) :
    StepRuns (rmwSteps w f res) (op.steps s.cfg.backend) op s l := by
  intro hp
  have hfin (t : State) (ht : t.me.phase = .at op l) :
      Lands (op.steps s.cfg.backend) op ((t.updMe res).finish .ok) :=
    lands_finish _ (by rw [updMe_phase t hres, ht])
  cases hb : s.cfg.backend <;> simp only [Op.steps, hop, hb, if_true] at hl hfin ⊢ <;>
    simp only [List.mem_cons, List.not_mem_nil, or_false] at hl
  case llsc =>
    rcases hl with rfl | rfl <;> refine ⟨_, by simp only [rmwSteps, hb]; rfl, ?_⟩
    · exact lands_ll hp fun v t ht => lands_latch _ (by decide) ht
    · refine lands_sc hp fun b t ht => ?_
      cases b
      · exact lands_goto (by decide) ht
      · exact hfin t ht
  case irqmask =>
    rcases hl with rfl | rfl | rfl | rfl <;> refine ⟨_, by simp only [rmwSteps, hb]; rfl, ?_⟩
    · exact lands_acquire (by decide) hp
    · exact lands_load hp fun v t ht => lands_latch _ (by decide) ht
    · exact lands_store hp fun t ht => lands_goto (by decide) ht
    · exact hfin _ (by simpa using hp)

theorem runs_acas (hl : l ∈ Op.steps s.cfg.backend .acas) :
    StepRuns acasSteps (Op.steps s.cfg.backend .acas) .acas s l := by
  intro hp
  cases hb : s.cfg.backend <;> simp only [Op.steps, Op.isRmw, hb, if_true] at hl ⊢ <;>
    simp only [List.mem_cons, List.not_mem_nil, or_false] at hl
  case llsc =>
    rcases hl with rfl | rfl <;> refine ⟨_, by simp only [acasSteps, hb]; rfl, ?_⟩
    · exact lands_ll hp fun v t ht => lands_latch _ (by decide) ht
    · split
      · exact lands_updMe_finish _ (fun _ => rfl) (s := s.clrResv) (by simpa using hp)
      · refine lands_sc hp fun b t ht => ?_
        cases b
        · exact lands_goto (by decide) ht
        · exact lands_finish .ok (s := t.setR0 1#32) (by simpa using ht)
  case irqmask =>
    rcases hl with rfl | rfl | rfl | rfl <;> refine ⟨_, by simp only [acasSteps, hb]; rfl, ?_⟩
    · exact lands_acquire (by decide) hp
    · exact lands_load hp fun v t ht => lands_latch _ (by decide) ht
    · split
      · exact lands_store hp fun t ht => lands_latch _ (by decide) ht
      · refine lands_goto (by decide) (l := .s2) ((updMe_phase s fun _ => ?_).trans hp)
        rfl
    · exact lands_finish _ (by simpa using hp)

theorem runs_btst {w : Width} {b : BitVec 5} : StepRuns (bitTestSteps w b) [.s0] op s .s0 := by
  intro hp
  cases hb : s.cfg.backend <;> refine ⟨_, by simp only [bitTestSteps, hb]; rfl, ?_⟩
  · exact lands_ll hp fun v t ht =>
      lands_updMe_finish _ (fun _ => rfl) (by simpa using ht)
  · exact lands_load hp fun v t ht =>
      lands_updMe_finish _ (fun _ => rfl) (by simpa using ht)

theorem runs_rinit (hl : l ∈ [Label.s0, .s1, .s2, .s3, .s4, .s5]) :
    StepRuns rinitSteps [.s0, .s1, .s2, .s3, .s4, .s5] op s l := by
  intro hp
  simp only [List.mem_cons, List.not_mem_nil, or_false] at hl
  rcases hl with rfl | rfl | rfl | rfl | rfl | rfl <;> refine ⟨_, rfl, ?_⟩
  · split
    · exact lands_finish _ hp
    · split
      · exact lands_finish _ hp
      · exact lands_latch _ (by decide) hp
  · exact lands_store hp fun t ht => lands_goto (by decide) ht
  · exact lands_store hp fun t ht => lands_goto (by decide) ht
  · exact lands_store hp fun t ht => lands_goto (by decide) ht
  · exact lands_store hp fun t ht => lands_goto (by decide) ht
  · exact lands_store hp fun t ht => lands_finish _ ht

theorem runs_loadDesc {plan : Temps → Temps} (hL : [Label.s1, .s2, .s3, .s4, .s5] ⊆ L)
    (hl : l ∈ [Label.s0, .s1, .s2, .s3, .s4]) : StepRuns (loadDescSteps plan) L op s l := by
  intro hp
  simp only [List.mem_cons, List.not_mem_nil, or_false] at hl
  rcases hl with rfl | rfl | rfl | rfl | rfl <;>
    exact ⟨_, rfl, lands_load hp fun v t ht => lands_latch _ (hL (by decide)) ht⟩

section transfer
variable {fin : State → State}
  (hL : [Label.s0, .s1, .s2, .s3, .s4, .s5, .s6, .s7] ⊆ L)
  (hf : ∀ t, t.me.phase = .at op l → Lands L op (fin t))
  (hl : l ∈ [Label.s0, .s1, .s2, .s3, .s4, .s5, .s6, .s7])
include hL hf hl

theorem runs_produce : StepRuns (produceSteps fin) L op s l := by
  intro hp
  have hd (m : Label) (hm : m ∈ [Label.s1, .s2, .s3, .s4, .s5]) : m ∈ L := by
    refine hL ?_; revert m; decide
  simp only [List.mem_cons, List.not_mem_nil, or_false] at hl
  rcases hl with rfl | rfl | rfl | rfl | rfl | rfl | rfl | rfl
  iterate 5 exact runs_loadDesc (plan := fun t => t.planProduce s.me.a2) hd (by decide) hp
  · refine ⟨_, rfl, ?_⟩
    split
    · exact lands_copyByte (hL (by decide)) hp
    · exact lands_goto (hL (by decide)) hp
  · exact ⟨_, rfl, lands_goto (hL (by decide)) (s := s.barrier) hp⟩
  · exact ⟨_, rfl, lands_store hp fun t ht => lands_report hf ht⟩

theorem runs_consume : StepRuns (consumeSteps fin) L op s l := by
  intro hp
  have hd (m : Label) (hm : m ∈ [Label.s1, .s2, .s3, .s4, .s5]) : m ∈ L := by
    refine hL ?_; revert m; decide
  simp only [List.mem_cons, List.not_mem_nil, or_false] at hl
  rcases hl with rfl | rfl | rfl | rfl | rfl | rfl | rfl | rfl
  iterate 5 exact runs_loadDesc (plan := fun t => t.planConsume s.me.a2) hd (by decide) hp
  · refine ⟨_, rfl, ?_⟩
    split
    · exact lands_copyByte (hL (by decide)) hp
    · exact lands_goto (hL (by decide)) hp
  · exact ⟨_, rfl, lands_goto (hL (by decide)) (s := s.barrier) hp⟩
  · exact ⟨_, rfl, lands_store hp fun t ht => lands_report hf ht⟩

end transfer

theorem runs_peek (hl : l ∈ [Label.s0, .s1, .s2, .s3, .s4, .s5]) :
    StepRuns peekSteps [.s0, .s1, .s2, .s3, .s4, .s5] op s l := by
  intro hp
  simp only [List.mem_cons, List.not_mem_nil, or_false] at hl
  rcases hl with rfl | rfl | rfl | rfl | rfl | rfl
  iterate 5
    exact runs_loadDesc (plan := fun t => t.planConsume s.me.a2) (by decide) (by decide) hp
  refine ⟨_, rfl, ?_⟩
  split
  · exact lands_copyByte (by decide) hp
  · exact lands_report (fun t ht => lands_done ht) hp

theorem runs_linear {fin : State → State} (hL : [Label.s0, .s1, .s2] ⊆ L)
    (hf : ∀ t, t.me.phase = .at op l → Lands L op (fin t)) (hl : l ∈ [Label.s0, .s1, .s2]) :
    StepRuns (linearSteps fin) L op s l := by
  intro hp
  simp only [List.mem_cons, List.not_mem_nil, or_false] at hl
  rcases hl with rfl | rfl | rfl
  · exact ⟨_, rfl, lands_load hp fun v t ht => lands_latch _ (hL (by decide)) ht⟩
  · exact ⟨_, rfl, lands_load hp fun v t ht => lands_latch _ (hL (by decide)) ht⟩
  · exact ⟨_, rfl, lands_load hp fun v t ht =>
      hf _ ((updMe_phase (f := Context.linearExtent) _ fun _ => rfl).trans (by simpa using ht))⟩

theorem runs_skip (hl : l ∈ [Label.s0, .s1, .s2]) : StepRuns skipSteps [.s0, .s1, .s2] op s l := by
  intro hp
  simp only [List.mem_cons, List.not_mem_nil, or_false] at hl
  rcases hl with rfl | rfl | rfl
  · exact ⟨_, rfl, lands_load hp fun v t ht => lands_latch _ (by decide) ht⟩
  · exact ⟨_, rfl, lands_goto (by decide) (s := s.barrier) hp⟩
  · exact ⟨_, rfl, lands_store hp fun t ht => lands_finish _ ht⟩

/-- The labels of a locked command (42_ring_buffer R151). -/
def lockedLabels (M : List Label) : List Label := .l0 :: (M ++ [.lz])

/-- The locked wrapper: the inner command's steps, and the two of its own (42_ring_buffer R151). -/
theorem runs_locked {inner : (State → State) → State → Label → Option State} {M : List Label}
    (hL : L = lockedLabels M) (h0 : .s0 ∈ M) (hM : .l0 ∉ M ∧ .lz ∉ M)
    (hi : l ∈ M → StepRuns (inner fun t => t.goto .lz) L op s l) (hl : l ∈ L) :
    StepRuns (lockedSteps inner) L op s l := by
  intro hp
  subst hL
  simp only [lockedLabels, List.mem_cons, List.mem_append, List.not_mem_nil, or_false] at hl
  rcases hl with rfl | hl | rfl
  · exact ⟨_, rfl, lands_acquire (by simp [lockedLabels, h0]) hp⟩
  · obtain ⟨t, ht, hlands⟩ := hi hl hp
    refine ⟨t, ?_, hlands⟩
    cases l <;> first | exact ht | exact absurd hl hM.1 | exact absurd hl hM.2
  · exact ⟨_, rfl, lands_done (by simpa using hp)⟩

theorem runs_rprodl (hl : l ∈ lockedLabels [.s0, .s1, .s2, .s3, .s4, .s5, .s6, .s7]) :
    StepRuns (lockedSteps produceSteps) (lockedLabels [.s0, .s1, .s2, .s3, .s4, .s5, .s6, .s7]) op s l :=
  runs_locked rfl (by decide) (by decide)
    (runs_produce (by decide) fun _ ht => lands_goto (by decide) ht) hl

theorem runs_rconsl (hl : l ∈ lockedLabels [.s0, .s1, .s2, .s3, .s4, .s5, .s6, .s7]) :
    StepRuns (lockedSteps consumeSteps) (lockedLabels [.s0, .s1, .s2, .s3, .s4, .s5, .s6, .s7]) op s l :=
  runs_locked rfl (by decide) (by decide)
    (runs_consume (by decide) fun _ ht => lands_goto (by decide) ht) hl

theorem runs_rlinl (hl : l ∈ lockedLabels [.s0, .s1, .s2]) :
    StepRuns (lockedSteps linearSteps) (lockedLabels [.s0, .s1, .s2]) op s l :=
  runs_locked rfl (by decide) (by decide)
    (runs_linear (by decide) fun _ ht => lands_goto (by decide) ht) hl

theorem runs_nest {f : Word → Word} (hl : l ∈ [Label.s0, .s1, .s2, .s3]) :
    StepRuns (nestSteps f) [.s0, .s1, .s2, .s3] op s l := by
  intro hp
  simp only [List.mem_cons, List.not_mem_nil, or_false] at hl
  rcases hl with rfl | rfl | rfl | rfl <;> refine ⟨_, rfl, ?_⟩
  · exact lands_acquire (by decide) hp
  · exact lands_latch _ (by decide) hp
  · exact lands_goto (by decide) (s := { s with nest := f s.me.tmp.nest }) hp
  · exact lands_release _ hp

theorem runs_spinit (hl : l ∈ [Label.s0, .s1]) : StepRuns spinitSteps [.s0, .s1] op s l := by
  intro hp
  simp only [List.mem_cons, List.not_mem_nil, or_false] at hl
  rcases hl with rfl | rfl
  · exact ⟨_, rfl, lands_store hp fun t ht => lands_goto (by decide) ht⟩
  · exact ⟨_, rfl, lands_store hp fun t ht => lands_finish _ ht⟩

theorem runs_splock (hl : l ∈ [Label.s0, .s1, .s2, .s3, .s4]) :
    StepRuns splockSteps [.s0, .s1, .s2, .s3, .s4] op s l := by
  intro hp
  simp only [List.mem_cons, List.not_mem_nil, or_false] at hl
  rcases hl with rfl | rfl | rfl | rfl | rfl <;> refine ⟨_, rfl, ?_⟩
  · exact lands_acquire (by decide) hp
  · exact lands_ll hp fun v t ht => lands_latch _ (by decide) ht
  · split
    · exact lands_goto (by decide) (s := s.clrResv) (by simpa using hp)
    · exact lands_sc hp fun b t ht => by cases b <;> exact lands_goto (by decide) ht
  · exact lands_goto (by decide) (s := s.barrier) hp
  · exact lands_store hp fun t ht => lands_finish _ ht

theorem runs_sptry (hl : l ∈ [Label.s0, .s1, .s2, .s3, .s4, .s5]) :
    StepRuns sptrySteps [.s0, .s1, .s2, .s3, .s4, .s5] op s l := by
  intro hp
  simp only [List.mem_cons, List.not_mem_nil, or_false] at hl
  rcases hl with rfl | rfl | rfl | rfl | rfl | rfl <;> refine ⟨_, rfl, ?_⟩
  · exact lands_acquire (by decide) hp
  · exact lands_ll hp fun v t ht => lands_latch _ (by decide) ht
  · split
    · exact lands_goto (by decide) (s := s.clrResv) (by simpa using hp)
    · exact lands_sc hp fun b t ht => by cases b <;> exact lands_goto (by decide) ht
  · exact lands_goto (by decide) (s := s.barrier) hp
  · exact lands_store hp fun t ht => lands_finish _ (by simpa using ht)
  · exact lands_finish _ (by simpa using hp)

theorem runs_spunlock (hl : l ∈ [Label.s0, .s1, .s2, .s3]) :
    StepRuns spunlockSteps [.s0, .s1, .s2, .s3] op s l := by
  intro hp
  simp only [List.mem_cons, List.not_mem_nil, or_false] at hl
  rcases hl with rfl | rfl | rfl | rfl
  · exact ⟨_, rfl, lands_load hp fun v t ht => lands_latch _ (by decide) ht⟩
  · exact ⟨_, rfl, lands_goto (by decide) (s := s.barrier) hp⟩
  · exact ⟨_, rfl, lands_store hp fun t ht => lands_goto (by decide) ht⟩
  · exact ⟨_, rfl, lands_release _ hp⟩

end runs

/-- A command whose row is a Bit-Field row is that operation at that width, with its own immediate. -/
theorem eq_ofBit {i : Instr} {o : BitOp} {w : Width} (h : i.op = .bit o w) :
    i = Instr.ofBit o w i.bit := by
  cases i <;> cases h <;> rfl

/-- The retry-loop commands: `ACAS`, those of 40_atomic_core R102 to R111, and the mutating Bit-Field
commands (41_bitfield_ops R121). -/
theorem rmw_cases {i : Instr} (h : i.op.isRmw = true) :
    i = .acas ∨ (∃ r ∈ atomicRules, i = r.instr) ∨ ∃ o w b, o ≠ .test ∧ i = Instr.ofBit o w b := by
  cases hop : i.op with
  | bit o w =>
    refine .inr (.inr ⟨o, w, i.bit, ?_, eq_ofBit hop⟩)
    rintro rfl
    simp [hop, Op.isRmw] at h
  | acas => left; cases i <;> cases hop; rfl
  | _ =>
    right; left
    rw [hop] at h
    first | exact absurd h (by decide) | (cases i <;> cases hop; simp [atomicRules])

/-- Every retry-loop command but `ACAS` runs the shared steps, with results that keep `PHASE`. -/
theorem stepsOf_rmw_phase {i : Instr} (hi : i.op.isRmw = true) (hc : i ≠ .acas) :
    ∃ f res, stepsOf i = rmwSteps i.op.cellWidth f res ∧ ∀ c, (res c).phase = c.phase := by
  rcases rmw_cases hi with rfl | ⟨r, hr, rfl⟩ | ⟨o, w, b, ho, rfl⟩
  · exact absurd rfl hc
  · rw [stepsOf_rule hr, (rule_op hr).2]
    exact ⟨_, _, rfl, fun c => by split <;> rfl⟩
  · rw [stepsOf_ofBit ho, ofBit_op]
    exact ⟨_, _, rfl, fun c => by split <;> rfl⟩

/-- Every label of every command has a step, and that step stays inside the command (10_state R25 (b)). -/
theorem stepsOf_runs (i : Instr) {s : State} {l : Label} (hl : l ∈ i.op.steps s.cfg.backend) :
    StepRuns (stepsOf i) (i.op.steps s.cfg.backend) i.op s l := by
  by_cases hr : i.op.isRmw = true
  · by_cases hc : i = .acas
    · subst hc; exact runs_acas hl
    · obtain ⟨f, res, e, hres⟩ := stepsOf_rmw_phase hr hc
      rw [e]; exact runs_rmw hr hres hl
  · cases i
    case rinit => exact runs_rinit hl
    case rprod => exact runs_produce (List.Subset.refl _) (fun t ht => lands_done ht) hl
    case rcons => exact runs_consume (List.Subset.refl _) (fun t ht => lands_done ht) hl
    case rpeek => exact runs_peek hl
    case rlin => exact runs_linear (List.Subset.refl _) (fun t ht => lands_done ht) hl
    case rskip => exact runs_skip hl
    case rprodl => exact runs_rprodl hl
    case rconsl => exact runs_rconsl hl
    case rlinl => exact runs_rlinl hl
    case intenter => exact runs_nest (f := fun n => n + 1#32) hl
    case intleave => exact runs_nest (f := fun n => n - 1#32) hl
    case spinit => exact runs_spinit hl
    case splock => exact runs_splock hl
    case sptry => exact runs_sptry hl
    case spunlock => exact runs_spunlock hl
    case btstB | btstH | btstW => cases List.mem_singleton.mp hl; exact runs_btst
    case irqlock | csenter =>
      cases List.mem_singleton.mp hl
      exact fun hp => ⟨_, rfl, lands_finish _ (by simpa using hp)⟩
    case irqunlock | csexit =>
      cases List.mem_singleton.mp hl
      exact fun hp => ⟨_, rfl, lands_release _ hp⟩
    case inint =>
      cases List.mem_singleton.mp hl
      exact fun hp => ⟨_, rfl, lands_finish _ (by simpa using hp)⟩
    all_goals exact absurd rfl hr

/-- Settles O8: the step of each label, found family by family. -/
theorem everyStepOfEveryCommandRuns : Obligations.EveryStepOfEveryCommandRuns := by
  intro i s l hp hl
  obtain ⟨t, ht, hlands⟩ := stepsOf_runs i hl hp
  exact ⟨t, exec_at hp ht, hlands⟩

/-! ### `PHASE` and `CMDR` -/

/-- A command enters at one of its steps (30_encoding R93, 42_ring_buffer R151). -/
theorem Op.entry_mem_steps (b : AtomicBackend) (op : Op) : Op.entry op ∈ op.steps b := by
  cases op with
  | bit o w => cases o <;> cases w <;> cases b <;> decide
  | _ => cases b <;> decide

/-- A context in a command stands at a step of it, and `CMDR` holds a word of it (10_state R24, R25). -/
def PhaseOk (b : AtomicBackend) (c : Context) : Prop :=
  ∀ op lbl, c.phase = .at op lbl → lbl ∈ op.steps b ∧ ∃ i, decodeWord c.cmdr = .ok i ∧ i.op = op

theorem phaseOk_of_not_at {b : AtomicBackend} {c : Context} (h : c.phase = .idle ∨ c.phase = .faulted) :
    PhaseOk b c := fun op lbl e => by
  rw [e] at h
  rcases h with h | h <;> cases h

/-- What a micro-step leaves in its context. -/
theorem phaseOk_exec {i : Instr} {s t : State} (hx : exec i s = .next t)
    (h : PhaseOk s.cfg.backend s.me) : PhaseOk s.cfg.backend t.me := by
  obtain ⟨l, hp, hbody⟩ := exec_next hx
  obtain ⟨hl, hcmd⟩ := h _ _ hp
  obtain ⟨u, hu, hlands⟩ := stepsOf_runs i hl hp
  obtain rfl : u = t := Option.some.inj (hu.symm.trans hbody)
  rcases hlands with e | e | ⟨m, hm, e⟩
  · exact phaseOk_of_not_at (.inl e)
  · exact phaseOk_of_not_at (.inr e)
  · rcases shape_me (exec_live hx) (exec_shape hx) with g | ⟨f, a, e'⟩
    · rintro op lbl e'
      cases e.symm.trans e'
      exact ⟨hm, by rw [g.cmdr]; exact hcmd⟩
    · exact phaseOk_of_not_at (.inr (by rw [e']))

/-- An issue leaves a context at the first step of the command it latches (30_encoding R80, R93). -/
theorem phaseOk_host {e : Event} {k : Nat} {f : Context → Context} (hf : HostCtx e k f)
    (b : AtomicBackend) {c : Context} (hc : c.phase = .idle) : PhaseOk b (f c) := by
  cases hf with
  | issue k w =>
    cases hd : decodeWord w with
    | error e => exact phaseOk_of_not_at (.inl (by simp [Context.issue, hd, hc]))
    | ok i =>
      simp only [Context.issue, hd]
      rintro op lbl e
      cases e
      exact ⟨Op.entry_mem_steps b i.op, i, hd, rfl⟩
  | setArg k a v => exact phaseOk_of_not_at (.inl (by cases a <;> exact hc))
  | copyArg k a r => exact phaseOk_of_not_at (.inl (by cases a <;> exact hc))

/-- Settles O15: a micro-step stays inside its command and keeps `CMDR`; an issue enters a command with the
word it latches. -/
theorem stepKeepsThePhases : Obligations.StepKeepsThePhases := by
  intro s t h hst
  refine step_keeps (P := fun s => ∀ j l, PhaseOk s.cfg.backend (s.port j l)) (fun _ _ h => h)
    (fun s i k t h _ _ hx j l => ?micro) (fun s e t h _ hx j l => ?event) h hst
  case micro =>
    have hcfg : t.cfg = s.cfg := shape_cfg (s := s.actAs k) (exec_shape hx)
    rw [hcfg]
    rcases exec_port hx j l with e | ⟨_, _, e⟩ <;> rw [e]
    · exact h j l
    · exact phaseOk_exec (s := s.actAs k) hx (h _ _)
  case event =>
    rw [env_cfg hx]
    rcases env_port hx j l with e | ⟨_, hi, f, hf, e⟩ | ⟨_, _, f, a, e⟩ | ⟨_, _, e⟩ <;> rw [e]
    · exact h j l
    · exact phaseOk_host hf _ hi
    · exact phaseOk_of_not_at (.inr rfl)
    · exact phaseOk_of_not_at (.inl rfl)

end Sys2Proof.Machine
end

section
/-! SUPPORT. The proofs about reservations (20_memory R66, R70, 70 R256): what a micro-step leaves of the core's
reservation, and that the cell of a held one keeps its value; then what stays as it was in a FAULTED or
preempted context. -/

namespace Sys2Proof.Machine

/-! ### What a micro-step leaves of the reservation -/

/-- `t` stands at no step between an `LL` and its `SC`. -/
def Outside (b : AtomicBackend) (op : Op) (t : State) : Prop :=
  ∀ m, t.me.phase = .at op m → op.holds b m = false

/-- What step `l` of `op` leaves of the core's reservation: the context has faulted; or the step was an `LL`, and
stands before its `SC` with the value of the cell latched; or it stands outside an attempt, and a
reservation that is left was there before and belonged to no attempt. -/
inductive Attempt (op : Op) (l : Label) (s t : State) : Prop
  | faulted : t.me.phase = .faulted → Attempt op l s t
  | reserved (m : Label) : t.me.phase = .at op m → op.holds s.cfg.backend m = true →
      accessFault s.cfg s.me.a0 op.cellWidth = none → t.me.a0 = s.me.a0 → t.mem = s.mem →
      t.me.tmp.old = s.mem.read s.me.a0.toNat op.cellWidth → Attempt op l s t
  | clear : Outside s.cfg.backend op t →
      (t.resv s.actor ≠ none → op.holds s.cfg.backend l = false ∧ s.resv s.actor ≠ none) →
      Attempt op l s t

/-- Only the retry-loop commands under `LLSC` and the two spinlock acquires hold a reservation. -/
theorem holds_of_plain {b : AtomicBackend} {op : Op} (hr : op.isRmw = false)
    (hs : op ≠ .splock ∧ op ≠ .sptry) (m : Label) : op.holds b m = false := by
  simp [Op.holds, hr, hs.1, hs.2]

theorem holds_irqmask {op : Op} (hr : op.isRmw = true) (m : Label) :
    op.holds .irqmask m = false := by
  have hs : op ≠ .splock ∧ op ≠ .sptry := by constructor <;> rintro rfl <;> simp [Op.isRmw] at hr
  simp [Op.holds, hs.1, hs.2]

/-- A command enters outside an attempt (70 R256). -/
theorem holds_entry (b : AtomicBackend) (op : Op) : op.holds b (Op.entry op) = false := by
  cases op <;> simp [Op.holds, Op.entry]

theorem holds_llsc {op : Op} (hr : op.isRmw = true) : op.holds .llsc .s1 = true := by
  simp [Op.holds, hr]

section attempt
variable {op : Op} {l m : Label} {s u : State}

theorem outside_idle {b : AtomicBackend} {t : State} (h : t.me.phase = .idle) : Outside b op t :=
  fun m e => by rw [h] at e; cases e

theorem outside_at {b : AtomicBackend} {t : State} (h : t.me.phase = .at op m)
    (hm : op.holds b m = false) : Outside b op t :=
  fun n e => by rw [h] at e; cases e; exact hm

/-- The exclusive load that begins an attempt. -/
theorem attempt_ll (hp : s.me.phase = .at op l) (hm : op.holds s.cfg.backend m = true) :
    Attempt op l s (s.ll s.me.a0 op.cellWidth fun v t => (t.latchOld v).goto m) := by
  have hl := live_at hp
  cases ha : accessFault s.cfg s.me.a0 op.cellWidth with
  | some f => rw [ll_fault ha]; exact .faulted (by simp [hl])
  | none => rw [ll_ok ha]; exact .reserved m (by simp [hl, hp]) hm ha (by simp [hl]) rfl (by simp [hl])

/-- The conditional store that ends one: whatever follows in the context, no reservation is left. -/
theorem attempt_sc {a v : Word} {w : Width} {k : Bool → State → State}
    (hp : s.me.phase = .at op l)
    (hk : ∀ b t, t.me.phase = .at op l →
      Outside s.cfg.backend op (k b t) ∧ (k b t).resv s.actor = t.resv s.actor) :
    Attempt op l s (s.sc a w v k) := by
  have hl := live_at hp
  rcases sc_cases s a w v k with ⟨f, _, e⟩ | ⟨_, hr, e⟩ | ⟨_, _, e⟩ <;> rw [e]
  · exact .faulted (by simp [hl])
  · obtain ⟨ho, hres⟩ := hk true ((s.writeMem a w v).record (.write a w v)) (by simpa using hp)
    exact .clear ho (by rw [hres]; simp [hr])
  · obtain ⟨ho, hres⟩ := hk false s.clrResv (by simpa using hp)
    exact .clear ho (by rw [hres]; simp)

/-- A step that takes no reservation, of a command that stands outside an attempt before and after. -/
theorem attempt_plain {t : State} (hm : ∀ m, op.holds s.cfg.backend m = false)
    (h : s.resv s.actor = none → t.resv s.actor = none) : Attempt op l s t :=
  .clear (fun m _ => hm m) fun hne => ⟨hm l, fun hs => hne (h hs)⟩

theorem attempt_rmw {f : Context → Word} {res : Context → Context} {t : State} (hr : op.isRmw = true)
    (hp : s.me.phase = .at op l) (h : rmwSteps op.cellWidth f res s l = some t) : Attempt op l s t := by
  have hl := live_at hp
  have mask : s.cfg.backend = .irqmask → ∀ m, op.holds s.cfg.backend m = false :=
    fun hb m => by rw [hb]; exact holds_irqmask hr m
  unfold rmwSteps at h
  split at h <;> cases h
  case h_1 hb => exact attempt_ll hp (by rw [hb]; exact holds_llsc hr)
  case h_2 hb =>
    refine attempt_sc hp fun b t ht => ?_
    have hlt := live_at ht
    cases b
    · exact ⟨outside_at (m := .s0) (by simp [hlt, ht]) (by simp [Op.holds]), by simp⟩
    · exact ⟨outside_idle (by simp [hlt]), by simp⟩
  case h_3 hb => exact attempt_plain (mask hb) (by simp [State.acquire])
  case h_4 hb =>
    refine attempt_plain (mask hb) fun hn => ?_
    rcases load_cases s s.me.a0 op.cellWidth (fun v t => (t.latchOld v).goto .s2) with
      ⟨f, _, e⟩ | ⟨_, e⟩ <;> rw [e] <;> simp [hn]
  case h_5 hb =>
    refine attempt_plain (mask hb) fun hn => ?_
    rcases store_cases s s.me.a0 op.cellWidth (f s.me) (fun t => t.goto .s3) with
      ⟨f, _, e⟩ | ⟨_, e⟩ <;> rw [e] <;> simp [hn]
  case h_6 hb => exact attempt_plain (mask hb) (by simp)

theorem attempt_acas {t : State} (hp : s.me.phase = .at .acas l) (h : acasSteps s l = some t) :
    Attempt .acas l s t := by
  have hl := live_at hp
  have mask : s.cfg.backend = .irqmask → ∀ m, Op.acas.holds s.cfg.backend m = false :=
    fun hb m => by rw [hb]; exact holds_irqmask rfl m
  unfold acasSteps at h
  split at h <;> cases h
  case h_1 hb => exact attempt_ll (op := .acas) hp (by rw [hb]; rfl)
  case h_2 hb =>
    split
    · exact .clear (outside_idle (by simp [hl])) (by simp)
    · refine attempt_sc hp fun b t ht => ?_
      have hlt := live_at ht
      cases b
      · exact ⟨outside_at (m := .s0) (by simp [hlt, ht]) (by simp [Op.holds]), by simp⟩
      · exact ⟨outside_idle (by simp [hlt]), by simp⟩
  case h_3 hb => exact attempt_plain (mask hb) (by simp [State.acquire])
  case h_4 hb =>
    refine attempt_plain (mask hb) fun hn => ?_
    rcases load_cases s s.me.a0 .word (fun v t => (t.latchOld v).goto .s2) with
      ⟨f, _, e⟩ | ⟨_, e⟩ <;> rw [e] <;> simp [hn]
  case h_5 hb =>
    refine attempt_plain (mask hb) fun hn => ?_
    split
    · rcases store_cases s s.me.a0 .word s.me.a2
        (fun t => (t.updTmp (fun u => { u with n := 1#32 })).goto .s3) with
        ⟨f, _, e⟩ | ⟨_, e⟩ <;> rw [e] <;> simp [hn]
    · simpa using hn
  case h_6 hb => exact attempt_plain (mask hb) (by simp)

/-- The steps of `SPLOCK` and `SPTRY` at `S1` and `S2`, which differ in where a failed attempt goes. -/
theorem attempt_lock {back : Label} (hs : op = .splock ∨ op = .sptry)
    (hp : s.me.phase = .at op .s2) (hback : back ≠ .s2) :
    Attempt op .s2 s (if s.me.tmp.old ≠ 0#32 then s.clrResv.goto back
      else s.sc s.me.a0 .word 1#32 fun ok t => if ok then t.goto .s3 else t.goto back) := by
  have hl := live_at hp
  have out {m : Label} (hm : m ≠ .s2) : op.holds s.cfg.backend m = false := by
    rcases hs with rfl | rfl <;> simp [Op.holds, Op.isRmw, hm]
  split
  · exact .clear (outside_at (m := back) (by simp [hl, hp]) (out hback)) (by simp)
  · refine attempt_sc hp fun b t ht => ?_
    have hlt := live_at ht
    cases b
    · exact ⟨outside_at (m := back) (by simp [hlt, ht]) (out hback), by simp⟩
    · exact ⟨outside_at (m := .s3) (by simp [hlt, ht]) (out (by decide)), by simp⟩

/-- A step of `SPLOCK` or `SPTRY` outside an attempt that does not load exclusively. -/
theorem attempt_outside {t : State} (hs : op = .splock ∨ op = .sptry) (hl : l ≠ .s2)
    (ht : t.me.phase = .faulted ∨ t.me.phase = .idle ∨ ∃ m ≠ .s2, t.me.phase = .at op m)
    (h : s.resv s.actor = none → t.resv s.actor = none) : Attempt op l s t := by
  have out {m : Label} (hm : m ≠ .s2) : op.holds s.cfg.backend m = false := by
    rcases hs with rfl | rfl <;> simp [Op.holds, Op.isRmw, hm]
  have left (ho : Outside s.cfg.backend op t) : Attempt op l s t :=
    .clear ho fun hne => ⟨out hl, fun hn => hne (h hn)⟩
  rcases ht with ht | ht | ⟨m, hm, ht⟩
  · exact .faulted ht
  · exact left (outside_idle ht)
  · exact left (outside_at ht (out hm))

/-- The last store of `SPLOCK` and `SPTRY`, whatever follows in the context before `done`. -/
theorem attempt_lockStore {a v : Word} {k : State → State} (hs : op = .splock ∨ op = .sptry)
    (hp : s.me.phase = .at op .s4)
    (hk : ∀ t, t.live → (k t).me.phase = .idle ∧ ∀ j, (k t).resv j = t.resv j) :
    Attempt op .s4 s (s.store a .word v k) := by
  have hl := live_at hp
  rcases store_cases s a .word v k with ⟨f, _, e⟩ | ⟨_, e⟩ <;> rw [e]
  · exact .faulted (by simp [hl])
  · obtain ⟨hi, hr⟩ := hk ((s.writeMem a .word v).record (.write a .word v)) (by simpa using hl)
    exact attempt_outside hs (by decide) (.inr (.inl hi)) fun hn => by rw [hr]; simp [hn]

theorem attempt_splock {t : State} (hp : s.me.phase = .at .splock l) (h : splockSteps s l = some t) :
    Attempt .splock l s t := by
  have hl := live_at hp
  unfold splockSteps at h
  split at h <;> cases h
  · exact attempt_outside (.inl rfl) (by decide)
      (.inr (.inr ⟨.s1, by decide, by simp [hl, hp]⟩)) (by simp [State.acquire])
  · exact attempt_ll (op := .splock) hp (by simp [Op.holds])
  · exact attempt_lock (.inl rfl) hp (by decide)
  · exact attempt_outside (.inl rfl) (by decide)
      (.inr (.inr ⟨.s4, by decide, by simp [hl, hp]⟩)) (by simp)
  · exact attempt_lockStore (.inl rfl) hp fun t ht => ⟨by simp [ht], by simp⟩

theorem attempt_sptry {t : State} (hp : s.me.phase = .at .sptry l) (h : sptrySteps s l = some t) :
    Attempt .sptry l s t := by
  have hl := live_at hp
  unfold sptrySteps at h
  split at h <;> cases h
  · exact attempt_outside (.inr rfl) (by decide)
      (.inr (.inr ⟨.s1, by decide, by simp [hl, hp]⟩)) (by simp [State.acquire])
  · exact attempt_ll (op := .sptry) hp (by simp [Op.holds])
  · exact attempt_lock (.inr rfl) hp (by decide)
  · exact attempt_outside (.inr rfl) (by decide)
      (.inr (.inr ⟨.s4, by decide, by simp [hl, hp]⟩)) (by simp)
  · exact attempt_lockStore (.inr rfl) hp fun t ht => ⟨by simp [ht], by simp⟩
  · exact attempt_outside (.inr rfl) (by decide) (.inr (.inl (by simp [hl]))) (by simp)

end attempt

/-- What a micro-step of any command leaves of the reservation of its core. -/
theorem exec_attempt {i : Instr} {s t : State} {l : Label} (hx : exec i s = .next t)
    (hp : s.me.phase = .at i.op l) : Attempt i.op l s t := by
  obtain ⟨m, hm, h⟩ := exec_next hx
  obtain rfl : m = l := by cases hm.symm.trans hp; rfl
  cases hr : i.op.isRmw with
  | true =>
    by_cases hc : i = .acas
    · subst hc; exact attempt_acas hp h
    · obtain ⟨f, res, e⟩ := stepsOf_rmw hr hc
      exact attempt_rmw hr hp (e ▸ h)
  | false =>
    by_cases hs : i = .splock ∨ i = .sptry
    · rcases hs with rfl | rfl
      · exact attempt_splock hp h
      · exact attempt_sptry hp h
    · have hop : i.op ≠ .splock ∧ i.op ≠ .sptry := by
        constructor <;> intro e <;> cases i <;> cases e <;> simp at hs
      have g := exec_shape hx
      rw [hr, Bool.false_or, decide_eq_false hs] at g
      exact attempt_plain (holds_of_plain hr hop) (shape_resv_none g)

/-- Outside the acting core a micro-step keeps or clears a reservation and leaves the running context. -/
theorem exec_other {i : Instr} {s t : State} (hx : exec i s = .next t) {j : Nat} (hj : j ≠ s.actor) :
    (t.resv j = s.resv j ∨ t.resv j = none) ∧ t.running j = s.running j :=
  ⟨shape_resv_other (exec_shape hx) j hj, exec_running hx j hj⟩

/-! ### The idle invariant -/

/-- Running context `c` of a core with reservation `r` meets the idle invariant (70 R256). -/
def IdleOk (b : AtomicBackend) (r : Option Word) (c : Context) : Prop :=
  r ≠ none → c.phase = .faulted ∨ ∃ op l, c.phase = .at op l ∧ op.holds b l = true

theorem idleOk_none {b : AtomicBackend} {c : Context} : IdleOk b none c := fun h => absurd rfl h

/-- An idle running context has no reservation. -/
theorem resv_of_idle {b : AtomicBackend} {r : Option Word} {c : Context} (h : IdleOk b r c)
    (hc : c.phase = .idle) : r = none := by
  by_contra hr
  rcases h hr with e | ⟨_, _, e, _⟩ <;> rw [hc] at e <;> cases e

theorem idleOk_exec {i : Instr} {s t : State} (hx : exec i s = .next t)
    (h : IdleOk s.cfg.backend (s.resv s.actor) s.me) :
    IdleOk s.cfg.backend (t.resv s.actor) t.me := by
  obtain ⟨l, hp, _⟩ := exec_next hx
  intro hne
  rcases exec_attempt hx hp with hf | ⟨m, hm, hh, _⟩ | ⟨_, hleft⟩
  · exact .inl hf
  · exact .inr ⟨i.op, m, hm, hh⟩
  · obtain ⟨hfree, hs⟩ := hleft hne
    rcases h hs with e | ⟨op, n, e, hh⟩ <;> rw [hp] at e <;> cases e
    rw [hfree] at hh
    cases hh

/-- Settles O16: a reservation that a step leaves was taken by its `LL`; every event clears or keeps one. -/
theorem stepKeepsTheIdleInvariant : Obligations.StepKeepsTheIdleInvariant := by
  intro s t h hst
  refine step_keeps (P := fun s => ∀ j, IdleOk s.cfg.backend (s.resv j) (s.running j)) (fun _ _ h => h)
    (fun s i k t h _ _ hx j => ?micro) (fun s e t h _ hx j => ?event) h hst
  case micro =>
    have g := shape_same (exec_shape hx)
    rw [g.cfg]
    by_cases hj : j = k
    · subst hj
      have hme : t.running j = t.me := by rw [State.me, g.actor]; rfl
      rw [hme]
      exact idleOk_exec hx (h j)
    · obtain ⟨hr | hr, hc⟩ := exec_other hx hj <;> rw [hr]
      · rw [hc]; exact h j
      · exact idleOk_none
  case event =>
    rw [env_cfg hx]
    rcases env_resv hx j with ⟨hr, hd⟩ | hr <;> rw [hr]
    · rcases env_port hx j (t.depth j) with e | ⟨_, hi, _⟩ | ⟨_, hi, _⟩ | ⟨_, hdeep, _⟩
      · rw [running_eq_port, e, hd]; exact h j
      · rw [resv_of_idle (h j) hi]; exact idleOk_none
      · rw [resv_of_idle (h j) hi]; exact idleOk_none
      · omega
    · exact idleOk_none

/-! ### The promise of a reservation -/

/-- The `SC` of an attempt cannot fault (20_memory R70, 40_atomic_core R114). -/
def AccessOk (cfg : Config) (c : Context) : Prop :=
  ∀ op l, c.phase = .at op l → op.holds cfg.backend l = true → accessFault cfg c.a0 op.cellWidth = none

/-- While the reservation of an attempt holds, the cell holds what its `LL` returned (20_memory R70). -/
def ValueOk (cfg : Config) (m : Memory) (r : Option Word) (c : Context) : Prop :=
  ∀ op l, c.phase = .at op l → op.holds cfg.backend l = true → r = some (granule c.a0) →
    m.read c.a0.toNat op.cellWidth = c.tmp.old

theorem linked_iff {s : State} : s.ResvLinked ↔
    (∀ k l, AccessOk s.cfg (s.port k l)) ∧
      ∀ k, ValueOk s.cfg s.mem (s.resv k) (s.running k) :=
  ⟨fun h => ⟨h.access, h.value⟩, fun h => ⟨h.1, h.2⟩⟩

theorem accessOk_of_not_at {cfg : Config} {c : Context} (h : c.phase = .idle ∨ c.phase = .faulted) :
    AccessOk cfg c := fun op l e => by
  rw [e] at h
  rcases h with h | h <;> cases h

/-- What a micro-step leaves its own context at the `SC` of: the attempt its `LL` began. -/
theorem linked_exec {i : Instr} {s t : State} (hx : exec i s = .next t) :
    AccessOk s.cfg t.me ∧ ValueOk s.cfg t.mem (t.resv s.actor) t.me := by
  obtain ⟨l, hp, _⟩ := exec_next hx
  have key {op : Op} {n : Label} (e : t.me.phase = .at op n) (hh : op.holds s.cfg.backend n = true) :
      accessFault s.cfg t.me.a0 op.cellWidth = none ∧
        t.mem.read t.me.a0.toNat op.cellWidth = t.me.tmp.old := by
    obtain rfl := exec_phase_op hx _ _ e
    rcases exec_attempt hx hp with hf | ⟨m, _, _, ha, ha0, hmem, hold⟩ | ⟨ho, _⟩
    · rw [hf] at e; cases e
    · rw [ha0, hmem, hold]; exact ⟨ha, rfl⟩
    · rw [ho n e] at hh; cases hh
  exact ⟨fun op n e hh => (key e hh).1, fun op n e hh _ => (key e hh).2⟩

/-- An event on an idle context leaves it outside every attempt: a command enters at its first step. -/
theorem host_outside {e : Event} {k : Nat} {f : Context → Context} (hf : HostCtx e k f) {c : Context}
    (hc : c.phase = .idle) (b : AtomicBackend) {op : Op} {l : Label} (h : (f c).phase = .at op l) :
    op.holds b l = false := by
  cases hf with
  | issue k w =>
    simp only [Context.issue] at h
    split at h
    · cases h; exact holds_entry b _
    · rw [hc] at h; cases h
  | setArg k a v => cases a <;> simp [Context.setArg, hc] at h
  | copyArg k a r => cases a <;> simp [Context.setArg, hc] at h

/-- Settles O17: an `LL` latches the value of the cell it reserves, and every later store to the cell, by
whatever agent, breaks the reservation (20_memory R66). -/
theorem stepKeepsReservationsTruthful : Obligations.StepKeepsReservationsTruthful := by
  intro s t h hst
  refine step_keeps (P := fun s => (∀ j l, AccessOk s.cfg (s.port j l)) ∧
      ∀ j, ValueOk s.cfg s.mem (s.resv j) (s.running j)) (fun _ _ h => h)
    (fun s i k t h _ _ hx => ?micro) (fun s e t h _ hx => ?event) (linked_iff.mp h) hst |> linked_iff.mpr
  case micro =>
    obtain ⟨haccess, hvalue⟩ := h
    have g := shape_same (exec_shape hx)
    rw [g.cfg]
    obtain ⟨hown, hownValue⟩ := linked_exec hx
    refine ⟨fun j l => ?_, fun j => ?_⟩
    · rcases exec_port hx j l with e | ⟨_, _, e⟩ <;> rw [e]
      · exact haccess j l
      · exact hown
    · by_cases hj : j = k
      · subst hj
        have hme : t.running j = t.me := by rw [State.me, g.actor]; rfl
        rw [hme]
        exact hownValue
      · intro op l hp hh hr
        rw [(exec_other hx hj).2] at hp hr ⊢
        obtain ⟨hheld, hread⟩ := shape_link (exec_shape hx) _ _ (haccess j _ op l hp hh) j hr
        exact hread.trans (hvalue j op l hp hh (hheld hj))
  case event =>
    obtain ⟨haccess, hvalue⟩ := h
    rw [env_cfg hx]
    have cases_at {j n : Nat} {op : Op} {l : Label} (hp : (t.port j n).phase = .at op l)
        (hh : op.holds s.cfg.backend l = true) : t.port j n = s.port j n := by
      rcases env_port hx j n with e | ⟨_, hi, f, hf, e⟩ | ⟨_, _, f, a, e⟩ | ⟨_, _, e⟩
      · exact e
      · rw [e] at hp; rw [host_outside hf hi _ hp] at hh; cases hh
      · rw [e] at hp; cases hp
      · rw [e] at hp; cases hp
    refine ⟨fun j n op l hp hh => ?_, fun j op l hp hh hr => ?_⟩
    · have e := cases_at hp hh
      rw [e] at hp ⊢
      exact haccess j n op l hp hh
    · have hdepth : t.depth j = s.depth j := by
        rcases env_resv hx j with ⟨_, hd⟩ | hn
        · exact hd
        · rw [hn] at hr; cases hr
      have hrun : t.running j = s.running j := by
        have e : t.running j = s.port j (t.depth j) := cases_at hp hh
        rw [e, hdepth, running_eq_port]
      rw [hrun] at hp hr ⊢
      obtain ⟨hheld, hread⟩ := env_link hx _ _ (haccess j _ op l hp hh) j hr
      exact hread.trans (hvalue j op l hp hh hheld)

/-! ### What stays as it was -/

/-- Settles O18: a FAULTED context takes no micro-step and no host event, and neither an entry nor a return
is enabled on its core. -/
theorem faultedIsAbsorbing : Obligations.FaultedIsAbsorbing := by
  intro s t k hf hst
  obtain ⟨_, ⟨_, rfl⟩ | ⟨j, rest, i, _, _, _, ⟨l, hp⟩, hx⟩ | ⟨e, rest, _, _, hx⟩⟩ := step_next hst
  · exact ⟨rfl, rfl⟩
  · have hk : k ≠ j := by rintro rfl; rw [hf] at hp; cases hp
    exact ⟨exec_running hx k hk, (shape_same (exec_shape hx)).depth k⟩
  · have g := env_next hx
    have hdepth : t.depth k = s.depth k := by
      rcases env_depth g k with e | ⟨_, hd, _⟩ | ⟨_, hr, _⟩
      · exact e
      · exact absurd hf (mayDeliver_iff.mp hd).2.2
      · exact absurd (hf.symm.trans (mayReturn_iff.mp hr).2) (by simp)
    refine ⟨?_, hdepth⟩
    rw [running_eq_port, hdepth]
    rcases env_port g k (s.depth k) with e | ⟨_, hi, _⟩ | ⟨_, hi, _⟩ | ⟨_, hdeep, _⟩
    · exact e
    · exact absurd (hf.symm.trans hi) (by simp)
    · exact absurd (hf.symm.trans hi) (by simp)
    · exact absurd hdeep (Nat.ne_of_lt (Nat.lt_succ_self _))

/-- Settles O19: micro-steps and events touch running contexts only, but for the entry that creates one. -/
theorem onlyRunningContextsChange : Obligations.OnlyRunningContextsChange := by
  intro s t k l hst hl hnew
  obtain ⟨_, ⟨_, rfl⟩ | ⟨j, rest, i, _, _, _, _, hx⟩ | ⟨e, rest, hs, _, hx⟩⟩ := step_next hst
  · rfl
  · refine (shape_same (exec_shape hx)).ports k l ?_
    rintro ⟨rfl, hd⟩
    exact hl hd
  · rcases env_port (env_next hx) k l with e | ⟨hd, _⟩ | ⟨hd, _⟩ | ⟨rfl, hd, _⟩
    · exact e
    · exact absurd hd hl
    · exact absurd hd hl
    · exact absurd hs (hnew hd rest)

end Sys2Proof.Machine
end

section
/-! SUPPORT. The proofs about the decoder (30_encoding R81, R84, R87, R93): a word is its four fields, a command
is decoded from them, and a row of the opcode table fixes all of them but `BIT`. -/

namespace Sys2Proof

/-! ### A word and its fields -/

/-- A word is its four fields, `RSV BIT SZ OP` (30_encoding R81). -/
theorem word_eq_fields (w : Word) :
    fieldRsv w ++ (fieldBit w ++ (fieldSz w ++ fieldOp w)) = w := by
  have h1 : fieldSz w ++ fieldOp w = w.extractLsb' 0 10 :=
    BitVec.extractLsb'_append_extractLsb'_eq_extractLsb' (by decide)
  have h2 : fieldBit w ++ w.extractLsb' 0 10 = w.extractLsb' 0 15 :=
    BitVec.extractLsb'_append_extractLsb'_eq_extractLsb' (by decide)
  have h3 : fieldRsv w ++ w.extractLsb' 0 15 = w.extractLsb' 0 32 :=
    BitVec.extractLsb'_append_extractLsb'_eq_extractLsb' (by decide)
  rw [h1, h2, h3, BitVec.extractLsb'_eq_self]

section fields
variable (r : BitVec 17) (b : BitVec 5) (z : BitVec 2) (o : BitVec 8)

@[simp] theorem fieldRsv_append : fieldRsv (r ++ (b ++ (z ++ o))) = r :=
  BitVec.extractLsb'_append_eq_left (b := b ++ (z ++ o))

@[simp] theorem fieldOp_append : fieldOp (r ++ (b ++ (z ++ o))) = o := by
  refine BitVec.eq_of_getLsbD_eq fun j hj => ?_
  change (BitVec.extractLsb' 0 8 (r ++ (b ++ (z ++ o)) : BitVec (17 + (5 + (2 + 8))))).getLsbD j = _
  simp only [BitVec.getLsbD_extractLsb', BitVec.getLsbD_append]
  simp [hj, show j < 15 by omega, show j < 10 by omega]

@[simp] theorem fieldSz_append : fieldSz (r ++ (b ++ (z ++ o))) = z := by
  refine BitVec.eq_of_getLsbD_eq fun j hj => ?_
  change (BitVec.extractLsb' 8 2 (r ++ (b ++ (z ++ o)) : BitVec (17 + (5 + (2 + 8))))).getLsbD j = _
  simp only [BitVec.getLsbD_extractLsb', BitVec.getLsbD_append]
  simp [hj, show 8 + j < 15 by omega, show 8 + j < 10 by omega]

@[simp] theorem fieldBit_append : fieldBit (r ++ (b ++ (z ++ o))) = b := by
  refine BitVec.eq_of_getLsbD_eq fun j hj => ?_
  change (BitVec.extractLsb' 10 5 (r ++ (b ++ (z ++ o)) : BitVec (17 + (5 + (2 + 8))))).getLsbD j = _
  simp only [BitVec.getLsbD_extractLsb', BitVec.getLsbD_append]
  simp [hj, show 10 + j < 15 by omega]

end fields

section encode
variable (i : Instr)
@[simp] theorem fieldRsv_encode : fieldRsv (encode i) = 0#17 := fieldRsv_append ..
@[simp] theorem fieldOp_encode : fieldOp (encode i) = i.op.code := fieldOp_append ..
@[simp] theorem fieldSz_encode : fieldSz (encode i) = i.op.sz := fieldSz_append ..
@[simp] theorem fieldBit_encode : fieldBit (encode i) = i.bit := fieldBit_append ..
end encode

/-! ### The two ways a word decodes -/

/-- The word `w` is one of the Bit-Field command `i`. -/
def DecodesAsBit (w : Word) (i : Instr) : Prop :=
  ∃ o wd, bitOpOfCode (fieldOp w) = some o ∧ widthOfCode (fieldSz w) = some wd ∧
    (fieldBit w).toNat < wd.bits ∧ i = Instr.ofBit o wd (fieldBit w)

/-- The word `w` is the one of the command `i`, which has no operand. -/
def DecodesAsPlain (w : Word) (i : Instr) : Prop :=
  bitOpOfCode (fieldOp w) = none ∧ plainOfCode (fieldOp w) = some i ∧ fieldSz w = 0#2 ∧
    fieldBit w = 0#5

/-- Decoding, read off the fields (30_encoding R93). -/
theorem decodeWord_ok_iff {w : Word} {i : Instr} :
    decodeWord w = .ok i ↔ fieldRsv w = 0#17 ∧ (DecodesAsBit w i ∨ DecodesAsPlain w i) := by
  unfold decodeWord DecodesAsBit DecodesAsPlain
  by_cases hr : fieldRsv w = 0#17
  · rw [if_neg (not_not.mpr hr)]
    cases ho : bitOpOfCode (fieldOp w) with
    | some o =>
      cases hz : widthOfCode (fieldSz w) with
      | none => simp [hr]
      | some wd => by_cases hb : (fieldBit w).toNat < wd.bits <;> simp [hr, hb, eq_comm]
    | none =>
      cases hp : plainOfCode (fieldOp w) with
      | none => simp [hr]
      | some j => by_cases hz : fieldSz w = 0#2 ∧ fieldBit w = 0#5 <;> simp [hr, hz]
  · simp [hr]

@[simp] theorem bitOpOfCode_code (o : BitOp) : bitOpOfCode o.code = some o := by cases o <;> rfl

@[simp] theorem widthOfCode_code (w : Width) : widthOfCode w.code = some w := by cases w <;> rfl

/-- A command outside the Bit-Field family. -/
def Instr.Plain (i : Instr) : Prop := ∀ o w, i.op ≠ .bit o w

/-- A command is a Bit-Field command with its own immediate, or it is plain. -/
theorem Instr.ofBit_or_plain (i : Instr) : (∃ o w, i = Instr.ofBit o w i.bit) ∨ i.Plain := by
  cases h : i.op with
  | bit o w => exact .inl ⟨o, w, Machine.eq_ofBit h⟩
  | _ => exact .inr fun o w e => by rw [h] at e; cases e

/-- A plain command has an operation code of its own and no operand (30_encoding R81, R87). -/
theorem plain_fields {i : Instr} (h : i.Plain) :
    bitOpOfCode i.op.code = none ∧ plainOfCode i.op.code = some i ∧ i.op.sz = 0#2 ∧ i.bit = 0#5 := by
  cases i
  case bsetB | bsetH | bsetW | bclrB | bclrH | bclrW | bchgB | bchgH | bchgW | btstB | btstH | btstW |
    btasB | btasH | btasW | btacB | btacH | btacW | btchB | btchH | btchW => exact absurd rfl (h _ _)
  all_goals decide

/-- What the table of plain operation codes gives is a plain command. -/
theorem plain_of_code {c : BitVec 8} {i : Instr} (h : plainOfCode c = some i) : i.Plain := by
  unfold plainOfCode at h
  split at h <;> cases h <;> exact fun o w e => by cases e

/-! ### Decode and encode -/

theorem decode_encode_ofBit {o : BitOp} {w : Width} {b : BitVec 5} (hb : b.toNat < w.bits) :
    decodeWord (encode (Instr.ofBit o w b)) = .ok (Instr.ofBit o w b) := by
  refine decodeWord_ok_iff.mpr ⟨fieldRsv_encode _, .inl ⟨o, w, ?_⟩⟩
  simp [Op.code, Op.sz, hb]

theorem decode_encode_plain {i : Instr} (h : i.Plain) : decodeWord (encode i) = .ok i := by
  obtain ⟨hnone, hcode, hsz, hbit⟩ := plain_fields h
  exact decodeWord_ok_iff.mpr ⟨fieldRsv_encode _, .inr (by simp [DecodesAsPlain, *])⟩

/-- Settles O1: both ways go through the four fields. -/
theorem decodeInvertsEncode : Obligations.DecodeInvertsEncode := by
  refine ⟨fun i hwf => ?_, fun w i h => ?_⟩
  · rcases i.ofBit_or_plain with ⟨o, w, e⟩ | hp
    · rw [e] at hwf ⊢
      exact decode_encode_ofBit (by simpa [Instr.wf, Op.bitBound] using hwf)
    · exact decode_encode_plain hp
  · obtain ⟨hrsv, ⟨o, wd, ho, hz, hb, rfl⟩ | ⟨hnone, hcode, hz, hb⟩⟩ := decodeWord_ok_iff.mp h
    · refine ⟨by simpa [Instr.wf, Op.bitBound] using hb, ?_⟩
      have hw := word_eq_fields w
      rw [hrsv, code_of_bitOpOfCode ho, code_of_widthOfCode hz] at hw
      simpa [encode, Op.code, Op.sz] using hw
    · obtain ⟨_, _, hsz, hbit⟩ := plain_fields (plain_of_code hcode)
      have hbound : 0 < i.op.bitBound := by cases i.op <;> simp [Op.bitBound, Width.bits]; split <;> decide
      refine ⟨by simpa [Instr.wf, hbit] using hbound, ?_⟩
      have hw := word_eq_fields w
      rw [hrsv, hb, hz, code_of_plainOfCode hcode] at hw
      rw [encode, hsz, hbit, hw]

/-! ### The opcode table -/

/-- The word of every well-formed command matches a row with its mnemonic. -/
theorem encodesRow (i : Instr) : Laws.EncodesRow.Statement i := by
  cases i
  case aload => exact Laws.EncodesRow.aload
  case astore => exact Laws.EncodesRow.astore
  case aadd => exact Laws.EncodesRow.aadd
  case asub => exact Laws.EncodesRow.asub
  case aand => exact Laws.EncodesRow.aand
  case aor => exact Laws.EncodesRow.aor
  case axor => exact Laws.EncodesRow.axor
  case axchg => exact Laws.EncodesRow.axchg
  case afclr => exact Laws.EncodesRow.afclr
  case aftas => exact Laws.EncodesRow.aftas
  case acas => exact Laws.EncodesRow.acas
  case bsetB b => exact Laws.EncodesRow.bsetB b
  case bsetH b => exact Laws.EncodesRow.bsetH b
  case bsetW b => exact Laws.EncodesRow.bsetW b
  case bclrB b => exact Laws.EncodesRow.bclrB b
  case bclrH b => exact Laws.EncodesRow.bclrH b
  case bclrW b => exact Laws.EncodesRow.bclrW b
  case bchgB b => exact Laws.EncodesRow.bchgB b
  case bchgH b => exact Laws.EncodesRow.bchgH b
  case bchgW b => exact Laws.EncodesRow.bchgW b
  case btstB b => exact Laws.EncodesRow.btstB b
  case btstH b => exact Laws.EncodesRow.btstH b
  case btstW b => exact Laws.EncodesRow.btstW b
  case btasB b => exact Laws.EncodesRow.btasB b
  case btasH b => exact Laws.EncodesRow.btasH b
  case btasW b => exact Laws.EncodesRow.btasW b
  case btacB b => exact Laws.EncodesRow.btacB b
  case btacH b => exact Laws.EncodesRow.btacH b
  case btacW b => exact Laws.EncodesRow.btacW b
  case btchB b => exact Laws.EncodesRow.btchB b
  case btchH b => exact Laws.EncodesRow.btchH b
  case btchW b => exact Laws.EncodesRow.btchW b
  case rinit => exact Laws.EncodesRow.rinit
  case rprod => exact Laws.EncodesRow.rprod
  case rcons => exact Laws.EncodesRow.rcons
  case rpeek => exact Laws.EncodesRow.rpeek
  case rlin => exact Laws.EncodesRow.rlin
  case rskip => exact Laws.EncodesRow.rskip
  case rprodl => exact Laws.EncodesRow.rprodl
  case rconsl => exact Laws.EncodesRow.rconsl
  case rlinl => exact Laws.EncodesRow.rlinl
  case irqlock => exact Laws.EncodesRow.irqlock
  case irqunlock => exact Laws.EncodesRow.irqunlock
  case csenter => exact Laws.EncodesRow.csenter
  case csexit => exact Laws.EncodesRow.csexit
  case intenter => exact Laws.EncodesRow.intenter
  case intleave => exact Laws.EncodesRow.intleave
  case inint => exact Laws.EncodesRow.inint
  case spinit => exact Laws.EncodesRow.spinit
  case splock => exact Laws.EncodesRow.splock
  case sptry => exact Laws.EncodesRow.sptry
  case spunlock => exact Laws.EncodesRow.spunlock

/-- A word that decodes matches a row of the opcode table, the one with its command's mnemonic. -/
theorem row_of_decode {w : Word} {i : Instr} (h : decodeWord w = .ok i) :
    ∃ r ∈ opcodeTable, r.mnemonic = i.mnemonic ∧ r.accepts w = true := by
  obtain ⟨hwf, rfl⟩ := decodeInvertsEncode.2 w i h
  exact encodesRow i hwf

/-- A row without an operand: the whole word is fixed, and it is a word of the row's command. -/
def PlainRow (r : OpcodeRow) : Prop :=
  r.mask = 0xFFFFFFFF#32 ∧ (decodeWord r.pattern).toOption.map Instr.mnemonic = some r.mnemonic

/-- The row of a Bit-Field operation at a width: `RSV`, `SZ` and `OP` are fixed, and of `BIT` the bits are fixed,
as 0, that would reach the width. -/
def BitRowOf (r : OpcodeRow) (o : BitOp) (w : Width) : Prop :=
  fieldOp r.pattern = o.code ∧ fieldSz r.pattern = w.code ∧ fieldRsv r.pattern = 0#17 ∧
    fieldOp r.mask = .allOnes 8 ∧ fieldSz r.mask = .allOnes 2 ∧ fieldRsv r.mask = .allOnes 17 ∧
    (∀ b : BitVec 5, b &&& fieldBit r.mask = fieldBit r.pattern → b.toNat < w.bits) ∧
    (Instr.ofBit o w 0#5).mnemonic = r.mnemonic

theorem plainRow_of_mem : ∀ r ∈ atomicRows ++ ringRows ++ lockRows ++ spinRows, PlainRow r := by
  unfold PlainRow
  decide

theorem bitRow_of_mem : ∀ r ∈ bitRows,
    ∃ o ∈ [BitOp.set, .clear, .change, .test, .testSet, .testClear, .testChange],
      ∃ w ∈ [Width.byte, .half, .word], BitRowOf r o w := by
  unfold BitRowOf
  decide

/-- The mnemonic does not name the bit. -/
theorem ofBit_mnemonic (o : BitOp) (w : Width) (b : BitVec 5) :
    (Instr.ofBit o w b).mnemonic = (Instr.ofBit o w 0#5).mnemonic := by
  cases o <;> cases w <;> rfl

theorem decode_of_plainRow {r : OpcodeRow} {w : Word} (hr : PlainRow r) (h : r.accepts w = true) :
    ∃ i, decodeWord w = .ok i ∧ i.mnemonic = r.mnemonic := by
  obtain ⟨hmask, hname⟩ := hr
  have hw : w = r.pattern := by
    have : w &&& r.mask = r.pattern := by simpa [OpcodeRow.accepts] using h
    rw [← this, hmask]
    exact (BitVec.and_allOnes (x := w)).symm
  rw [hw]
  cases hd : decodeWord r.pattern with
  | error e => simp [hd, Except.toOption] at hname
  | ok i => exact ⟨i, rfl, by simpa [hd, Except.toOption] using hname⟩

theorem decode_of_bitRow {r : OpcodeRow} {w : Word} {o : BitOp} {wd : Width}
    (hr : BitRowOf r o wd) (h : r.accepts w = true) :
    ∃ i, decodeWord w = .ok i ∧ i.mnemonic = r.mnemonic := by
  obtain ⟨pop, psz, prsv, mop, msz, mrsv, hbits, hname⟩ := hr
  have hw : w &&& r.mask = r.pattern := by simpa [OpcodeRow.accepts] using h
  have field (start len : Nat) :
      w.extractLsb' start len &&& r.mask.extractLsb' start len = r.pattern.extractLsb' start len := by
    rw [← BitVec.extractLsb'_and, hw]
  have hrsv : fieldRsv w = 0#17 := by
    rw [← prsv, ← BitVec.and_allOnes (x := fieldRsv w), ← mrsv]; exact field 15 17
  have hsz : fieldSz w = wd.code := by
    rw [← psz, ← BitVec.and_allOnes (x := fieldSz w), ← msz]; exact field 8 2
  have hop : fieldOp w = o.code := by
    rw [← pop, ← BitVec.and_allOnes (x := fieldOp w), ← mop]; exact field 0 8
  refine ⟨Instr.ofBit o wd (fieldBit w), decodeWord_ok_iff.mpr ⟨hrsv, .inl ⟨o, wd, ?_⟩⟩,
    (ofBit_mnemonic o wd _).trans hname⟩
  exact ⟨by rw [hop, bitOpOfCode_code], by rw [hsz, widthOfCode_code], hbits _ (field 10 5), rfl⟩

/-- Two rows that differ in a bit both fix match no word together. -/
theorem rows_disjoint :
    opcodeTable.Pairwise fun r q => r.pattern &&& q.mask ≠ q.pattern &&& r.mask := by decide

/-- Settles O2: a row fixes the fields the decoder reads, and a word that decodes is a command's own word. -/
theorem decodeFollowsTheOpcodeTable : Obligations.DecodeFollowsTheOpcodeTable := by
  intro w
  refine ⟨fun r hr h => ?_, fun hnone => ?_, rows_disjoint.imp fun hne ⟨hr, hq⟩ => hne ?_⟩
  · have plain := plainRow_of_mem r
    simp only [opcodeTable, List.mem_append] at hr plain
    by_cases hb : r ∈ bitRows
    · obtain ⟨o, _, wd, _, hrow⟩ := bitRow_of_mem r hb
      exact decode_of_bitRow hrow h
    · exact decode_of_plainRow (plain (by tauto)) h
  · cases hd : decodeWord w with
    | error e => exact ⟨e, rfl⟩
    | ok i =>
      obtain ⟨r, hr, _, ha⟩ := row_of_decode hd
      rw [hnone r hr] at ha
      cases ha
  · simp only [OpcodeRow.accepts, beq_iff_eq] at hr hq
    rw [← hr, ← hq]
    ac_rfl

/-- Settles O3: each word is decoded by evaluation. -/
theorem sampleWordsDecode : Obligations.SampleWordsDecode := by
  unfold Obligations.SampleWordsDecode
  decide

end Sys2Proof
end

section
/-! SUPPORT. The proofs about a step as a whole: which event it takes, what the events of the host and of the
environment do (30_encoding R80, 10_state R21, 60_exceptions R207 to R210, R222), and reset. -/

namespace Sys2Proof.Machine

/-! ### The step that takes an event -/

section taken
variable {s : State} {k : Nat} {rest : List Event}

/-- In a legal configuration the next event happens and has left the schedule (60_exceptions R222). -/
theorem step_cons {e : Event} (hl : s.cfg.legal = true) (hs : s.schedule = e :: rest) :
    step s = ({ s with schedule := rest } : State).happen e := by
  rw [step, if_pos hl, hs]

theorem hostEvent_of_busy (hk : k < s.cfg.ncore) (hb : (s.running k).phase ≠ .idle)
    (f : State → State) : s.hostEvent k f = .refused .portNotIdle := by
  rw [State.hostEvent, if_pos hk, if_neg hb]

/-- An event of the host is a `hostEvent` on its core (60_exceptions R222 (b)). -/
theorem happen_host {e : Event} (h : e.hostCore = some k) (u : State) :
    ∃ f, u.happen e = u.hostEvent k f := by
  cases e <;> cases h <;> simp only [State.happen, State.environment] <;> exact ⟨_, rfl⟩

/-- Settles O6: every event of the host asks for an idle context. -/
theorem busyPortAcceptsNothing : Obligations.BusyPortAcceptsNothing := by
  intro s k e rest hl hs he hk hb
  obtain ⟨f, hf⟩ := happen_host he { s with schedule := rest }
  rw [step_cons hl hs, hf]
  exact hostEvent_of_busy (s := { s with schedule := rest }) hk hb f

/-- Settles O7: the event fetches the command that `CMDR` and `PHASE` agree on. -/
theorem stepRunsDecodedInstruction : Obligations.StepRunsDecodedInstruction := by
  intro s k rest op l i hl hs hk hp hd ho
  subst ho
  have hf : ({ s with schedule := rest } : State).fetch k = .ok i := fetch_of hk hp hd
  rw [step_cons hl hs]
  simp only [State.happen, State.microEvent, hf]
  rfl

/-- A legal word is latched and its command entered (30_encoding R80, R93). -/
theorem issue_of_ok {w : Word} {i : Instr} (h : decodeWord w = .ok i) (c : Context) :
    c.issue w = { c with cmdr := w, phase := .at i.op (Op.entry i.op) } := by
  simp [Context.issue, h]

/-- The locked ring commands enter at `L0`, every other command at `S0` (42_ring_buffer R151). -/
theorem entry_eq (i : Instr) :
    Op.entry i.op = if i = .rprodl ∨ i = .rconsl ∨ i = .rlinl then .l0 else .s0 := by
  cases i <;> simp [Instr.op, Op.entry]

/-- Settles O4: the issue of a legal word is its one change of the context. -/
theorem issueLatchesAndDecodes : Obligations.IssueLatchesAndDecodes := by
  intro s k w i rest hsh hs hk hi hd
  have hlive : (s.turnTo k rest).live = true := live_of_shaped (turnTo_shaped hsh k rest) hk
  refine ⟨_, step_issue hsh.legal hs hk hi, updMe_only _ _, ?_⟩
  rw [updMe_me _ _ hlive, turnTo_me, issue_of_ok hd, entry_eq]

end taken

/-! ### What the host does on an idle context -/

section host
variable {s : State} {k : Nat} {rest : List Event}

/-- The step that takes a host event to an idle running context does it with that core acting. -/
theorem step_host {e : Event} {f : State → State} (hsh : s.Shaped) (hs : s.schedule = e :: rest)
    (hk : k < s.cfg.ncore) (hi : (s.running k).phase = .idle)
    (hf : ∀ u : State, u.happen e = u.hostEvent k f) : step s = .next (f (s.turnTo k rest)) := by
  rw [step_cons hsh.legal hs, hf]
  exact hostEvent_of_idle (s := { s with schedule := rest }) hk hi f

/-- A register write of the host: the named argument register takes the value, nothing else changes
(10_state R21). -/
theorem setArg_effect {u : State} (hl : u.live) (a : ArgReg) (g : Context → Word) (v : Word)
    (hv : g u.me = v) :
    OnlyContext u (u.updMe fun c => c.setArg a (g c)) ∧
      (a = .a0 → (u.updMe fun c => c.setArg a (g c)).me = { u.me with a0 := v }) ∧
      (a = .a1 → (u.updMe fun c => c.setArg a (g c)).me = { u.me with a1 := v }) ∧
      (a = .a2 → (u.updMe fun c => c.setArg a (g c)).me = { u.me with a2 := v }) ∧
      (a = .a3 → (u.updMe fun c => c.setArg a (g c)).me = { u.me with a3 := v }) := by
  refine ⟨updMe_only _ _, ?_⟩
  rw [updMe_me _ _ hl, hv]
  cases a <;> simp [Context.setArg]

/-- Settles O57: each event is the operation it names, on the running context of its core. -/
theorem hostEventsActOnTheIdleContext : Obligations.HostEventsActOnTheIdleContext := by
  intro s k rest hsh hwf hk hi
  have hlive : (s.turnTo k rest).live = true := live_of_shaped (turnTo_shaped hsh k rest) hk
  refine ⟨fun a v hs => ?setArg, fun a r v hs h0 h1 hst => ?copyArg, fun r hs => ?readPort,
    fun a w hs ha => ?hostRead, fun a w v hs ha => ?hostWrite, fun a w ha hs => ?fault⟩
  case setArg =>
    exact ⟨_, step_host (f := fun t => t.updMe fun c => c.setArg a v) hsh hs hk hi fun _ => rfl,
      setArg_effect hlive a (fun _ => v) v rfl⟩
  case copyArg =>
    have hv : (s.running k).result r = v := by
      cases r
      · exact (h0 rfl).symm
      · exact (h1 rfl).symm
      · exact (hst rfl).symm
    exact ⟨_, step_host (f := fun t => t.updMe fun c => c.setArg a (c.result r)) hsh hs hk hi fun _ => rfl,
      setArg_effect hlive a (fun c => c.result r) v hv⟩
  case readPort => exact step_host (f := fun t => t) hsh hs hk hi fun _ => rfl
  case hostRead =>
    refine ⟨_, step_host (f := fun t => t.load a w fun _ u => u) hsh hs hk hi fun _ => rfl, ?_⟩
    rw [load_ok (s := s.turnTo k rest) (accessible_iff.mpr ha)]
    exact ⟨record_read_only _ a w, rfl⟩
  case hostWrite =>
    refine ⟨_, step_host (f := fun t => t.store a w v fun u => u) hsh hs hk hi fun _ => rfl, ?_⟩
    rw [store_ok (s := s.turnTo k rest) (accessible_iff.mpr ha)]
    exact ⟨writeMem_only (s.turnTo k rest) hwf a w v, by simp⟩
  case fault =>
    rcases hs with hs | ⟨v, hs⟩
    · exact ⟨_, step_host (f := fun t => t.load a w fun _ u => u) hsh hs hk hi fun _ => rfl,
        raised_of_not_accessible hlive ha fun _ hf => load_fault hf _⟩
    · exact ⟨_, step_host (f := fun t => t.store a w v fun u => u) hsh hs hk hi fun _ => rfl,
        raised_of_not_accessible hlive ha fun _ hf => store_fault hf v _⟩

end host

/-! ### Interrupt entry and return, monitor loss -/

section interrupts
variable {s : State} {k : Nat}

/-- A core of the machine is one of its list. -/
theorem mem_of_shaped (h : s.Shaped) (hk : k < s.cfg.ncore) :
    k < s.cores.length ∧ s.coreAt k ∈ s.cores := by
  have hlen : k < s.cores.length := h.cores ▸ hk
  refine ⟨hlen, ?_⟩
  rw [State.coreAt, List.getD_eq_getElem _ _ hlen]
  exact List.getElem_mem hlen

theorem coreAt_updCore_self {f : CoreState → CoreState} (hk : k < s.cores.length) :
    (s.updCore k f).coreAt k = f (s.coreAt k) := by
  rw [coreAt_updCore, if_pos ⟨rfl, hk⟩]

theorem coreAt_updCore_ne {f : CoreState → CoreState} {j : Nat} (hj : j ≠ k) :
    (s.updCore k f).coreAt j = s.coreAt j := by
  rw [coreAt_updCore, if_neg fun h => hj h.1]

/-- An entry goes one level deeper, drops the reservation and runs a fresh context (60_exceptions R208). -/
theorem enter_core (hsh : s.Shaped) (hk : k < s.cfg.ncore) :
    (s.enterHandler k).coreAt k =
      { s.coreAt k with
        depth := s.depth k + 1, resv := none,
        ports := (s.coreAt k).ports.set (s.depth k + 1) (Context.free s.fresh) } :=
  coreAt_updCore_self (s := s) (mem_of_shaped hsh hk).1

theorem enter_coreAt_ne {j : Nat} (hj : j ≠ k) : (s.enterHandler k).coreAt j = s.coreAt j := by
  rw [enter_coreAt, if_neg fun h => hj h.1]

theorem enter_running (hsh : s.Shaped) (hk : k < s.cfg.ncore) (hd : s.depth k < s.cfg.maxnest) :
    (s.enterHandler k).running k = Context.free s.fresh := by
  have hlen := hsh.ports _ (mem_of_shaped hsh hk).2
  rw [State.running, enter_core hsh hk]
  simp [CoreState.running, CoreState.port, List.getD_eq_getElem?_getD, hlen, hd]

/-- A return goes one level up and drops the reservation (60_exceptions R210). -/
theorem leave_core (hsh : s.Shaped) (hk : k < s.cfg.ncore) :
    (s.leaveHandler k).coreAt k = { s.coreAt k with depth := s.depth k - 1, resv := none } :=
  coreAt_updCore_self (mem_of_shaped hsh hk).1

theorem leave_coreAt_ne {j : Nat} (hj : j ≠ k) : (s.leaveHandler k).coreAt j = s.coreAt j :=
  coreAt_updCore_ne hj

theorem lose_coreAt_ne {j : Nat} (hj : j ≠ k) : (s.loseResv k).coreAt j = s.coreAt j :=
  coreAt_updCore_ne hj

theorem lose_core (hsh : s.Shaped) (hk : k < s.cfg.ncore) :
    (s.loseResv k).coreAt k = { s.coreAt k with resv := none } :=
  coreAt_updCore_self (mem_of_shaped hsh hk).1

theorem shaped_schedule (hsh : s.Shaped) (rest : List Event) :
    ({ s with schedule := rest } : State).Shaped :=
  ⟨hsh.legal, hsh.cores, hsh.ports, hsh.depth⟩

/-- What an entry leaves (60_exceptions R208). -/
theorem enter_effect (hsh : s.Shaped) (hk : k < s.cfg.ncore) (hd : s.depth k < s.cfg.maxnest) :
    (s.enterHandler k).depth k = s.depth k + 1 ∧ (s.enterHandler k).resv k = none ∧
      ((s.enterHandler k).running k).phase = .idle ∧ ((s.enterHandler k).running k).fsr = 0#32 ∧
      (s.enterHandler k).imask k = s.imask k ∧
      ∀ l, l ≠ s.depth k + 1 → (s.enterHandler k).port k l = s.port k l := by
  have hcore := enter_core hsh hk
  have hrun := enter_running hsh hk hd
  refine ⟨by rw [State.depth, hcore], by rw [State.resv, hcore], by rw [hrun]; rfl, by rw [hrun]; rfl,
    by rw [State.imask, hcore]; rfl, fun l hl => ?_⟩
  rcases enter_port (s := s) k k l with e | ⟨_, e, _⟩
  · exact e
  · exact absurd e hl

/-- Settles O55: the delivery changes its core as R208 says, and is refused where it is not enabled. -/
theorem interruptDelivery : Obligations.InterruptDelivery := by
  intro s k rest hsh hs hk
  have hstep : step s = if s.mayDeliver k = true
      then .next (({ s with schedule := rest } : State).enterHandler k)
      else .refused .deliveryNotEnabled := by
    rw [step_cons hsh.legal hs]
    simp only [State.happen, State.environment, if_pos hk]
    rfl
  refine ⟨fun h => ⟨_, hstep.trans (if_pos (mayDeliver_iff.mpr h)), ?_⟩,
    fun h => hstep.trans (if_neg (mt mayDeliver_iff.mp h))⟩
  obtain ⟨hdepth, hresv, hidle, hfsr, himask, hports⟩ :=
    enter_effect (shaped_schedule hsh rest) hk h.2.1
  exact ⟨hdepth, hresv, hidle, hfsr, himask, hports, fun j hj => enter_coreAt_ne hj, rfl, fun _ => rfl,
    rfl, rfl, rfl⟩

/-- Settles O56: a return and a loss drop the reservation; a return also goes one level up. -/
theorem interruptReturnAndMonitorLoss : Obligations.InterruptReturnAndMonitorLoss := by
  intro s k rest hsh hk
  refine ⟨fun hs => ?ret, fun hs => ?lose⟩
  case ret =>
    have hstep : step s = if s.mayReturn k = true
        then .next (({ s with schedule := rest } : State).leaveHandler k)
        else .refused .returnNotEnabled := by
      rw [step_cons hsh.legal hs]
      simp only [State.happen, State.environment, if_pos hk]
      rfl
    refine ⟨fun h => ⟨_, hstep.trans (if_pos (mayReturn_iff.mpr h)), ?_⟩,
      fun h => hstep.trans (if_neg (mt mayReturn_iff.mp h))⟩
    have hcore := leave_core (shaped_schedule hsh rest) hk
    exact ⟨by rw [State.depth, hcore]; rfl, by rw [State.resv, hcore], by rw [State.imask, hcore]; rfl,
      leave_port k k, fun j hj => leave_coreAt_ne hj, rfl, fun _ => rfl, rfl, rfl, rfl⟩
  case lose =>
    have hstep : step s = if s.cfg.monitorLoss = .allowed
        then .next (({ s with schedule := rest } : State).loseResv k)
        else .refused .lossNotAllowed := by
      rw [step_cons hsh.legal hs]
      simp only [State.happen, State.environment, if_pos hk]
    refine ⟨fun h => ⟨_, hstep.trans (if_pos h), ?_⟩, fun h => by rw [hstep, h, if_neg (by decide)]⟩
    have hcore := lose_core (shaped_schedule hsh rest) hk
    exact ⟨by rw [State.resv, hcore], by rw [State.depth, hcore]; rfl, by rw [State.imask, hcore]; rfl,
      lose_port k k, fun j hj => lose_coreAt_ne hj, rfl, fun _ => rfl, rfl, rfl, rfl⟩

end interrupts

/-! ### Whole-machine frames -/

/-- An event of the environment keeps every mask. -/
theorem env_imask {s t : State} {e : Event} (g : EnvStep s e t) (j : Nat) : t.imask j = s.imask j := by
  cases g with
  | ctx | readFault | writeFault | hostWrite => simp
  | readPort | hostRead => rfl
  | deliver k =>
    rw [State.imask, enter_coreAt]
    split <;> rfl
  | ret k =>
    rw [State.imask, leave_coreAt]
    split <;> rfl
  | lose k => exact imask_updCore s k (fun c => { c with resv := none }) (fun _ => rfl) j

theorem env_mem {s t : State} {e : Event} (g : EnvStep s e t)
    (h : ∀ k a w v, e ≠ .hostWrite k a w v) : t.mem = s.mem := by
  cases g with
  | hostWrite k a w v => exact absurd rfl (h k a w v)
  | _ => rfl

/-- What no event of the environment changes, and which event changes the memory or a depth. -/
theorem env_keeps {s t : State} {e : Event} (g : EnvStep s e t) :
    t.nest = s.nest ∧ SameMasks s t ∧ t.cfg = s.cfg ∧ t.schedule = s.schedule ∧
      ((∀ k a w v, e ≠ .hostWrite k a w v) → SameBytes s t) ∧
      ∀ k, e ≠ .deliver k → e ≠ .ret k → t.depth k = s.depth k := by
  refine ⟨by cases g <;> rfl, env_imask g, env_cfg g, by cases g <;> rfl, fun h x => by rw [env_mem g h],
    fun k hd hr => ?_⟩
  rcases env_depth g k with e | ⟨e, _⟩ | ⟨e, _⟩
  · exact e
  · exact absurd e hd
  · exact absurd e hr

/-- Settles O59: such an event is one of the environment. -/
theorem environmentKeepsMasksAndCounters : Obligations.EnvironmentKeepsMasksAndCounters := by
  intro s t e rest hs he hst
  obtain ⟨_, ⟨hnil, _⟩ | ⟨k, _, _, hm, _⟩ | ⟨e', rest', hs', _, hx⟩⟩ := step_next hst
  · rw [hs] at hnil; cases hnil
  · rw [hs] at hm; cases hm; exact absurd rfl (he k)
  · rw [hs] at hs'; cases hs'
    exact env_keeps (s := { s with schedule := rest }) (env_next hx)

/-- Settles O58: the frame of a micro-step, and what it does to its own context. -/
theorem commandsKeepWhatTheyDoNotName : Obligations.CommandsKeepWhatTheyDoNotName := by
  intro i s t hx
  have g := exec_shape hx
  rcases shape_me (exec_live hx) g with c | ⟨f, a, e⟩
  · exact ⟨shape_same g, c.a0, c.a2, c.a3, c.cmdr, fun h => c.a1 (decide_eq_false h),
      fun h1 h2 => c.r1 (decide_eq_false (not_or.mpr ⟨h1, h2⟩)),
      fun h1 h2 => shape_nestW g (decide_eq_false (not_or.mpr ⟨h1, h2⟩)), shape_imask g⟩
  · rw [e]
    exact ⟨shape_same g, rfl, rfl, rfl, rfl, fun _ => rfl, fun _ _ => rfl,
      fun h1 h2 => shape_nestW g (decide_eq_false (not_or.mpr ⟨h1, h2⟩)), shape_imask g⟩

/-! ### Reset -/

section reset
variable (cfg : Config) (k l : Nat)

/-- Every core at reset reads as one core at reset or as one that is not there (10_state R38). -/
theorem resetWith_coreAt : (State.resetWith cfg).coreAt k = CoreState.reset cfg ∨
    (State.resetWith cfg).coreAt k = CoreState.absent := by
  by_cases hk : k < cfg.ncore
  · left; simp [State.coreAt, State.resetWith, List.getD_eq_getElem?_getD, hk]
  · right; simp [State.coreAt, State.resetWith, List.getD_eq_getElem?_getD, hk]

@[simp] theorem resetWith_port : (State.resetWith cfg).port k l = Context.reset := by
  rw [State.port]
  rcases resetWith_coreAt cfg k with e | e <;> rw [e]
  · by_cases hl : l < cfg.maxnest + 1 <;>
      simp [CoreState.reset, CoreState.port, List.getD_eq_getElem?_getD, hl]
  · rfl

@[simp] theorem resetWith_imask : (State.resetWith cfg).imask k = 0#32 := by
  rw [State.imask]
  rcases resetWith_coreAt cfg k with e | e <;> rw [e] <;> exact BitVec.zero_and

@[simp] theorem resetWith_resv : (State.resetWith cfg).resv k = none := by
  rw [State.resv]
  rcases resetWith_coreAt cfg k with e | e <;> rw [e] <;> rfl

@[simp] theorem resetWith_depth : (State.resetWith cfg).depth k = 0 := by
  rw [State.depth]
  rcases resetWith_coreAt cfg k with e | e <;> rw [e] <;> rfl

end reset

/-- Settles O9: field by field. -/
theorem resetLeavesTheStatedValues : Obligations.ResetLeavesTheStatedValues :=
  ⟨fun cfg k l => ⟨by rw [resetWith_port]; rfl, by rw [resetWith_port]; rfl, resetWith_imask cfg k,
    resetWith_resv cfg k, resetWith_depth cfg k, rfl, rfl⟩, rfl⟩

/-- Every core at reset is one core at reset. -/
theorem mem_reset_cores {cfg : Config} {c : CoreState} (h : c ∈ (State.resetWith cfg).cores) :
    c = CoreState.reset cfg := List.eq_of_mem_replicate h

/-- Reset in a legal configuration meets every invariant: its contexts are idle and unfaulted, and nothing is
reserved or stored. -/
theorem inv_resetWith {cfg : Config} (hl : cfg.legal = true) : (State.resetWith cfg).Inv where
  shaped :=
    { legal := hl
      cores := List.length_replicate
      ports := fun c hc => by rw [mem_reset_cores hc]; exact List.length_replicate
      depth := fun c hc => by rw [mem_reset_cores hc]; exact Nat.zero_le _ }
  mem := ⟨rfl, fun c hc => by cases hc⟩
  cores :=
    { imask := fun c hc => by rw [mem_reset_cores hc]; exact BitVec.zero_and.symm
      resv := fun c hc g hg => by rw [mem_reset_cores hc] at hg; cases hg }
  faults k l := by simp [Context.reset]
  phases k l op lbl h := by rw [resetWith_port] at h; cases h
  idle k h := absurd (resetWith_resv cfg k) h
  linked :=
    { access := fun k l op lbl h => by rw [resetWith_port] at h; cases h
      value := fun k op lbl h => by rw [running_eq_port, resetWith_port] at h; cases h }

/-- Settles O10. -/
theorem resetMeetsTheInvariants : Obligations.ResetMeetsTheInvariants :=
  ⟨fun _ => inv_resetWith, inv_resetWith (by decide)⟩

end Sys2Proof.Machine
end

section
/-! SUPPORT. The proofs that a step whose access is not allowed takes the fault (60_exceptions R203, R204), and of
two small laws: mixed widths (20_memory R51) and nesting by snapshots (43_irq_lock R180). -/

namespace Sys2Proof.Machine

/-! ### Faults -/

section raises
variable {s : State} {l : Label} {a : Word} {w : Width} {f : AccessFault}

theorem raises_rmw {op : Op} {g : Context → Word} {res : Context → Context} (hr : op.isRmw = true)
    (h : stepAccess s.cfg.backend op l s.me = some (a, w)) (hf : accessFault s.cfg a w = some f) :
    rmwSteps op.cellWidth g res s l = some (s.raise f a) := by
  delta stepAccess at h
  rw [if_pos hr] at h
  cases hb : s.cfg.backend <;> rw [hb] at h <;> cases l <;>
    simp only [Option.ite_none_left_eq_some, Option.some.injEq, Prod.mk.injEq, reduceCtorEq] at h
  case llsc.s0 => obtain ⟨rfl, rfl⟩ := h; simp only [rmwSteps, hb, ll_fault hf]
  case llsc.s1 => obtain ⟨_, rfl, rfl⟩ := h; simp only [rmwSteps, hb, sc_fault hf]
  case irqmask.s1 => obtain ⟨rfl, rfl⟩ := h; simp only [rmwSteps, hb, load_fault hf]
  case irqmask.s2 => obtain ⟨_, rfl, rfl⟩ := h; simp only [rmwSteps, hb, store_fault hf]

theorem raises_acas (h : stepAccess s.cfg.backend .acas l s.me = some (a, w))
    (hf : accessFault s.cfg a w = some f) : acasSteps s l = some (s.raise f a) := by
  delta stepAccess at h
  rw [if_pos (show Op.acas.isRmw = true from rfl)] at h
  cases hb : s.cfg.backend <;> rw [hb] at h <;> cases l <;>
    simp only [if_true, Option.some.injEq, Prod.mk.injEq, reduceCtorEq] at h
  case llsc.s0 => obtain ⟨rfl, rfl⟩ := h; simp only [acasSteps, hb]; exact congrArg some (ll_fault hf _)
  case irqmask.s1 =>
    obtain ⟨rfl, rfl⟩ := h; simp only [acasSteps, hb]; exact congrArg some (load_fault hf _)

theorem raises_btst {b : BitVec 5} (hf : accessFault s.cfg s.me.a0 w = some f) :
    bitTestSteps w b s .s0 = some (s.raise f s.me.a0) := by
  cases hb : s.cfg.backend <;> simp only [bitTestSteps, hb]
  · rw [ll_fault hf]
  · rw [load_fault hf]

theorem raises_loadDesc {plan : Temps → Temps} (h : descriptorWord l s.me = some a)
    (hf : accessFault s.cfg a .word = some f) : loadDescSteps plan s l = some (s.raise f a) := by
  cases l <;> simp only [descriptorWord, Option.some.injEq, reduceCtorEq] at h <;> subst h <;>
    simp only [loadDescSteps, Context.descWord, BitVec.add_zero, load_fault hf]

/-- The `LOADDESC` steps of a producer, of a consumer and of a peek are the shared ones (42_ring_buffer R146 to
R148). -/
theorem produce_load {fin : State → State} (h : descriptorWord l s.me = some a) :
    produceSteps fin s l = loadDescSteps (fun t => t.planProduce s.me.a2) s l := by
  cases l <;> first | rfl | cases h

theorem consume_load {fin : State → State} (h : descriptorWord l s.me = some a) :
    consumeSteps fin s l = loadDescSteps (fun t => t.planConsume s.me.a2) s l := by
  cases l <;> first | rfl | cases h

theorem peek_load (h : descriptorWord l s.me = some a) :
    peekSteps s l = loadDescSteps (fun t => t.planConsume s.me.a2) s l := by
  cases l <;> first | rfl | cases h

/-- Between `L0` and `LZ` a locked command runs its inner command (42_ring_buffer R151). -/
theorem locked_inner (inner : (State → State) → State → Label → Option State) (hl : l ≠ .l0 ∧ l ≠ .lz) :
    lockedSteps inner s l = inner (fun t => t.goto .lz) s l := by
  cases l <;> first | rfl | exact absurd rfl hl.1 | exact absurd rfl hl.2

theorem raises_produce {fin : State → State}
    (h : stepAccess s.cfg.backend .rprod l s.me = some (a, w)) (hf : accessFault s.cfg a w = some f) :
    produceSteps fin s l = some (s.raise f a) := by
  by_cases hl : l = .s7
  · subst hl
    cases h
    simp only [produceSteps, Context.descWord, BitVec.add_zero, store_fault hf]
  · have hmap : (descriptorWord l s.me).map (·, Width.word) = some (a, w) := by
      cases l <;> first | exact h | exact absurd rfl hl
    obtain ⟨d, hd, e⟩ := Option.map_eq_some_iff.mp hmap
    cases e
    rw [produce_load hd]
    exact raises_loadDesc hd hf

theorem raises_consume {fin : State → State}
    (h : stepAccess s.cfg.backend .rcons l s.me = some (a, w)) (hf : accessFault s.cfg a w = some f) :
    consumeSteps fin s l = some (s.raise f a) := by
  by_cases hl : l = .s7
  · subst hl
    cases h
    simp only [consumeSteps, Context.descWord, store_fault hf]
  · have hmap : (descriptorWord l s.me).map (·, Width.word) = some (a, w) := by
      cases l <;> first | exact h | exact absurd rfl hl
    obtain ⟨d, hd, e⟩ := Option.map_eq_some_iff.mp hmap
    cases e
    rw [consume_load hd]
    exact raises_loadDesc hd hf

theorem raises_peek (h : stepAccess s.cfg.backend .rpeek l s.me = some (a, w))
    (hf : accessFault s.cfg a w = some f) : peekSteps s l = some (s.raise f a) := by
  have hmap : (descriptorWord l s.me).map (·, Width.word) = some (a, w) := by cases l <;> exact h
  obtain ⟨d, hd, e⟩ := Option.map_eq_some_iff.mp hmap
  cases e
  rw [peek_load hd]
  exact raises_loadDesc hd hf

theorem raises_linear {fin : State → State}
    (h : stepAccess s.cfg.backend .rlin l s.me = some (a, w)) (hf : accessFault s.cfg a w = some f) :
    linearSteps fin s l = some (s.raise f a) := by
  cases l <;> cases h <;>
    simp only [linearSteps, Context.descWord, BitVec.add_zero, load_fault hf]

/-- A locked command makes the accesses of its inner command, and none at `L0` and `LZ`. -/
theorem raises_locked {inner : (State → State) → State → Label → Option State} {op op' : Op}
    (hop : (op = .rprodl ∧ op' = .rprod) ∨ (op = .rconsl ∧ op' = .rcons) ∨ (op = .rlinl ∧ op' = .rlin))
    (h : stepAccess s.cfg.backend op l s.me = some (a, w))
    (hi : stepAccess s.cfg.backend op' l s.me = some (a, w) →
      inner (fun t => t.goto .lz) s l = some (s.raise f a)) :
    lockedSteps inner s l = some (s.raise f a) := by
  have hl : l ≠ .l0 ∧ l ≠ .lz := by
    rcases hop with ⟨rfl, _⟩ | ⟨rfl, _⟩ | ⟨rfl, _⟩ <;> constructor <;> rintro rfl <;> cases h
  rw [locked_inner inner hl]
  refine hi ?_
  rcases hop with ⟨rfl, rfl⟩ | ⟨rfl, rfl⟩ | ⟨rfl, rfl⟩ <;> cases l <;> exact h

/-- The step of a command whose access is not allowed raises the fault on the address of the access. -/
theorem stepsOf_raises {i : Instr} (h : stepAccess s.cfg.backend i.op l s.me = some (a, w))
    (hf : accessFault s.cfg a w = some f) : stepsOf i s l = some (s.raise f a) := by
  cases hr : i.op.isRmw with
  | true =>
    by_cases hc : i = .acas
    · subst hc; exact raises_acas h hf
    · obtain ⟨g, res, e⟩ := stepsOf_rmw hr hc
      rw [e]; exact raises_rmw hr h hf
  | false =>
    cases i
    case rprod => exact raises_produce h hf
    case rcons => exact raises_consume h hf
    case rpeek => exact raises_peek h hf
    case rlin => exact raises_linear h hf
    case rprodl => exact raises_locked (.inl ⟨rfl, rfl⟩) h fun h => raises_produce h hf
    case rconsl => exact raises_locked (.inr (.inl ⟨rfl, rfl⟩)) h fun h => raises_consume h hf
    case rlinl => exact raises_locked (.inr (.inr ⟨rfl, rfl⟩)) h fun h => raises_linear h hf
    case btstB | btstH | btstW =>
      cases l <;> cases h
      exact raises_btst hf
    case rinit =>
      cases l <;> cases h <;>
        simp only [stepsOf, rinitSteps, Context.descWord, BitVec.add_zero, store_fault hf]
    case rskip =>
      cases l <;> cases h <;>
        simp only [stepsOf, skipSteps, Context.descWord, load_fault hf, store_fault hf]
    case spinit => cases l <;> cases h <;> simp only [stepsOf, spinitSteps, store_fault hf]
    case splock => cases l <;> cases h <;> simp only [stepsOf, splockSteps, ll_fault hf, store_fault hf]
    case sptry => cases l <;> cases h <;> simp only [stepsOf, sptrySteps, ll_fault hf, store_fault hf]
    case spunlock =>
      cases l <;> cases h <;> simp only [stepsOf, spunlockSteps, load_fault hf, store_fault hf]
    case irqlock | irqunlock | csenter | csexit | intenter | intleave | inint => cases l <;> cases h
    all_goals cases hr

end raises

/-- Settles O25: the step raises, and raising writes three fields of the context. -/
theorem faultsAreTaken : Obligations.FaultsAreTaken := by
  intro i s l a w hp hacc hn
  obtain ⟨f, hf, _⟩ := accessFault_of_not hn
  exact ⟨_, exec_at hp (stepsOf_raises hacc hf), raised_of_not_accessible (live_at hp) hn
    fun g hg => by cases hf.symm.trans hg; rfl⟩

/-! ### Mixed widths -/

/-- Bit `b` of a word is bit `b mod 8` of the byte at `a + b div 8` (20_memory R50, R51). -/
theorem Memory.word_bit (m : Memory) (a : Nat) {b : Nat} (hb : b < 32) :
    (m.read a .word).getLsbD b = (m.get (a + b / 8)).getLsbD (b % 8) := by
  have h := m.getLsbD_read a (w := .word) (i := b / 8) (j := b % 8) (by simp only [Width.bytes]; omega)
    (by omega)
  rwa [Nat.div_add_mod] at h

/-- A word with one more bit set is the byte that holds the bit with it set (20_memory R51). -/
theorem Memory.set_bit_of_word {m : Memory} (hm : m.wf = true) (a : Nat) {i j : Nat} (hi : i < 4)
    (hj : j < 8) (x : Nat) :
    (m.write a .word (m.read a .word ||| BitVec.twoPow 32 (8 * i + j))).get x =
      (m.write (a + i) .byte (m.read (a + i) .byte ||| BitVec.twoPow 32 j)).get x := by
  by_cases hx : a ≤ x ∧ x < a + 4
  · obtain ⟨n, hn, rfl⟩ : ∃ n < 4, x = a + n := ⟨x - a, by omega, by omega⟩
    refine BitVec.eq_of_getLsbD_eq fun p hp => ?_
    rw [Memory.getLsbD_get_write hm a _ hn hp, BitVec.getLsbD_or, m.getLsbD_read a hn hp,
      BitVec.getLsbD_twoPow]
    by_cases hni : n = i
    · subst hni
      have hone : (0 : Nat) < Width.byte.bytes := by decide
      have hw := Memory.getLsbD_get_write hm (a + n) (w := .byte)
        (m.read (a + n) .byte ||| BitVec.twoPow 32 j) hone hp
      have hr := m.getLsbD_read (a + n) (w := .byte) hone hp
      simp only [Nat.add_zero, Nat.mul_zero, Nat.zero_add] at hw hr
      rw [hw, BitVec.getLsbD_or, hr, BitVec.getLsbD_twoPow]
      congr 1
      have : (8 * n + j = 8 * n + p) ↔ (j = p) := by omega
      simp only [this, show 8 * n + j < 32 by omega, show j < 32 by omega]
    · rw [Memory.get_write_outside _ .byte _ (by simp only [Width.bytes]; omega),
        decide_eq_false (show ¬ 8 * i + j = 8 * n + p by omega), Bool.and_false, Bool.or_false]
  · rw [Memory.get_write_outside _ .word _ (by simp only [Width.bytes]; omega),
      Memory.get_write_outside _ .byte _ (by simp only [Width.bytes]; omega)]

/-- Settles O21: both views are the same bytes, and bit 13 of a word is bit 5 of its second byte. -/
theorem mixedWidthsShareBits : Obligations.MixedWidthsShareBits := by
  refine ⟨fun m a b _ hb => ?_, fun m a x hm => ?_⟩
  · rw [m.word_bit a hb]
    constructor
    · have h := m.getLsbD_read (a + b / 8) (w := .byte) (i := 0) (j := b % 8) (by decide) (by omega)
      simpa using h.symm
    · have h := m.getLsbD_read (a + 2 * (b / 16)) (w := .half) (i := b % 16 / 8) (j := b % 8)
        (by simp only [Width.bytes]; omega) (by omega)
      rw [show 8 * (b % 16 / 8) + b % 8 = b % 16 by omega,
        show a + 2 * (b / 16) + b % 16 / 8 = a + b / 8 by omega] at h
      exact h.symm
  · have h := Memory.set_bit_of_word hm a (i := 1) (j := 5) (by decide) (by decide) x
    rwa [show BitVec.twoPow 32 (8 * 1 + 5) = 0x2000#32 by decide,
      show BitVec.twoPow 32 5 = 0x20#32 by decide] at h

/-! ### Nesting by snapshots -/

theorem imask_and_one (s : State) (k : Nat) : s.imask k &&& 1#32 = s.imask k := by
  rw [State.imask, BitVec.and_assoc, BitVec.and_self]

/-- Settles O39: each acquire latches the mask as it was, and each release restores what was latched. -/
theorem snapshotsNest : Obligations.SnapshotsNest := by
  intro s hp
  have hl := live_of_busy hp
  have h1 : s.acquire.live = true := by simpa using hl
  have h2 : s.acquire.acquire.live = true := by simpa using hl
  have outer := acquire_only s hl
  have inner := acquire_only s.acquire h1
  have back : MaskIs s (s.acquire.acquire.release 1#32) 1#32 := fun k => by
    rw [release_imask_live _ _ h2, inner.masks, outer.masks]
    simp only [acquire_actor]
    split <;> rfl
  refine ⟨by simp [hl], ?_, back, fun k => ?_⟩
  · rw [acquire_me _ h1]
    exact (outer.masks _).trans (if_pos rfl)
  · rw [release_imask_live _ _ (by simpa using hl), back k, imask_and_one]
    simp only [release_actor, acquire_actor]
    split
    · next h => rw [h]
    · rfl

end Sys2Proof.Machine
end

section
/-! SUPPORT. The proofs of the Atomic Core and Bit-Field families (40_atomic_core R100 to R114, 41_bitfield_ops
R120 to R130): every command is the shared read-modify-write with a rule of its own, `ACAS` too where it stores. -/

namespace Sys2Proof.Machine

/-! ### `ACAS` as a read-modify-write -/

/-- What `ACAS` stores, and what it returns when it has stored (40_atomic_core R112). -/
def casValue (c : Context) : Word := c.a2
def casResult (c : Context) : Context := { c with r0 := 1#32 }

/-- `ACAS` masks and loads as every retry-loop command does. -/
theorem acas_first (s : State) : acasSteps s .s0 = rmwSteps .word casValue casResult s .s0 := by
  unfold acasSteps rmwSteps
  cases s.cfg.backend <;> rfl

theorem acas_masked_read {s : State} (hb : s.cfg.backend = .irqmask) :
    acasSteps s .s1 = rmwSteps .word casValue casResult s .s1 := by
  simp only [acasSteps, rmwSteps, hb]

/-- Where the comparison holds `ACAS` goes on as a read-modify-write that stores `A2`. -/
theorem acas_match {s : State} (hb : s.cfg.backend = .llsc) (h : s.me.tmp.old = s.me.a1) :
    acasSteps s .s1 = rmwSteps .word casValue casResult s .s1 := by
  simp only [acasSteps, rmwSteps, hb, h, ne_eq, not_true_eq_false, if_false]
  rfl

/-- Where it does not hold, nothing is stored and the command completes (40_atomic_core R112 (b)). -/
theorem acas_mismatch {s : State} (hb : s.cfg.backend = .llsc) (hp : s.me.phase = .at .acas .s1)
    (h : s.me.tmp.old ≠ s.me.a1) :
    ∃ t, acasSteps s .s1 = some t ∧ OnlyReleases s t ∧
      Completed t { s.me with a1 := s.me.tmp.old, r0 := 0#32, st := 0#32 } := by
  have hl := live_at hp
  refine ⟨_, by simp only [acasSteps, hb, h, ne_eq, not_false_eq_true, if_true]; rfl,
    ((clrResv_only s).andThen (updMe_only _ _)).andThen (finish_only _ _), ?_⟩
  simp [hl, Completed, Status.code]

/-- The steps every retry-loop command shares: all of them under `LLSC` but a mismatch of `ACAS`, and the first
two under `IRQMASK`. -/
theorem stepsOf_first {i : Instr} (hi : i.op.isRmw = true) {s : State} {l : Label}
    (h : l = .s0 ∨ l = .s1 ∧ (s.cfg.backend = .llsc → i = .acas → s.me.tmp.old = s.me.a1)) :
    ∃ f res, stepsOf i s l = rmwSteps i.op.cellWidth f res s l := by
  by_cases hc : i = .acas
  · subst hc
    rcases h with rfl | ⟨rfl, h⟩
    · exact ⟨_, _, acas_first s⟩
    · cases hb : s.cfg.backend with
      | llsc => exact ⟨_, _, acas_match hb (h hb rfl)⟩
      | irqmask => exact ⟨_, _, acas_masked_read hb⟩
  · obtain ⟨f, res, e⟩ := stepsOf_rmw hi hc
    exact ⟨f, res, by rw [e]⟩

/-- What a command's steps give at a step, read through an equation of that step. -/
theorem exec_of_step {i : Instr} {s : State} {l : Label} {o : Option State} {P : State → Prop}
    (hp : s.atStep i l) (hs : stepsOf i s l = o) (h : ∃ t, o = some t ∧ P t) :
    ∃ t, exec i s = .next t ∧ P t := by
  obtain ⟨t, ht, hP⟩ := h
  exact ⟨t, exec_at hp (hs.trans ht), hP⟩

/-! ### The first steps -/

/-- Settles O26: every retry-loop command loads, and retries, with the shared steps. -/
theorem retryLoopStartsAndRetries : Obligations.RetryLoopStartsAndRetries := by
  intro i s hi hb ha
  refine ⟨fun hp => ?_, fun hp hr hcas => ?_⟩
  · obtain ⟨f, res, e⟩ := stepsOf_first hi (s := s) (.inl rfl)
    exact exec_of_step hp e (rmw_load hb hp ha)
  · obtain ⟨f, res, e⟩ := stepsOf_first hi (s := s) (.inr ⟨rfl, fun _ => hcas⟩)
    exact exec_of_step hp e (rmw_lost hb hp ha hr)

/-- Settles O34: every retry-loop command masks, and reads, with the shared steps. -/
theorem maskedCommandsMaskAndRead : Obligations.MaskedCommandsMaskAndRead := by
  intro i s hi hb
  have hnot : s.cfg.backend = .llsc → i = .acas → s.me.tmp.old = s.me.a1 := by rw [hb]; intro h; cases h
  refine ⟨fun hp => ?_, fun hp ha => ?_⟩
  · obtain ⟨f, res, e⟩ := stepsOf_first hi (s := s) (.inl rfl)
    exact exec_of_step hp e (rmw_mask hb hp)
  · obtain ⟨f, res, e⟩ := stepsOf_first hi (s := s) (.inr ⟨rfl, hnot⟩)
    exact exec_of_step hp e (rmw_read hb hp ha)

/-! ### The results of a rule -/

/-- The results of a command of 40_atomic_core R102 to R111. -/
theorem rule_result (r : RmwRule) (c : Context) :
    { (if r.returnsOld = true then resultOld else resultNone) c with st := 0#32 } =
      { c with r0 := if r.returnsOld = true then c.tmp.old else c.r0, st := 0#32 } := by
  cases r.returnsOld <;> rfl

/-- The results of a Bit-Field command: the prior bit where the operation returns it (41_bitfield_ops R120). -/
theorem bit_result (o : BitOp) (b : BitVec 5) (c : Context) :
    { (if o.returnsBit = true then resultBit b else resultNone) c with st := 0#32 } =
      { c with
        r0 := if o.returnsBit = true then
            (if c.tmp.old.getLsbD b.toNat = true then 1#32 else 0#32) else c.r0,
        st := 0#32 } := by
  cases o.returnsBit
  · rfl
  · simp only [if_true, resultBit, bitValue_eq]

/-- The cell after a store of what a mutating Bit-Field operation makes of the latched value, bit by bit. -/
theorem bits_stored {o : BitOp} {w : Width} {b : BitVec 5} (ho : o ≠ .test) {s t : State} {a : Word}
    (h : OnlyWrites s t a w (bitFunction o b s.me)) {j : Nat} (hj : j < w.bits) :
    (t.mem.read a.toNat w).getLsbD j =
      if j = b.toNat then o.onBit (s.me.tmp.old.getLsbD j) else s.me.tmp.old.getLsbD j := by
  have hj32 : j < 32 := by cases w <;> simp only [Width.bits] at hj <;> omega
  rw [h.bytes.1, keepLow_getLsbD w _ hj, bitFunction_getLsbD ho b _ hj32]

/-! ### The committing step -/

/-- Settles O27: the commit of the shared steps, with the rule's value and results. -/
theorem atomicCommandsCommit : Obligations.AtomicCommandsCommit := by
  intro r hr s hb hw hp ha hres
  obtain ⟨t, ht, hwrites, hdone⟩ := rmw_commit (f := fun c => r.new c.tmp.old c.a1)
    (res := if r.returnsOld = true then resultOld else resultNone) hb hw hp ha hres
  rw [rule_result] at hdone
  exact exec_of_steps (stepsOf_rule hr) hp ⟨t, ht, hwrites, hdone⟩

/-- Settles O28: a mismatch, or the commit of the shared steps with `A2` and 1. -/
theorem compareExchangeDecides : Obligations.CompareExchangeDecides := by
  intro s hb hw hp
  refine ⟨fun hne => exec_of_step hp rfl (acas_mismatch hb hp hne), fun heq ha hr => ?_⟩
  exact exec_of_step hp (acas_match hb heq) (rmw_commit hb hw hp ha hr)

/-- Settles O29: the commit of the shared steps, read bit by bit. -/
theorem bitfieldCommandsCommit : Obligations.BitfieldCommandsCommit := by
  intro o w b s ho hbit hb hw hp ha hr
  obtain ⟨t, ht, hwrites, hdone⟩ := rmw_commit (f := bitFunction o b)
    (res := if o.returnsBit = true then resultBit b else resultNone) hb hw hp ha hr
  rw [bit_result] at hdone
  exact ⟨t, _, exec_at hp (by rw [stepsOf_ofBit ho]; exact ht), hwrites,
    fun j hj => bits_stored ho hwrites hj, hdone⟩

/-- Settles O35: the plain write and the release of the shared steps. -/
theorem maskedCommandsWriteAndRestore : Obligations.MaskedCommandsWriteAndRestore := by
  refine ⟨fun r hr s hb hw => ⟨fun hp ha => ?_, fun hp => ?_⟩,
    fun o w b s ho hbit hb hw => ⟨fun hp ha => ?_, fun hp => ?_⟩⟩
  · exact exec_of_steps (stepsOf_rule hr) hp (rmw_write hb hw hp ha)
  · obtain ⟨t, ht, hmasks, hdone⟩ := rmw_unmask (w := .word) (f := fun c => r.new c.tmp.old c.a1)
      (res := if r.returnsOld = true then resultOld else resultNone) hb hp
    rw [rule_result] at hdone
    exact exec_of_steps (stepsOf_rule hr) hp ⟨t, ht, hmasks, hdone⟩
  · rw [State.atStep, ofBit_op] at hp
    obtain ⟨t, ht, hwrites, hme⟩ := rmw_write (f := bitFunction o b)
      (res := if o.returnsBit = true then resultBit b else resultNone) hb hw hp ha
    exact ⟨t, _, exec_at (by rw [ofBit_op]; exact hp) (by rw [stepsOf_ofBit ho]; exact ht), hwrites,
      fun j hj => bits_stored ho hwrites hj, hme⟩
  · obtain ⟨t, ht, hmasks, hdone⟩ := rmw_unmask (w := w) (f := bitFunction o b)
      (res := if o.returnsBit = true then resultBit b else resultNone) hb hp
    rw [bit_result] at hdone
    exact exec_of_steps (stepsOf_ofBit ho w b) hp ⟨t, ht, hmasks, hdone⟩

/-! ### `BTST` -/

/-- Settles O30: one read, and under `LLSC` the reservation it takes is given up in the same step. -/
theorem bitTestReads : Obligations.BitTestReads := by
  intro w b s hbit hp ha
  have hl := live_at hp
  have hacc := accessible_iff.mpr ha
  refine exec_of_steps (stepsOf_btst w b) hp ?_
  cases hb : s.cfg.backend with
  | llsc =>
    refine ⟨_, by simp only [bitTestSteps, hb]; rfl, fun _ => ?_, (by intro h; cases h), ?_⟩
    · rw [ll_ok hacc, latchOld_eq, clrResv_updMe, clrResv_setResv]
      exact (((record_reserve_only s hl _ _ none).andThen (latchOld_only _ _)).andThen
        (updMe_only _ _)).andThen (finish_only _ _)
    · rw [ll_ok hacc]
      simp [hl, Completed, Status.code, resultBit, bitValue_eq]
  | irqmask =>
    refine ⟨_, by simp only [bitTestSteps, hb]; rfl, (by intro h; cases h), fun _ => ?_, ?_⟩
    · rw [load_ok hacc]
      exact (((record_read_only s _ _).andThen (latchOld_only _ _)).andThen
        (updMe_only _ _)).andThen (finish_only _ _)
    · rw [load_ok hacc]
      simp [hl, Completed, Status.code, resultBit, bitValue_eq]

end Sys2Proof.Machine
end

section
/-! SUPPORT. The proofs that a retry-loop command is indivisible (20_memory R60 (a), R70) and of commands run with no
other agent between their steps (40_atomic_core R101 to R113). -/

namespace Sys2Proof.Machine

/-! ### What the committing step finds -/

section held
variable {op : Op} {f : Context → Word} {res : Context → Context} {s t : State}

/-- At the `SC` of an attempt the cell is accessible, and while the reservation holds it holds the latched
value (20_memory R70). -/
theorem linked_at_sc {l : Label} (h : s.ResvLinked) (hp : s.me.phase = .at op l)
    (hh : op.holds s.cfg.backend l = true) :
    Accessible s.cfg s.me.a0 op.cellWidth ∧ (s.resv s.actor = some (granule s.me.a0) →
      s.mem.read s.me.a0.toNat op.cellWidth = s.me.tmp.old) :=
  ⟨accessible_iff.mp (h.access s.actor (s.depth s.actor) op l hp hh), h.value s.actor op l hp hh⟩

/-- A retry-loop command that completes at `S1` held its reservation, so the value it latched is the one in the
cell, and it is the one that is replaced. -/
theorem rmw_completes (h : s.ResvLinked) (hr : op.isRmw = true) (hb : s.cfg.backend = .llsc)
    (hw : s.mem.wf = true) (hp : s.me.phase = .at op .s1)
    (ht : rmwSteps op.cellWidth f res s .s1 = some t) (hidle : t.me.phase = .idle) :
    s.mem.read s.me.a0.toNat op.cellWidth = s.me.tmp.old ∧
      OnlyWrites s t s.me.a0 op.cellWidth (f s.me) ∧ Completed t { res s.me with st := 0#32 } := by
  obtain ⟨ha, hvalue⟩ := linked_at_sc h hp (by rw [hb]; exact holds_llsc hr)
  by_cases hheld : s.resv s.actor = some (granule s.me.a0)
  · obtain ⟨u, hu, hwrites, hdone⟩ := rmw_commit (f := f) (res := res) hb hw hp ha hheld
    obtain rfl : u = t := Option.some.inj (hu.symm.trans ht)
    exact ⟨hvalue hheld, hwrites, hdone⟩
  · obtain ⟨u, hu, _, hme⟩ := rmw_lost (f := f) (res := res) hb hp ha hheld
    obtain rfl : u = t := Option.some.inj (hu.symm.trans ht)
    rw [hme] at hidle
    cases hidle

end held

/-- The step of a command at a known label is its steps' at that label. -/
theorem steps_of_exec {i : Instr} {s t : State} {l : Label} (hp : s.atStep i l)
    (hx : exec i s = .next t) : stepsOf i s l = some t := by
  obtain ⟨m, hm, h⟩ := exec_next hx
  obtain rfl : m = l := by cases hm.symm.trans hp; rfl
  exact h

theorem rules_indivisible {r : RmwRule} (hr : r ∈ atomicRules) {s t : State} (h : s.ResvLinked)
    (hb : s.cfg.backend = .llsc) (hw : s.mem.wf = true) (hp : s.atStep r.instr .s1)
    (hx : exec r.instr s = .next t) (hidle : t.me.phase = .idle) :
    t.mem.read s.me.a0.toNat .word = r.new (s.mem.read s.me.a0.toNat .word) s.me.a1 ∧
      (r.returnsOld = true → t.me.r0 = s.mem.read s.me.a0.toNat .word) := by
  obtain ⟨hrmw, hwidth⟩ := rule_op hr
  have ht := steps_of_exec hp hx
  rw [stepsOf_rule hr, ← hwidth] at ht
  obtain ⟨hold, hwrites, hdone⟩ := rmw_completes h hrmw hb hw hp ht hidle
  rw [hwidth] at hold hwrites
  rw [hold, hdone]
  exact ⟨hwrites.bytes.1, fun hret => by rw [if_pos hret]; rfl⟩

theorem acas_indivisible {s t : State} (h : s.ResvLinked) (hb : s.cfg.backend = .llsc)
    (hw : s.mem.wf = true) (hp : s.atStep .acas .s1) (hx : exec .acas s = .next t)
    (hidle : t.me.phase = .idle) :
    (s.me.tmp.old = s.me.a1 →
      s.mem.read s.me.a0.toNat .word = s.me.a1 ∧ t.mem.read s.me.a0.toNat .word = s.me.a2 ∧
      t.me.r0 = 1#32 ∧ t.me.a1 = s.me.a1) ∧
    (s.me.tmp.old ≠ s.me.a1 →
      SameBytes s t ∧ t.me.r0 = 0#32 ∧ t.me.a1 = s.me.tmp.old ∧
      (s.resv s.actor = some (granule s.me.a0) →
        s.mem.read s.me.a0.toNat .word ≠ s.me.a1 ∧
        t.me.a1 = s.mem.read s.me.a0.toNat .word)) := by
  have ht := steps_of_exec hp hx
  refine ⟨fun heq => ?_, fun hne => ?_⟩
  · obtain ⟨hold, hwrites, hdone⟩ := rmw_completes (op := .acas) h rfl hb hw hp
      ((acas_match hb heq).symm.trans ht) hidle
    exact ⟨hold.trans heq, hwrites.bytes.1, by rw [hdone]; rfl, by rw [hdone]; rfl⟩
  · obtain ⟨u, hu, hrel, hdone⟩ := acas_mismatch hb hp hne
    obtain rfl : u = t := Option.some.inj (hu.symm.trans ht)
    have ha1 : u.me.a1 = s.me.tmp.old := by rw [hdone]
    obtain ⟨_, hvalue⟩ := linked_at_sc (op := .acas) h hp (by rw [hb]; rfl)
    refine ⟨hrel.bytes, by rw [hdone], ha1, fun hheld => ?_⟩
    have hold : s.mem.read s.me.a0.toNat .word = s.me.tmp.old := hvalue hheld
    exact ⟨by rwa [hold], by rw [ha1, hold]⟩

theorem acas_loads {s t : State} (hb : s.cfg.backend = .llsc) (hp : s.atStep .acas .s0)
    (hx : exec .acas s = .next t) (hf : t.me.phase ≠ .faulted) :
    SameBytes s t ∧ t.me.tmp.old = s.mem.read s.me.a0.toNat .word := by
  have ht := steps_of_exec hp hx
  have ha : Accessible s.cfg s.me.a0 .word := by
    by_contra hn
    obtain ⟨f, hfault, _⟩ := accessFault_of_not hn
    have hacc : stepAccess s.cfg.backend .acas .s0 s.me = some (s.me.a0, .word) := by rw [hb]; rfl
    obtain rfl : s.raise f s.me.a0 = t :=
      Option.some.inj ((raises_acas hacc hfault).symm.trans ht)
    exact hf (by rw [raise_me s f _ (live_at hp)])
  obtain ⟨u, hu, hres, hme⟩ := rmw_load (f := casValue) (res := casResult) hb hp ha
  obtain rfl : u = t := Option.some.inj (hu.symm.trans ((acas_first s).symm.trans ht))
  exact ⟨hres.bytes, by rw [hme]⟩

theorem bits_indivisible {o : BitOp} {w : Width} {b : BitVec 5} {s t : State} (ho : o ≠ .test)
    (h : s.ResvLinked) (hb : s.cfg.backend = .llsc) (hw : s.mem.wf = true)
    (hp : s.atStep (Instr.ofBit o w b) .s1) (hx : exec (Instr.ofBit o w b) s = .next t)
    (hidle : t.me.phase = .idle) :
    (∀ j, j < w.bits → (t.mem.read s.me.a0.toNat w).getLsbD j =
      if j = b.toNat then o.onBit ((s.mem.read s.me.a0.toNat w).getLsbD j)
      else (s.mem.read s.me.a0.toNat w).getLsbD j) ∧
    (o.returnsBit = true → t.me.r0 =
      if (s.mem.read s.me.a0.toNat w).getLsbD b.toNat = true then 1#32 else 0#32) := by
  have ht := steps_of_exec hp hx
  rw [stepsOf_ofBit ho] at ht
  rw [State.atStep, ofBit_op] at hp
  have hr : (Op.bit o w).isRmw = true := by cases o <;> first | rfl | exact absurd rfl ho
  obtain ⟨hold, hwrites, hdone⟩ := rmw_completes (op := .bit o w) h hr hb hw hp ht hidle
  rw [bit_result] at hdone
  rw [show s.mem.read s.me.a0.toNat w = s.me.tmp.old from hold, hdone]
  exact ⟨fun j hj => bits_stored ho hwrites hj, fun hret => if_pos hret⟩

/-- Settles O31: a command that completes held its reservation, and a held reservation's cell holds the value that
was latched. -/
theorem atomicCommitIsIndivisible : Obligations.AtomicCommitIsIndivisible :=
  ⟨fun _ hr _ _ h hb hw hp hx hi => rules_indivisible hr h hb hw hp hx hi,
    fun _ _ h hb hw hp hx hi => acas_indivisible h hb hw hp hx hi,
    fun _ _ hb hp hx hf => acas_loads hb hp hx hf,
    fun _ _ _ _ _ ho _ h hb hw hp hx hi => bits_indivisible ho h hb hw hp hx hi⟩

/-! ### Commands alone on the machine -/

/-- A first micro-step, then the others. -/
theorem alone_step {i : Instr} {n : Nat} {s t : State} (h : exec i s = .next t) :
    alone i (n + 1) s = alone i n t := by
  rw [alone, h]

/-- Every micro-step keeps the memory canonical. -/
theorem exec_wf {i : Instr} {s t : State} (hx : exec i s = .next t) (h : s.mem.wf = true) :
    t.mem.wf = true := by
  cases exec_shape hx with
  | acts s' u h1 h2 h3 =>
    have hs' : s'.mem.wf = true := by rw [ctx_mem h1]; exact h
    rw [ctx_mem h3]
    cases h2 with
    | write a w v _ => exact Memory.write_wf hs' _ _ _
    | move a b _ _ => exact Memory.write_wf hs' b.toNat .byte (s'.mem.read a.toNat .byte)
    | _ => exact hs'
  | faults f a e => subst e; exact h
  | faultsLate f a b _ e => subst e; exact h

theorem read_of_sameBytes {s t : State} (h : SameBytes s t) (a : Nat) (w : Width) :
    t.mem.read a w = s.mem.read a w := Memory.read_congr fun x _ _ => h x

/-- A store after steps that changed no byte. -/
theorem storedCell_after {s t u : State} {a v : Word} {w : Width} (h : SameBytes s t)
    (g : StoredCell t u a w v) : StoredCell s u a w v :=
  ⟨g.1, fun x hx => (g.2 x hx).trans (h x)⟩

/-- Reservations after an `LL` and a store to the granule it reserved. -/
theorem resv_after_attempt {s t u : State} {a : Word} (h : ResvIs s t (some (granule a)))
    (g : ResvBroken t u a) (k : Nat) :
    u.resv k = if k = s.actor ∨ s.resv k = some (granule a) then none else s.resv k := by
  rw [g k, h k]
  by_cases hk : k = s.actor
  · simp [hk]
  · simp [hk]

/-- Settles O32: the load, then the commit of what it latched. -/
theorem atomicCommandAlone : Obligations.AtomicCommandAlone := by
  intro r hr s hb hw hp ha
  have hs := stepsOf_rule hr
  obtain ⟨t, ht, hres, hme⟩ := rmw_load (f := fun c => r.new c.tmp.old c.a1)
    (res := if r.returnsOld = true then resultOld else resultNone) hb hp ha
  have hx : exec r.instr s = .next t := exec_at hp (by rw [hs]; exact ht)
  have ha0 : t.me.a0 = s.me.a0 := by rw [hme]
  obtain ⟨u, hu, hwrites, hdone⟩ := rmw_commit (s := t) (op := r.instr.op) (w := .word)
    (f := fun c => r.new c.tmp.old c.a1) (res := if r.returnsOld = true then resultOld else resultNone)
    (by rw [hres.cfg, hb]) (exec_wf hx hw) (by rw [hme]) (by rw [hres.cfg, ha0]; exact ha)
    (by rw [hres.actor, hres.resv, if_pos rfl, ha0])
  have hx' : exec r.instr t = .next u := exec_at (l := .s1) (by rw [hme]) (by rw [hs]; exact hu)
  rw [ha0] at hwrites
  rw [rule_result] at hdone
  refine ⟨u, by rw [alone_step hx, alone_step hx']; rfl, hres.toSameElse.trans hwrites.toSameElse, ?_,
    hwrites.nest.trans hres.nest, fun k => (hwrites.masks k).trans (hres.masks k),
    resv_after_attempt hres.resv hwrites.resv, ?_⟩
  · rw [hme] at hwrites
    exact storedCell_after hres.bytes hwrites.bytes
  · rw [hme] at hdone
    exact hdone

/-- Settles O33: the load, then the comparison with what it latched. -/
theorem compareExchangeAlone : Obligations.CompareExchangeAlone := by
  intro s hb hw hp ha
  obtain ⟨t, ht, hres, hme⟩ := rmw_load (f := casValue) (res := casResult) hb hp ha
  have hx : exec .acas s = .next t := exec_at hp ((acas_first s).trans ht)
  have hwt := exec_wf hx hw
  have hbt : t.cfg.backend = .llsc := by rw [hres.cfg, hb]
  have hpt : t.atStep .acas .s1 := by rw [State.atStep, hme]
  have hat : Accessible t.cfg t.me.a0 .word := by rw [hres.cfg, hme]; exact ha
  have hrt : t.resv t.actor = some (granule t.me.a0) := by rw [hres.actor, hres.resv, if_pos rfl, hme]
  obtain ⟨mismatch, success⟩ := compareExchangeDecides t hbt hwt hpt
  by_cases heq : s.mem.read s.me.a0.toNat .word = s.me.a1
  · obtain ⟨u, hu, hwrites, hdone⟩ := success (by rw [hme]; exact heq) hat hrt
    rw [hme] at hwrites hdone
    exact ⟨u, by rw [alone_step hx, alone_step hu]; rfl, hres.toSameElse.trans hwrites.toSameElse,
      hwrites.nest.trans hres.nest, fun k => (hwrites.masks k).trans (hres.masks k),
      fun _ => ⟨storedCell_after hres.bytes hwrites.bytes, hdone⟩, fun hne => absurd heq hne⟩
  · obtain ⟨u, hu, hrel, hdone⟩ := mismatch (by rw [hme]; exact heq)
    rw [hme] at hdone
    exact ⟨u, by rw [alone_step hx, alone_step hu]; rfl, hres.toSameElse.trans hrel.toSameElse,
      hrel.nest.trans hres.nest, fun k => (hrel.masks k).trans (hres.masks k),
      fun h => absurd h heq, fun _ => ⟨fun x => (hrel.bytes x).trans (hres.bytes x), hdone⟩⟩

/-! ### `ACAS` under `IRQMASK` -/

section masked
variable {s : State} (hb : s.cfg.backend = .irqmask)
include hb

/-- `S2` where the comparison holds: `A2` is stored, and the outcome is kept (log 9). -/
theorem acas_masked_match (hw : s.mem.wf = true) (hp : s.me.phase = .at .acas .s2)
    (ha : Accessible s.cfg s.me.a0 .word) (h : s.me.tmp.old = s.me.a1) :
    ∃ t, acasSteps s .s2 = some t ∧ OnlyWrites s t s.me.a0 .word s.me.a2 ∧
      t.me = { s.me with phase := .at .acas .s3, tmp := { s.me.tmp with n := 1#32 } } := by
  have hl := live_at hp
  refine ⟨_, by simp only [acasSteps, hb, h, if_true]; rfl, ?_⟩
  rw [store_ok (accessible_iff.mpr ha)]
  exact ⟨((writeMem_only s hw _ _ _).andThen (updTmp_only _ _)).andThen (goto_only _ _),
    by simp [hl, hp]⟩

/-- `S2` where it does not: `A1` takes the value read, and the outcome is kept (log 9). -/
theorem acas_masked_mismatch (hp : s.me.phase = .at .acas .s2) (h : s.me.tmp.old ≠ s.me.a1) :
    ∃ t, acasSteps s .s2 = some t ∧ OnlyContext s t ∧
      t.me = { s.me with
        a1 := s.me.tmp.old, phase := .at .acas .s3, tmp := { s.me.tmp with n := 0#32 } } := by
  have hl := live_at hp
  exact ⟨_, by simp only [acasSteps, hb, h, if_false]; rfl, (updMe_only _ _).trans (goto_only _ _),
    by simp [hl, hp]⟩

/-- `S3`: the mask is restored and the outcome returned. -/
theorem acas_unmask (hp : s.me.phase = .at .acas .s3) :
    ∃ t, acasSteps s .s3 = some t ∧ OnlyMasks s t (s.me.tmp.snap &&& 1#32) ∧
      Completed t { s.me with r0 := s.me.tmp.n, st := 0#32 } := by
  have hl := live_at hp
  exact ⟨_, by simp only [acasSteps, hb]; rfl,
    ((release_only s hl _).andThen (setR0_only _ _)).andThen (finish_only _ _),
    by simp [hl, Completed, Status.code]⟩

end masked

/-- A mask taken, and restored from its snapshot. -/
theorem sameMasks_of_restore {s t u v : State} (h : MaskIs s t 1#32) (g : SameMasks t u)
    (r : MaskIs u v (s.imask s.actor &&& 1#32)) (ha : u.actor = s.actor) : SameMasks s v := fun k => by
  rw [r k, ha, g k, h k, imask_and_one]
  by_cases hk : k = s.actor
  · rw [if_pos hk, hk]
  · rw [if_neg hk, if_neg hk]

/-- Settles O36: mask, read, compare, restore; the outcome of the comparison goes to the last step. -/
theorem maskedCompareExchangeAlone : Obligations.MaskedCompareExchangeAlone := by
  intro s hb hw hp ha
  obtain ⟨t, ht, hmask, hmt⟩ := rmw_mask (w := .word) (f := casValue) (res := casResult) hb hp
  have hx : exec .acas s = .next t := exec_at hp ((acas_first s).trans ht)
  have hbt : t.cfg.backend = .irqmask := by rw [hmask.cfg, hb]
  have hpt : t.atStep .acas .s1 := by rw [State.atStep, hmt]
  obtain ⟨u, hu, hread, hmu⟩ := rmw_read (w := .word) (f := casValue) (res := casResult) hbt hpt
    (by rw [hmask.cfg, hmt]; exact ha)
  have hxt : exec .acas t = .next u := exec_at hpt ((acas_masked_read hbt).trans hu)
  have hsu : SameBytes s u := fun x => (hread.bytes x).trans (hmask.bytes x)
  have hbu : u.cfg.backend = .irqmask := by rw [hread.cfg, hbt]
  have hold : u.me.tmp.old = s.mem.read s.me.a0.toNat .word := by
    rw [hmu, hmt]
    exact read_of_sameBytes hmask.bytes s.me.a0.toNat .word
  have hme : u.me = { s.me with phase := .at .acas .s2, tmp := u.me.tmp } := by rw [hmu, hmt]; rfl
  have hsnap : u.me.tmp.snap = s.imask s.actor := by rw [hmu, hmt]
  have hpu : u.me.phase = .at .acas .s2 := by rw [hme]
  have hse := hmask.toSameElse.trans hread.toSameElse
  have hnest := hread.nest.trans hmask.nest
  have last {v : State} (hxv : exec .acas u = .next v) (hpv : v.me.phase = .at .acas .s3)
      (hev : SameElse u v) (hmv : SameMasks u v) (hsv : v.me.tmp.snap = s.imask s.actor) :
      ∃ x, alone .acas 4 s = .next x ∧ SameElse s x ∧ SameMasks s x ∧ OnlyMasks v x (s.imask s.actor &&& 1#32) ∧
        Completed x { v.me with r0 := v.me.tmp.n, st := 0#32 } := by
    obtain ⟨x, hx', hrel, hdone⟩ := acas_unmask (by rw [hev.cfg]; exact hbu) hpv
    rw [hsv] at hrel
    have hev' := hse.trans hev
    refine ⟨x, ?_, hev'.trans hrel.toSameElse, ?_, hrel, hdone⟩
    · rw [alone_step hx, alone_step hxt, alone_step hxv, alone_step (exec_at (i := .acas) hpv hx')]; rfl
    · exact sameMasks_of_restore hmask.masks (fun k => (hmv k).trans (hread.masks k)) hrel.masks hev'.actor
  by_cases heq : s.mem.read s.me.a0.toNat .word = s.me.a1
  · obtain ⟨v, hv, hwrites, hmv⟩ := acas_masked_match hbu (exec_wf hxt (exec_wf hx hw)) hpu
      (by rw [hse.cfg, hme]; exact ha) (by rw [hold, hme]; exact heq)
    obtain ⟨x, halone, hsx, hmx, hrel, hdone⟩ := last (exec_at (i := .acas) hpu hv) (by rw [hmv])
      hwrites.toSameElse hwrites.masks (by rw [hmv]; exact hsnap)
    rw [hme] at hwrites
    rw [hmv, hme] at hdone
    refine ⟨x, halone, hsx, hrel.nest.trans (hwrites.nest.trans hnest), hmx, fun _ => ⟨?_, ?_, hdone⟩,
      fun hne => absurd heq hne⟩
    · have hcell := storedCell_after hsu hwrites.bytes
      exact ⟨(read_of_sameBytes hrel.bytes _ _).trans hcell.1,
        fun y hy => (hrel.bytes y).trans (hcell.2 y hy)⟩
    · intro k
      rw [hrel.resv, hwrites.resv k, hread.resv, hmask.resv]
  · obtain ⟨v, hv, hctx, hmv⟩ := acas_masked_mismatch hbu hpu (by rw [hold, hme]; exact heq)
    obtain ⟨x, halone, hsx, hmx, hrel, hdone⟩ := last (exec_at (i := .acas) hpu hv) (by rw [hmv])
      hctx.toSameElse hctx.masks (by rw [hmv]; exact hsnap)
    rw [hmv, hold, hme] at hdone
    refine ⟨x, halone, hsx, hrel.nest.trans (hctx.nest.trans hnest), hmx, fun h => absurd h heq,
      fun _ => ⟨fun y => ?_, fun k => ?_, hdone⟩⟩
    · rw [hrel.bytes, hctx.bytes, hsu]
    · rw [hrel.resv, hctx.resv, hread.resv, hmask.resv]

end Sys2Proof.Machine
end

section
/-! SUPPORT. What a step made of one primitive of 00_scope R9 gives, one lemma a primitive, and the proofs of the
spinlock family (44_spinlock R190 to R195). -/

namespace Sys2Proof.Machine

/-! ### Steps of one primitive -/

section onePrimitive
variable {s : State} {op : Op} {l : Label} (hp : s.me.phase = .at op l)
include hp

/-- `goto` after anything that left the executing context's registers alone. -/
theorem goto_me_of {t : State} (hl : t.live) (hme : t.me = s.me) (m : Label) :
    (t.goto m).me = { s.me with phase := .at op m } := by
  rw [goto_me t m hl, hme, hp]; rfl

/-- A read and what the command makes of the value, then the next step. -/
theorem load_then {a : Word} {w : Width} {m : Label} (ha : Accessible s.cfg a w)
    (f : Word → Temps → Temps) :
    ∃ t, some (s.load a w fun v u => (u.updTmp (f v)).goto m) = some t ∧ OnlyReads s t a w ∧
      t.me = { s.me with phase := .at op m, tmp := f (s.mem.read a.toNat w) s.me.tmp } := by
  have hl := live_at hp
  refine ⟨_, rfl, ?_⟩
  rw [load_ok (accessible_iff.mpr ha)]
  exact ⟨((record_read_only s _ _).andThen (updTmp_only _ _)).andThen (goto_only _ _),
    by simp [hl, hp, State.updTmp]⟩

/-- A store, then changes of the executing context. -/
theorem store_then {a v : Word} {w : Width} {k : State → State} {Q : State → Prop}
    (hw : s.mem.wf = true) (ha : Accessible s.cfg a w) (hk : ∀ t, OnlyContext t (k t))
    (hQ : ∀ t, t.live → t.me = s.me → Q (k t)) :
    ∃ t, some (s.store a w v k) = some t ∧ OnlyWrites s t a w v ∧ Q t := by
  refine ⟨_, rfl, ?_⟩
  rw [store_ok (accessible_iff.mpr ha)]
  exact ⟨(writeMem_only s hw _ _ _).andThen (hk _), hQ _ (by simp [live_at hp]) (by simp)⟩

/-- A store, then the next step. -/
theorem store_goto {a v : Word} {w : Width} {m : Label} (hw : s.mem.wf = true)
    (ha : Accessible s.cfg a w) :
    ∃ t, some (s.store a w v fun t => t.goto m) = some t ∧ OnlyWrites s t a w v ∧
      t.me = { s.me with phase := .at op m } :=
  store_then hp hw ha (fun t => goto_only t m) fun _ hl hme => goto_me_of hp hl hme m

/-- A store that ends its command. -/
theorem store_finish {a v : Word} {w : Width} (hw : s.mem.wf = true) (ha : Accessible s.cfg a w) :
    ∃ t, some (s.store a w v fun t => t.finish .ok) = some t ∧ OnlyWrites s t a w v ∧
      Completed t { s.me with st := 0#32 } :=
  store_then hp hw ha (fun t => finish_only t .ok) fun _ hl hme => hme ▸ finish_completed hl .ok

/-- A barrier, then the next step. -/
theorem fence_goto {m : Label} : ∃ t, some (s.barrier.goto m) = some t ∧ OnlyFences s t ∧
    t.me = { s.me with phase := .at op m } :=
  ⟨_, rfl, (barrier_only s).andThen (goto_only _ _), goto_me_of (t := s.barrier) hp (live_at hp) rfl m⟩

/-- The acquire step (43_irq_lock R171), then the next step. -/
theorem acquire_goto {m : Label} : ∃ t, some (s.acquire.goto m) = some t ∧ OnlyMasks s t 1#32 ∧
    t.me = { s.me with phase := .at op m, tmp := { s.me.tmp with snap := s.imask s.actor } } := by
  have hl := live_at hp
  exact ⟨_, rfl, (acquire_only s hl).andThen (goto_only _ _), by simp [hl, hp]⟩

/-- The reservation given up, then the next step. -/
theorem clrResv_goto {m : Label} : OnlyReleases s (s.clrResv.goto m) ∧
    (s.clrResv.goto m).me = { s.me with phase := .at op m } :=
  ⟨(clrResv_only s).andThen (goto_only _ _),
    goto_me_of hp (by simpa using live_at hp) (by simp) m⟩

end onePrimitive

/-! ### The way in and the way back -/

/-- Where `SPLOCK` and `SPTRY` go when the lock is held or the reservation lost (44_spinlock R192, R193). -/
def spinRetry (i : Instr) : Label := if i = .splock then .s1 else .s5

/-- The steps `SPLOCK` and `SPTRY` share. -/
theorem stepsOf_spin {i : Instr} (hi : i ∈ [Instr.splock, Instr.sptry]) (s : State) :
    stepsOf i s .s0 = some (s.acquire.goto .s1) ∧
    stepsOf i s .s1 = some (s.ll s.me.a0 .word fun v t => (t.latchOld v).goto .s2) ∧
    stepsOf i s .s2 = some (if s.me.tmp.old ≠ 0#32 then s.clrResv.goto (spinRetry i)
      else s.sc s.me.a0 .word 1#32 fun ok t => if ok then t.goto .s3 else t.goto (spinRetry i)) ∧
    stepsOf i s .s3 = some (s.barrier.goto .s4) ∧
    stepsOf i s .s4 = some (s.store (s.me.a0 + 4#32) .word s.me.tmp.snap fun t =>
      (if i = .sptry then t.setR0 1#32 else t).finish .ok) := by
  simp only [List.mem_cons, List.not_mem_nil, or_false] at hi
  rcases hi with rfl | rfl <;> exact ⟨rfl, rfl, rfl, rfl, rfl⟩

section spin
variable {i : Instr} (hi : i ∈ [Instr.splock, Instr.sptry]) {s : State}
include hi

/-- `S2` on a lock that is free while the reservation holds: it is taken. -/
theorem spin_takes (hw : s.mem.wf = true) (hp : s.atStep i .s2) (hold : s.me.tmp.old = 0#32)
    (ha : Accessible s.cfg s.me.a0 .word) (hr : s.resv s.actor = some (granule s.me.a0)) :
    ∃ t, exec i s = .next t ∧ OnlyWrites s t s.me.a0 .word 1#32 ∧
      t.me = { s.me with phase := .at i.op .s3 } := by
  obtain ⟨_, _, hstep, _⟩ := stepsOf_spin hi s
  refine exec_of_step hp hstep ⟨_, rfl, ?_⟩
  rw [if_neg (not_not.mpr hold), sc_ok (accessible_iff.mpr ha) hr]
  exact ⟨(writeMem_only s hw _ _ _).andThen (goto_only _ .s3),
    goto_me_of hp (by simpa using live_at hp) (by simp) .s3⟩

/-- `S2` on a lock that was held, or whose reservation is lost: it is left. -/
theorem spin_backs_off (hp : s.atStep i .s2) (h : s.me.tmp.old ≠ 0#32 ∨
      (Accessible s.cfg s.me.a0 .word ∧ s.resv s.actor ≠ some (granule s.me.a0))) :
    ∃ t, exec i s = .next t ∧ OnlyReleases s t ∧
      t.me = { s.me with phase := .at i.op (spinRetry i) } := by
  obtain ⟨_, _, hstep, _⟩ := stepsOf_spin hi s
  refine exec_of_step hp hstep ⟨_, rfl, ?_⟩
  by_cases hold : s.me.tmp.old ≠ 0#32
  · rw [if_pos hold]
    exact clrResv_goto hp
  · obtain ⟨ha, hr⟩ := h.resolve_left hold
    rw [if_neg hold, sc_lost (accessible_iff.mpr ha) hr]
    exact clrResv_goto hp

end spin

/-- Settles O40: the steps both commands share. -/
theorem spinlockAcquires : Obligations.SpinlockAcquires := by
  intro i hi s hw
  obtain ⟨h0, h1, _, h3, h4⟩ := stepsOf_spin hi s
  refine ⟨fun hp => exec_of_step hp h0 (acquire_goto hp), fun hp ha => ?_,
    fun hp hold ha hr => spin_takes hi hw hp hold ha hr, fun hp => exec_of_step hp h3 (fence_goto hp),
    fun hp ha => exec_of_step hp h4 (store_then hp hw ha (fun t => ?_) fun t hl hme => ?_)⟩
  · have hl := live_at hp
    refine exec_of_step hp h1 ⟨_, rfl, ?_⟩
    rw [ll_ok (accessible_iff.mpr ha)]
    exact ⟨((record_reserve_only s hl _ _ _).andThen (latchOld_only _ _)).andThen (goto_only _ _),
      by simp [hl, hp, State.latchOld, State.updTmp]⟩
  · split
    · exact (setR0_only t _).trans (finish_only _ _)
    · exact finish_only t _
  · split
    · simp [Completed, hl, hme, Status.code]
    · rw [← hme]; exact finish_completed hl .ok

/-- Settles O41: both ways back give up the reservation; `S5` of `SPTRY` restores the mask. -/
theorem spinlockBusyPaths : Obligations.SpinlockBusyPaths := by
  refine ⟨fun p hmem s hp h => ?_, fun s hp => exec_of_step hp rfl ⟨_, rfl, ?_, ?_⟩⟩
  · have hi : p.1 ∈ [Instr.splock, Instr.sptry] ∧ spinRetry p.1 = p.2 := by
      simp only [List.mem_cons, List.not_mem_nil, or_false] at hmem
      rcases hmem with rfl | rfl <;> exact ⟨by simp, rfl⟩
    obtain ⟨hi, hretry⟩ := hi
    rw [← hretry]
    exact spin_backs_off hi hp h
  · exact ((release_only s (live_at hp) _).andThen (setR0_only _ _)).andThen (finish_only _ _)
  · simp [Completed, live_at hp, Status.code]

/-- Settles O42: every step is one primitive. -/
theorem spinlockInitAndUnlock : Obligations.SpinlockInitAndUnlock := by
  intro s hw
  exact ⟨fun hp ha => exec_of_step hp rfl (store_goto hp hw ha),
    fun hp ha => exec_of_step hp rfl (store_finish hp hw ha),
    fun hp ha => exec_of_step hp rfl (load_then hp ha fun v u => { u with snap := v }),
    fun hp => exec_of_step hp rfl (fence_goto hp),
    fun hp ha => exec_of_step hp rfl (store_goto hp hw ha),
    fun hp => exec_of_step hp rfl ⟨_, rfl, release_finish (live_at hp) s.me.tmp.snap⟩⟩

/-- Settles O43: only the `SC` with its reservation held leads to `S3`, and then the cell holds the latched 0. -/
theorem spinlockIsTakenOnlyWhenFree : Obligations.SpinlockIsTakenOnlyWhenFree := by
  intro i hi s t hlinked hw hp hx hphase
  have hop : i.op.holds s.cfg.backend .s2 = true ∧ i.op.cellWidth = .word ∧ spinRetry i ≠ .s3 := by
    simp only [List.mem_cons, List.not_mem_nil, or_false] at hi
    rcases hi with rfl | rfl <;> exact ⟨by cases s.cfg.backend <;> rfl, rfl, by decide⟩
  obtain ⟨hholds, hwidth, hretry⟩ := hop
  obtain ⟨ha, hvalue⟩ := linked_at_sc hlinked hp hholds
  rw [hwidth] at ha hvalue
  by_cases htaken : s.me.tmp.old = 0#32 ∧ s.resv s.actor = some (granule s.me.a0)
  · obtain ⟨u, hu, hwrites, _⟩ := spin_takes hi hw hp htaken.1 ha htaken.2
    obtain rfl : u = t := by cases hu.symm.trans hx; rfl
    exact ⟨(hvalue htaken.2).trans htaken.1, hwrites.bytes.1⟩
  · obtain ⟨u, hu, _, hme⟩ := spin_backs_off hi hp
      ((not_and_or.mp htaken).imp_right fun hr => ⟨ha, hr⟩)
    obtain rfl : u = t := by cases hu.symm.trans hx; rfl
    rw [hme] at hphase
    exact absurd (Phase.at.inj hphase).2 hretry

end Sys2Proof.Machine
end

section
/-! SUPPORT. The proofs of the ring buffer family (42_ring_buffer R140 to R160), one step at a time, and of its
address arithmetic. -/

namespace Sys2Proof.Machine

/-! ### `RINIT` -/

/-- The capacity of R143, as a power of two. -/
theorem capacity_log {B E : Word} (h : 2 ≤ B.toNat / E.toNat) :
    1 ≤ Nat.log2 (B.toNat / E.toNat) ∧
      (floorPow2 (divWord B E)).toNat = 2 ^ Nat.log2 (B.toNat / E.toNat) ∧
      2 ^ Nat.log2 (B.toNat / E.toNat) ≤ B.toNat / E.toNat ∧
      B.toNat / E.toNat < 2 ^ (Nat.log2 (B.toNat / E.toNat) + 1) := by
  have hspec := floorPow2_spec (q := divWord B E) (by rw [divWord_toNat]; omega)
  rw [divWord_toNat] at hspec
  exact ⟨(Nat.le_log2 (by omega)).mpr h, hspec⟩

/-- What `RINIT` refuses (42_ring_buffer R142), with the quotient as a number. -/
theorem rinit_refuses_iff (c : Context) :
    (c.a0 = 0#32 ∨ c.a1 = 0#32 ∨ c.a3 = 0#32 ∨ c.a2.toNat / c.a3.toNat < 2) ↔
      (c.a0 = 0#32 ∨ c.a1 = 0#32 ∨ c.a3 = 0#32) ∨ divWord c.a2 c.a3 < 2#32 := by
  rw [BitVec.lt_def, divWord_toNat, or_assoc, or_assoc]
  rfl

theorem rinit_refuses {s : State} (h : s.me.a0 = 0#32 ∨ s.me.a1 = 0#32 ∨ s.me.a3 = 0#32 ∨
    s.me.a2.toNat / s.me.a3.toNat < 2) : rinitSteps s .s0 = some (s.finish .einval) := by
  rw [rinitSteps]
  rcases (rinit_refuses_iff s.me).mp h with hnull | hsmall
  · rw [if_pos hnull]
  · rw [if_pos hsmall, ite_self]

theorem rinit_accepts {s : State} (h : ¬ (s.me.a0 = 0#32 ∨ s.me.a1 = 0#32 ∨ s.me.a3 = 0#32 ∨
    s.me.a2.toNat / s.me.a3.toNat < 2)) :
    rinitSteps s .s0 =
      some ((s.updTmp (fun t => { t with cap := floorPow2 (divWord s.me.a2 s.me.a3) })).goto .s1) := by
  rw [rinit_refuses_iff, not_or] at h
  rw [rinitSteps, if_neg h.1, if_neg h.2]

/-- Settles O44: a refusal writes `ST` only; otherwise the capacity of R143 is latched, and each later step is one
store. -/
theorem ringInitValidatesAndWrites : Obligations.RingInitValidatesAndWrites := by
  refine ⟨fun s hp => ?_, fun s hw => ⟨fun p hmem hp ha => ?_,
    fun hp ha => exec_of_step hp rfl (store_finish hp hw ha)⟩⟩
  · have hl := live_at hp
    by_cases hbad : s.me.a0 = 0#32 ∨ s.me.a1 = 0#32 ∨ s.me.a3 = 0#32 ∨
        s.me.a2.toNat / s.me.a3.toNat < 2
    · refine exec_of_step hp (rinit_refuses hbad) ⟨_, rfl, finish_only _ _,
        fun _ => finish_completed hl .einval, fun h0 h1 h3 hq => ?_⟩
      rcases hbad with h | h | h | h
      · exact absurd h h0
      · exact absurd h h1
      · exact absurd h h3
      · exact absurd hq (by omega)
    · refine exec_of_step hp (rinit_accepts hbad) ⟨_, rfl,
        (updTmp_only _ _).trans (goto_only _ _), fun h => absurd h hbad, fun _ _ _ hq => ?_⟩
      have hme : ((s.updTmp (fun t => { t with
          cap := floorPow2 (divWord s.me.a2 s.me.a3) })).goto .s1).me = { s.me with
          phase := .at .rinit .s1,
          tmp := { s.me.tmp with cap := floorPow2 (divWord s.me.a2 s.me.a3) } } := by
        simp [hl, hp, State.updTmp]; rfl
      rw [hme]
      exact ⟨rfl, _, capacity_log hq⟩
  · simp only [List.mem_cons, List.not_mem_nil, or_false] at hmem
    rcases hmem with rfl | rfl | rfl | rfl <;> exact exec_of_step hp rfl (store_goto hp hw ha)

/-- Settles O45: the capacity is `2 ^ log2` of the quotient, and the quotient times `E` is at most `B`. -/
theorem capacityLaw : Obligations.CapacityLaw := by
  intro B E h
  obtain ⟨hone, hcap, hle, hlt⟩ := capacity_log h
  rw [hcap]
  refine ⟨⟨_, rfl⟩, Nat.le_self_pow (by omega) 2, hle, by omega, ?_⟩
  calc 2 ^ Nat.log2 (B.toNat / E.toNat) * E.toNat
      ≤ B.toNat / E.toNat * E.toNat := Nat.mul_le_mul_right _ hle
    _ ≤ B.toNat := Nat.div_mul_le_self _ _

/-! ### `LOADDESC` -/

/-- What a command computes when the descriptor is latched (42_ring_buffer R146 to R148). -/
def transferPlan (i : Instr) (count : Word) (t : Temps) : Temps :=
  if isProducer i then t.planProduce count else t.planConsume count

theorem transferPlan_eq (i : Instr) (count : Word) (t : Temps) :
    transferPlan i count t = { t with
      off := transferStart i t, i := 0#32,
      n := (transferPlan i count t).n, l := (transferPlan i count t).l } := by
  unfold transferPlan transferStart
  cases isProducer i <;> rfl

theorem transferPlan_bounds (i : Instr) (count : Word) (t : Temps) :
    IsMinOf (transferPlan i count t).n count (transferBound i t) ∧
      IsMinOf (transferPlan i count t).l (transferPlan i count t).n
        (t.mask + 1#32 - transferStart i t) := by
  unfold transferPlan transferStart transferBound
  cases isProducer i <;> exact ⟨minWord_toNat _ _, minWord_toNat _ _⟩

section desc
variable {i : Instr} (hi : i ∈ loadsDescriptor) {s : State}
include hi

theorem loadsDescriptor_cases : i = .rprod ∨ i = .rcons ∨ i = .rpeek ∨ i = .rprodl ∨ i = .rconsl := by
  simpa [loadsDescriptor] using hi

/-- The five commands that begin with `LOADDESC` share its steps, each with its own plan. -/
theorem stepsOf_loadDesc {l : Label} {a : Word} (h : descriptorWord l s.me = some a) :
    stepsOf i s l = loadDescSteps (transferPlan i s.me.a2) s l := by
  have hlabel : l ≠ .l0 ∧ l ≠ .lz := by
    constructor <;> (rintro rfl; cases h)
  rcases loadsDescriptor_cases hi with rfl | rfl | rfl | rfl | rfl
  · exact produce_load h
  · exact consume_load h
  · exact peek_load h
  · exact (locked_inner produceSteps hlabel).trans (produce_load h)
  · exact (locked_inner consumeSteps hlabel).trans (consume_load h)

end desc

/-- Settles O46: the shared loads, then the plan. -/
theorem descriptorIsLoaded : Obligations.DescriptorIsLoaded := by
  intro i hi s l a hp hd ha
  obtain ⟨t, ht, hreads, h0, h1, h2, h3, h4⟩ :=
    loadDesc_step (plan := transferPlan i s.me.a2) hp hd ha
  refine exec_of_step hp (stepsOf_loadDesc hi hd) ⟨t, ht, hreads, h0, h1, h2, h3, fun hl => ?_⟩
  rw [h4 hl]
  exact ⟨congrArg (fun x => { s.me with phase := .at i.op .s5, tmp := x }) (transferPlan_eq i _ _),
    transferPlan_bounds i s.me.a2 _⟩

/-! ### The payload copy -/

/-- The ring address of the model is the one of R145 at byte `t.i`. -/
theorem ringAddr_eq (t : Temps) : t.ringAddr = ringByte t t.i.toNat := by
  simp [Temps.ringAddr, ringByte]

/-- A byte is never misaligned: what is not accessible is out of range. -/
theorem accessFault_byte {s : State} {a : Word} (h : ¬ Accessible s.cfg a .byte) :
    ∃ f, accessFault s.cfg a .byte = some f ∧ f.code = 2#32 := by
  obtain ⟨f, hf, hcode⟩ := accessFault_of_not h
  exact ⟨f, hf, by rw [hcode]; simp [Width.bytes, Nat.mod_one]⟩

section copy
variable {s : State} {src dst : Word}

/-- A copy whose read is out of range takes the fault there (42_ring_buffer R145). -/
theorem copyByte_fault_src (hl : s.live) (h : ¬ Accessible s.cfg src .byte) :
    OnlyContext s (s.copyByte src dst) ∧
      (s.copyByte src dst).me = { s.me with fsr := 2#32, far := src, phase := .faulted } := by
  obtain ⟨f, hf, hcode⟩ := accessFault_byte h
  rw [State.copyByte, load_fault hf, ← hcode]
  exact ⟨raise_only s f src, raise_me s f src hl⟩

/-- A copy whose write is out of range has made its read (log 7) and stores nothing. -/
theorem copyByte_fault_dst (hl : s.live) (hs : Accessible s.cfg src .byte)
    (h : ¬ Accessible s.cfg dst .byte) :
    OnlyReads s (s.copyByte src dst) src .byte ∧
      (s.copyByte src dst).me = { s.me with fsr := 2#32, far := dst, phase := .faulted } := by
  obtain ⟨f, hf, hcode⟩ := accessFault_byte h
  rw [State.copyByte, load_ok (accessible_iff.mpr hs), store_fault (s := s.record _) hf, ← hcode]
  exact ⟨(record_read_only s _ _).andThen (raise_only _ f dst), raise_me (s.record _) f dst hl⟩

/-- While bytes are left `S5` copies one, to the ring or from it. -/
theorem stepsOf_copy {i : Instr} (hi : i ∈ loadsDescriptor)
    (hleft : s.me.tmp.i < s.me.tmp.n * s.me.tmp.esz)
    (h : if isProducer i then
        src = s.me.a1 + s.me.tmp.i ∧ dst = ringByte s.me.tmp s.me.tmp.i.toNat
      else src = ringByte s.me.tmp s.me.tmp.i.toNat ∧ dst = s.me.a1 + s.me.tmp.i) :
    stepsOf i s .s5 = some (s.copyByte src dst) := by
  have hin (e : src = s.me.a1 + s.me.tmp.i ∧ dst = ringByte s.me.tmp s.me.tmp.i.toNat)
      (fin : State → State) : produceSteps fin s .s5 = some (s.copyByte src dst) := by
    obtain ⟨rfl, rfl⟩ := e
    rw [← ringAddr_eq]
    exact congrArg some (if_pos hleft)
  have hout (e : src = ringByte s.me.tmp s.me.tmp.i.toNat ∧ dst = s.me.a1 + s.me.tmp.i)
      (fin : State → State) : consumeSteps fin s .s5 = some (s.copyByte src dst) := by
    obtain ⟨rfl, rfl⟩ := e
    rw [← ringAddr_eq]
    exact congrArg some (if_pos hleft)
  have hpeek (e : src = ringByte s.me.tmp s.me.tmp.i.toNat ∧ dst = s.me.a1 + s.me.tmp.i) :
      peekSteps s .s5 = some (s.copyByte src dst) := by
    obtain ⟨rfl, rfl⟩ := e
    rw [← ringAddr_eq]
    exact congrArg some (if_pos hleft)
  rcases loadsDescriptor_cases hi with rfl | rfl | rfl | rfl | rfl
  · exact hin h State.done
  · exact hout h State.done
  · exact hpeek h
  · exact hin h fun t => t.goto .lz
  · exact hout h fun t => t.goto .lz

end copy

/-- Settles O47: the copy, by which of its two accesses pass. -/
theorem copyMovesOneByte : Obligations.CopyMovesOneByte := by
  intro i hi s src dst hp hleft hw haddr
  have hl := live_at hp
  refine exec_of_step hp (stepsOf_copy hi hleft haddr) ⟨_, rfl, ?_⟩
  by_cases hs : Accessible s.cfg src .byte
  · by_cases hd : Accessible s.cfg dst .byte
    · obtain ⟨helse, hnest, hmasks, hbytes, hresv, hlogs, hme⟩ := copyByte_ok hw hp hs hd
      exact ⟨helse, hnest, hmasks, fun _ _ => ⟨hbytes, hresv, hlogs, hme⟩, fun h => absurd hs h,
        fun _ h => absurd hd h⟩
    · obtain ⟨hreads, hme⟩ := copyByte_fault_dst hl hs hd
      exact ⟨hreads.toSameElse, hreads.nest, hreads.masks, fun _ h => absurd h hd,
        fun h => absurd hs h, fun _ _ => ⟨hreads.bytes, hreads.resv, hreads.logs, hme⟩⟩
  · obtain ⟨hctx, hme⟩ := copyByte_fault_src (dst := dst) hl hs
    exact ⟨hctx.toSameElse, hctx.nest, hctx.masks, fun h => absurd h hs,
      fun _ => ⟨hctx.bytes, hctx.resv, hctx.logs, hme⟩, fun h => absurd h hs⟩

/-! ### The end of a transfer -/

/-- Where a producer or consumer goes when it has published: a locked one to `LZ` (42_ring_buffer R151). -/
def transferEnd (i : Instr) : State → State :=
  if i = .rprod ∨ i = .rcons then State.done else fun t => t.goto .lz

theorem transferEnd_only (i : Instr) (t : State) : OnlyContext t (transferEnd i t) := by
  unfold transferEnd
  split
  · exact done_only t
  · exact goto_only t .lz

/-- `R0` and `ST`, then completion. -/
theorem report_done {t : State} (hl : t.live) (v : Word) :
    Completed (t.report v State.done) { t.me with r0 := v, st := 0#32 } := by
  simp [Completed, State.report, hl, Status.code]

/-- `R0` and `ST`, then the next step. -/
theorem report_goto {t : State} {op : Op} {l : Label} (hl : t.live) (hp : t.me.phase = .at op l)
    (v : Word) (m : Label) :
    (t.report v fun u => u.goto m).me = { t.me with r0 := v, st := 0#32, phase := .at op m } := by
  simp [State.report, hl, hp, Status.code]

/-- When no byte is left a producer or consumer goes to its barrier. -/
theorem stepsOf_copied {i : Instr} (hi : i ∈ loadsDescriptor) (hpeek : i ≠ .rpeek) {s : State}
    (h : ¬ s.me.tmp.i < s.me.tmp.n * s.me.tmp.esz) : stepsOf i s .s5 = some (s.goto .s6) := by
  rcases loadsDescriptor_cases hi with rfl | rfl | rfl | rfl | rfl
  case inr.inr.inl => exact absurd rfl hpeek
  all_goals exact congrArg some (if_neg h)

theorem rpeek_copied {s : State} (h : ¬ s.me.tmp.i < s.me.tmp.n * s.me.tmp.esz) :
    stepsOf .rpeek s .s5 = some (s.report s.me.tmp.n State.done) := congrArg some (if_neg h)

/-- The barrier and the publishing store of a producer or consumer. -/
theorem stepsOf_publish {i : Instr} (hi : i ∈ [Instr.rprod, .rcons, .rprodl, .rconsl]) (s : State) :
    stepsOf i s .s6 = some (s.barrier.goto .s7) ∧
    ∀ a v, (if isProducer i then a = s.me.a0 ∧ v = s.me.tmp.inIdx + s.me.tmp.n
        else a = s.me.a0 + 4#32 ∧ v = s.me.tmp.outIdx + s.me.tmp.n) →
      stepsOf i s .s7 = some (s.store a .word v fun t => t.report s.me.tmp.n (transferEnd i)) := by
  have hzero : s.me.descWord 0#32 = s.me.a0 := BitVec.add_zero _
  simp only [List.mem_cons, List.not_mem_nil, or_false] at hi
  rcases hi with rfl | rfl | rfl | rfl <;> refine ⟨rfl, ?_⟩ <;> rintro a v ⟨rfl, rfl⟩
  · rw [← hzero]; rfl
  · rfl
  · rw [← hzero]; rfl
  · rfl

/-- Settles O48: the last byte leads to the barrier, the barrier to the publishing store. -/
theorem transferEndsWithBarrierAndPublish : Obligations.TransferEndsWithBarrierAndPublish := by
  refine ⟨fun i hi s hp h => ?_, fun i hi s hw => ?_⟩
  · have hl := live_at hp
    by_cases hpeek : i = .rpeek
    · subst hpeek
      exact exec_of_step hp (rpeek_copied h) ⟨_, rfl, report_only s done_only _,
        fun hne => absurd rfl hne, fun _ => report_done hl _⟩
    · exact exec_of_step hp (stepsOf_copied hi hpeek h) ⟨_, rfl, goto_only _ _,
        fun _ => goto_me_of hp hl rfl _, fun he => absurd he hpeek⟩
  · obtain ⟨hbarrier, hpublish⟩ := stepsOf_publish hi s
    refine ⟨fun hp => exec_of_step hp hbarrier (fence_goto hp), fun a v hav hp ha =>
      exec_of_step hp (hpublish a v hav) (store_then hp hw ha
        (fun t => report_only t (transferEnd_only i) _) fun t hl hme => ⟨fun hend => ?_, fun hlock => ?_⟩)⟩
    · rw [transferEnd, if_pos hend, ← hme]
      exact report_done hl _
    · have hend : ¬ (i = .rprod ∨ i = .rcons) := by
        rcases hlock with rfl | rfl <;> decide
      rw [transferEnd, if_neg hend, ← hme]
      exact report_goto hl (by rw [hme]; exact hp) _ .lz

/-- Settles O49: the acquire step, and the release step with no status written. -/
theorem lockedRingCommandsWrap : Obligations.LockedRingCommandsWrap := by
  intro i hi s
  have hsteps : stepsOf i s .l0 = some (s.acquire.goto .s0) ∧
      stepsOf i s .lz = some (s.release s.me.tmp.snap).done := by
    simp only [List.mem_cons, List.not_mem_nil, or_false] at hi
    rcases hi with rfl | rfl | rfl <;> exact ⟨rfl, rfl⟩
  obtain ⟨hacquire, hrelease⟩ := hsteps
  refine ⟨fun hp => exec_of_step hp hacquire (acquire_goto hp), fun hp => exec_of_step hp hrelease
    ⟨_, rfl, (release_only s (live_at hp) _).andThen (done_only _), ?_⟩⟩
  simp [Completed, live_at hp]

/-! ### The commands with a descriptor walk of their own -/

/-- Where `RLIN` and `RLINL` go when they have reported (42_ring_buffer R149, R154). -/
def linearEnd (i : Instr) : State → State := if i = .rlin then State.done else fun t => t.goto .lz

theorem linearEnd_only (i : Instr) (t : State) : OnlyContext t (linearEnd i t) := by
  unfold linearEnd
  split
  · exact done_only t
  · exact goto_only t .lz

theorem stepsOf_linear {i : Instr} (hi : i ∈ [Instr.rlin, .rlinl]) (s : State) :
    stepsOf i s .s0 = some (s.load (s.me.a0 + 8#32) .word fun v t =>
      (t.updTmp (fun u => { u with mask := v })).goto .s1) ∧
    stepsOf i s .s1 = some (s.load s.me.a0 .word fun v t =>
      (t.updTmp (fun u => { u with inIdx := v })).goto .s2) ∧
    stepsOf i s .s2 = some (s.load (s.me.a0 + 4#32) .word fun v t =>
      linearEnd i ((t.updTmp (fun u => { u with outIdx := v })).updMe Context.linearExtent)) := by
  have hzero : s.me.descWord 0#32 = s.me.a0 := BitVec.add_zero _
  simp only [List.mem_cons, List.not_mem_nil, or_false] at hi
  rcases hi with rfl | rfl <;> refine ⟨rfl, ?_, rfl⟩ <;> rw [← hzero] <;> rfl

/-- Settles O50: three loads, and the extent computed from what they latched. -/
theorem linearExtentReports : Obligations.LinearExtentReports := by
  intro i hi s
  obtain ⟨h0, h1, h2⟩ := stepsOf_linear hi s
  refine ⟨fun hp ha => exec_of_step hp h0 (load_then hp ha fun v u => { u with mask := v }),
    fun hp ha => exec_of_step hp h1 (load_then hp ha fun v u => { u with inIdx := v }),
    fun out hp ha hout => ?_⟩
  have hl := live_at hp
  rw [load_ok (accessible_iff.mpr ha), ← hout] at h2
  refine ⟨_, minWord (minWord s.me.a1 (s.me.tmp.inIdx - out))
    (s.me.tmp.mask + 1#32 - (out &&& s.me.tmp.mask)), exec_at hp h2, ?_, ?_, ?_, ?_⟩
  · rw [hout]
    exact (((record_read_only s _ _).andThen (updTmp_only _ _)).andThen (updMe_only _ _)).andThen
      (linearEnd_only i _)
  · rw [minWord_toNat, minWord_toNat]
  · rintro rfl
    simp [linearEnd, hl, Completed, State.updTmp, Context.linearExtent, Temps.used, Temps.offC,
      Temps.capacity, Status.code]
  · rintro rfl
    simp [linearEnd, hl, hp, State.updTmp, Context.linearExtent, Temps.used, Temps.offC,
      Temps.capacity, Status.code]
    rfl

/-- Settles O51: every step is one primitive. -/
theorem skipAdvancesTheConsumer : Obligations.SkipAdvancesTheConsumer := by
  intro s hw
  exact ⟨fun hp ha => exec_of_step hp rfl (load_then hp ha fun v u => { u with outIdx := v }),
    fun hp => exec_of_step hp rfl (fence_goto hp),
    fun hp ha => exec_of_step hp rfl (store_finish hp hw ha)⟩

/-! ### Ring addresses -/

/-- The byte counts of a transfer that fits its storage of `S` bytes: the part up to the end of the storage, and the
part that wraps to its start and stays below the part before. -/
structure TransferFits (t : Temps) (S : Nat) : Prop where
  first : t.off.toNat * t.esz.toNat + t.l.toNat * t.esz.toNat ≤ S
  total : t.n.toNat * t.esz.toNat ≤ S
  wrapped : t.n.toNat * t.esz.toNat ≤ t.l.toNat * t.esz.toNat + t.off.toNat * t.esz.toNat
  size : S < 2 ^ 32
  storage : t.data.toNat + S ≤ 2 ^ 32

/-- A transfer within the bounds of R146 and R147 fits. -/
theorem transferFits {t : Temps} {M : Nat} (hsize : M * t.esz.toNat < 2 ^ 32)
    (hstorage : t.data.toNat + M * t.esz.toNat ≤ 2 ^ 32) (hoff : t.off.toNat < M)
    (hn : t.n.toNat ≤ M) (hl : t.l.toNat = min t.n.toNat (M - t.off.toNat)) :
    TransferFits t (M * t.esz.toNat) where
  first := by rw [← Nat.add_mul]; exact Nat.mul_le_mul_right _ (by omega)
  total := Nat.mul_le_mul_right _ hn
  wrapped := by rw [← Nat.add_mul]; exact Nat.mul_le_mul_right _ (by omega)
  size := hsize
  storage := hstorage

section fits
variable {t : Temps} {S : Nat} (h : TransferFits t S)
include h

/-- No product of the transfer wraps. -/
theorem TransferFits.products : (t.n * t.esz).toNat = t.n.toNat * t.esz.toNat ∧
    (t.l * t.esz).toNat = t.l.toNat * t.esz.toNat ∧
    (t.off * t.esz).toNat = t.off.toNat * t.esz.toNat := by
  obtain ⟨hfirst, htotal, _, hsize, _⟩ := h
  simp only [BitVec.toNat_mul]
  exact ⟨Nat.mod_eq_of_lt (by omega), Nat.mod_eq_of_lt (by omega), Nat.mod_eq_of_lt (by omega)⟩

/-- Nor does an address (42_ring_buffer R160). -/
theorem TransferFits.ringByte_toNat {i : Nat} (hi : i < t.n.toNat * t.esz.toNat) :
    (ringByte t i).toNat = if i < t.l.toNat * t.esz.toNat
      then t.data.toNat + t.off.toNat * t.esz.toNat + i
      else t.data.toNat + (i - t.l.toNat * t.esz.toNat) := by
  obtain ⟨_, hprodL, hprodOff⟩ := h.products
  obtain ⟨hfirst, htotal, hwrapped, hsize, hstorage⟩ := h
  have hword : (BitVec.ofNat 32 i).toNat = i := by
    rw [BitVec.toNat_ofNat]; exact Nat.mod_eq_of_lt (by omega)
  simp only [ringByte, BitVec.lt_def, hword, hprodL]
  split
  · simp only [BitVec.toNat_add, hprodOff, hword]; omega
  · simp only [BitVec.toNat_add, BitVec.toNat_sub, hprodL, hword]; omega

end fits

/-- Settles O52: the two parts of a transfer that fits are intervals of the storage that do not meet. -/
theorem ringAddressesStayInTheStorage : Obligations.RingAddressesStayInTheStorage := by
  intro t j _ hsize hstorage hoff hn hl
  have h := transferFits hsize hstorage hoff hn hl
  refine ⟨h.products.1, fun i hi => ?_, fun i k hi hk heq => ?_⟩
  · rw [h.ringByte_toNat hi]
    obtain ⟨hfirst, htotal, hwrapped, _, _⟩ := h
    split <;> omega
  · have hnat := congrArg BitVec.toNat heq
    rw [h.ringByte_toNat hi, h.ringByte_toNat hk] at hnat
    obtain ⟨hfirst, htotal, hwrapped, _, _⟩ := h
    split at hnat <;> split at hnat <;> omega

end Sys2Proof.Machine
end

section
/-! SUPPORT. The proofs of `RPROD` and `RCONS` run with no other agent between their steps (42_ring_buffer R144 to
R147): the five loads, the copy by induction on the bytes moved, the barrier and the publishing store. -/

namespace Sys2Proof.Machine

/-! ### Runs of one command -/

/-- A run of one command, then another of it. -/
theorem alone_add {i : Instr} {m : Nat} {s t : State} (n : Nat) (h : alone i m s = .next t) :
    alone i (m + n) s = alone i n t := by
  induction m generalizing s with
  | zero => cases h; rw [Nat.zero_add]
  | succ m ih =>
    cases hx : exec i s with
    | next u =>
      rw [alone_step hx] at h
      rw [Nat.add_right_comm, alone_step hx, ih h]
    | fault f => simp [alone, hx] at h
    | refused r => simp [alone, hx] at h

/-- A run of one command, then one more micro-step of it. -/
theorem alone_then {i : Instr} {m : Nat} {s t u : State} (h : alone i m s = .next t)
    (hx : exec i t = .next u) : alone i (m + 1) s = .next u := by
  rw [alone_add 1 h, alone_step hx, alone]

/-- A run keeps the memory canonical. -/
theorem alone_wf {i : Instr} {m : Nat} {s t : State} (h : alone i m s = .next t)
    (hw : s.mem.wf = true) : t.mem.wf = true := by
  induction m generalizing s with
  | zero => cases h; exact hw
  | succ m ih =>
    cases hx : exec i s with
    | next u => exact ih (by rwa [alone_step hx] at h) (exec_wf hx hw)
    | fault f => simp [alone, hx] at h
    | refused r => simp [alone, hx] at h

/-- What a ring command with no mask and no counter of its own leaves alone. -/
structure Quiet (s t : State) : Prop extends SameElse s t where
  nest : t.nest = s.nest
  masks : SameMasks s t

theorem Quiet.refl (s : State) : Quiet s s := ⟨SameElse.refl s, rfl, fun _ => rfl⟩

theorem Quiet.trans {s t u : State} (h : Quiet s t) (g : Quiet t u) : Quiet s u :=
  ⟨h.toSameElse.trans g.toSameElse, g.nest.trans h.nest, fun k => (g.masks k).trans (h.masks k)⟩

/-! ### The five loads -/

/-- `T` holds what a ring command at `s` latches: the words of its descriptor and the bounds of its transfer. -/
structure Latches (i : Instr) (s : State) (T : Temps) : Prop where
  mask : T.mask = s.mem.read (s.me.a0 + 8#32).toNat .word
  inIdx : T.inIdx = s.mem.read s.me.a0.toNat .word
  outIdx : T.outIdx = s.mem.read (s.me.a0 + 4#32).toNat .word
  esz : T.esz = s.mem.read (s.me.a0 + 12#32).toNat .word
  data : T.data = s.mem.read (s.me.a0 + 16#32).toNat .word
  off : T.off = transferStart i T
  n : IsMinOf T.n s.me.a2 (transferBound i T)
  l : IsMinOf T.l T.n (T.mask + 1#32 - T.off)

/-- The temporaries of two states describe the same transfer. -/
structure SameTransfer (T U : Temps) : Prop where
  inIdx : U.inIdx = T.inIdx
  outIdx : U.outIdx = T.outIdx
  esz : U.esz = T.esz
  data : U.data = T.data
  off : U.off = T.off
  n : U.n = T.n
  l : U.l = T.l

theorem ringByte_congr {T U : Temps} (h : SameTransfer T U) (j : Nat) : ringByte U j = ringByte T j := by
  rw [ringByte, ringByte, h.l, h.esz, h.data, h.off]

/-- In the middle of the loads of command `i` from `s`: the context is at step `l` with temporaries `X`, and no byte
has changed. -/
structure Loading (i : Instr) (s t : State) (l : Label) (X : Temps) : Prop extends Quiet s t where
  bytes : SameBytes s t
  me : t.me = { s.me with phase := .at i.op l, tmp := X }

section loading
variable {i : Instr} (hi : i ∈ loadsDescriptor) {s t : State} {l : Label} {X : Temps} {a : Word}
include hi

/-- A load in the middle, as O46 states it of the state it is made in. -/
theorem Loading.reads (h : Loading i s t l X) (hd : descriptorWord l s.me = some a)
    (ha : Accessible s.cfg a .word) :
    ∃ u, exec i t = .next u ∧
      (l = .s0 → Loading i s u .s1 { X with mask := s.mem.read a.toNat .word }) ∧
      (l = .s1 → Loading i s u .s2 { X with inIdx := s.mem.read a.toNat .word }) ∧
      (l = .s2 → Loading i s u .s3 { X with outIdx := s.mem.read a.toNat .word }) ∧
      (l = .s3 → Loading i s u .s4 { X with esz := s.mem.read a.toNat .word }) ∧
      (l = .s4 → Loading i s u .s5 { X with
          data := s.mem.read a.toNat .word, off := transferStart i X, i := 0#32,
          n := u.me.tmp.n, l := u.me.tmp.l } ∧
        IsMinOf u.me.tmp.n s.me.a2 (transferBound i X) ∧
        IsMinOf u.me.tmp.l u.me.tmp.n (X.mask + 1#32 - transferStart i X)) := by
  have hp : t.atStep i l := by rw [State.atStep, h.me]
  obtain ⟨u, hu, hreads, h0, h1, h2, h3, h4⟩ := descriptorIsLoaded i hi t l a hp
    (by rw [h.me]; exact hd) (by rw [h.cfg]; exact ha)
  have hquiet : Quiet s u := h.toQuiet.trans ⟨hreads.toSameElse, hreads.nest, hreads.masks⟩
  have hbytes : SameBytes s u := fun x => (hreads.bytes x).trans (h.bytes x)
  rw [read_of_sameBytes h.bytes, h.me] at h0 h1 h2 h3 h4
  exact ⟨u, hu, fun e => ⟨hquiet, hbytes, h0 e⟩, fun e => ⟨hquiet, hbytes, h1 e⟩,
    fun e => ⟨hquiet, hbytes, h2 e⟩, fun e => ⟨hquiet, hbytes, h3 e⟩,
    fun e => ⟨⟨hquiet, hbytes, (h4 e).1⟩, (h4 e).2⟩⟩

/-- `LOADDESC` alone: five micro-steps that latch what `Latches` says. -/
theorem loadDesc_alone {T : Temps} (hp : s.atStep i .s0)
    (hacc : ∀ o ∈ [0#32, 4#32, 8#32, 12#32, 16#32], Accessible s.cfg (s.me.a0 + o) .word)
    (hT : Latches i s T) :
    ∃ t X, alone i 5 s = .next t ∧ Loading i s t .s5 X ∧ SameTransfer T X ∧ X.i = 0#32 := by
  have hstart : Loading i s s .s0 s.me.tmp := ⟨Quiet.refl s, fun _ => rfl, by rw [← hp]⟩
  have hzero : Accessible s.cfg s.me.a0 .word := by simpa using hacc 0#32 (by simp)
  obtain ⟨t1, hx1, h, _⟩ := hstart.reads hi rfl (hacc 8#32 (by simp))
  obtain ⟨t2, hx2, _, h, _⟩ := (h rfl).reads hi rfl hzero
  obtain ⟨t3, hx3, _, _, h, _⟩ := (h rfl).reads hi rfl (hacc 4#32 (by simp))
  obtain ⟨t4, hx4, _, _, _, h, _⟩ := (h rfl).reads hi rfl (hacc 12#32 (by simp))
  obtain ⟨t5, hx5, _, _, _, _, h⟩ := (h rfl).reads hi rfl (hacc 16#32 (by simp))
  obtain ⟨hlast, hn, hl⟩ := h rfl
  rw [← hT.mask, ← hT.inIdx, ← hT.outIdx, ← hT.esz] at hlast
  rw [← hT.mask, ← hT.inIdx, ← hT.outIdx, ← hT.esz] at hn hl
  have hen : t5.me.tmp.n = T.n := BitVec.eq_of_toNat_eq (hn.trans hT.n.symm)
  have hoff := hT.off
  have hel : t5.me.tmp.l = T.l := by
    refine BitVec.eq_of_toNat_eq (hl.trans ?_)
    rw [hen, hT.l, hoff]
    rfl
  refine ⟨t5, _, ?_, hlast, ⟨rfl, rfl, rfl, hT.data.symm, hoff.symm, hen, hel⟩, rfl⟩
  rw [alone_step hx1, alone_step hx2, alone_step hx3, alone_step hx4, alone_step hx5, alone]

end loading

/-! ### The copy -/

/-- The byte that a stored byte leaves in its cell. -/
theorem get_of_storedByte {s t u : State} {a b : Word}
    (h : StoredCell s t a .byte (u.mem.read b.toNat .byte)) :
    t.mem.get a.toNat = u.mem.get b.toNat := by
  have hcell := congrArg (BitVec.setWidth 8) h.1
  simpa [Memory.read, keepLow] using hcell

/-- The copy of `B` bytes from `src` to `dst` by command `i`: all accessible, no byte stored that is read, none stored
twice, and the addresses those of R145 for the transfer `T`. -/
structure CopyPlan (i : Instr) (s : State) (T : Temps) (B : Nat) (src dst : Nat → Word) : Prop where
  count : (T.n * T.esz).toNat = B
  addr : ∀ j, if isProducer i then src j = s.me.a1 + BitVec.ofNat 32 j ∧ dst j = ringByte T j
    else src j = ringByte T j ∧ dst j = s.me.a1 + BitVec.ofNat 32 j
  access : ∀ j, j < B → Accessible s.cfg (src j) .byte ∧ Accessible s.cfg (dst j) .byte
  apart : ∀ j k, j < B → k < B → src j ≠ dst k
  once : ∀ j k, j < B → k < B → dst j = dst k → j = k

/-- The first `m` bytes are in place, and no other byte has changed. -/
structure Copied (s t : State) (src dst : Nat → Word) (m : Nat) : Prop where
  moved : ∀ j, j < m → t.mem.get (dst j).toNat = s.mem.get (src j).toNat
  other : ∀ x, (∀ j, j < m → x ≠ (dst j).toNat) → t.mem.get x = s.mem.get x

section copy
variable {i : Instr} {s : State} {T : Temps} {B : Nat} {src dst : Nat → Word}

/-- One more byte. -/
theorem Copied.succ (h : CopyPlan i s T B src dst) {t u : State} {m : Nat} (hm : m < B)
    (hc : Copied s t src dst m)
    (hstored : StoredCell t u (dst m) .byte (t.mem.read (src m).toNat .byte)) :
    Copied s u src dst (m + 1) := by
  have hsame : ∀ x, x ≠ (dst m).toNat → u.mem.get x = t.mem.get x := fun x hx =>
    hstored.2 x (by simp only [Width.bytes]; omega)
  refine ⟨fun j hj => ?_, fun x hx => ?_⟩
  · rcases Nat.lt_succ_iff_lt_or_eq.mp hj with hlt | rfl
    · have hne : (dst j).toNat ≠ (dst m).toNat := fun e =>
        absurd (h.once j m (by omega) hm (BitVec.eq_of_toNat_eq e)) (by omega)
      rw [hsame _ hne, hc.moved j hlt]
    · rw [get_of_storedByte hstored]
      exact hc.other _ fun k hk e =>
        h.apart j k hm (by omega) (BitVec.eq_of_toNat_eq e)
  · rw [hsame x (hx m (by omega)), hc.other x fun j hj => hx j (by omega)]

/-- The copy alone: `m` micro-steps move the first `m` bytes. -/
theorem copy_alone (hi : i ∈ loadsDescriptor) (h : CopyPlan i s T B src dst) (hw : s.mem.wf = true)
    (hp : s.atStep i .s5) (hT : SameTransfer T s.me.tmp) (hzero : s.me.tmp.i = 0#32) {m : Nat}
    (hm : m ≤ B) :
    ∃ t, alone i m s = .next t ∧ Quiet s t ∧ Copied s t src dst m ∧
      t.me = { s.me with tmp := { s.me.tmp with i := BitVec.ofNat 32 m } } := by
  have hB : B < 2 ^ 32 := by rw [← h.count]; exact BitVec.isLt _
  induction m with
  | zero =>
    exact ⟨s, rfl, Quiet.refl s, ⟨fun _ hj => absurd hj (Nat.not_lt_zero _), fun _ _ => rfl⟩,
      by rw [← hzero]⟩
  | succ m ih =>
    obtain ⟨t, ht, hquiet, hcopied, hme⟩ := ih (by omega)
    have hword : (BitVec.ofNat 32 m).toNat = m := by
      rw [BitVec.toNat_ofNat]; exact Nat.mod_eq_of_lt (by omega)
    have hring : ringByte t.me.tmp t.me.tmp.i.toNat = ringByte T m := by
      rw [hme, ← ringByte_congr hT m]
      show ringByte _ (BitVec.ofNat 32 m).toNat = _
      rw [hword]
      rfl
    have hleft : t.me.tmp.i < t.me.tmp.n * t.me.tmp.esz := by
      rw [hme]
      show BitVec.ofNat 32 m < s.me.tmp.n * s.me.tmp.esz
      rw [hT.n, hT.esz, BitVec.lt_def, hword, h.count]
      omega
    have haddr : if isProducer i then src m = t.me.a1 + t.me.tmp.i ∧ dst m = ringByte t.me.tmp t.me.tmp.i.toNat
        else src m = ringByte t.me.tmp t.me.tmp.i.toNat ∧ dst m = t.me.a1 + t.me.tmp.i := by
      rw [hring, hme]
      exact h.addr m
    obtain ⟨u, hu, helse, hnest, hmasks, hok, _⟩ := copyMovesOneByte i hi t (src m) (dst m)
      (by rw [State.atStep, hme]; exact hp) hleft (alone_wf ht hw) haddr
    obtain ⟨hsrc, hdst⟩ := h.access m (by omega)
    obtain ⟨hstored, _, _, hume⟩ := hok (by rw [hquiet.cfg]; exact hsrc) (by rw [hquiet.cfg]; exact hdst)
    refine ⟨u, alone_then ht hu, hquiet.trans ⟨helse, hnest, hmasks⟩,
      hcopied.succ h (by omega) hstored, ?_⟩
    rw [hume, hme]
    simp only [BitVec.ofNat_add]

end copy

/-! ### The whole command -/

/-- The end of an unlocked transfer alone: the last byte is done, the barrier, the publishing store of `v` at `a`. -/
theorem publish_alone {i : Instr} (hi : i = .rprod ∨ i = .rcons) {s : State} {a v : Word}
    (hw : s.mem.wf = true) (hp : s.atStep i .s5) (hdone : ¬ s.me.tmp.i < s.me.tmp.n * s.me.tmp.esz)
    (hav : if isProducer i then a = s.me.a0 ∧ v = s.me.tmp.inIdx + s.me.tmp.n
      else a = s.me.a0 + 4#32 ∧ v = s.me.tmp.outIdx + s.me.tmp.n)
    (ha : Accessible s.cfg a .word) :
    ∃ t, alone i 3 s = .next t ∧ Quiet s t ∧ StoredCell s t a .word v ∧
      Completed t { s.me with r0 := s.me.tmp.n, st := 0#32 } := by
  have hmem : i ∈ loadsDescriptor ∧ i ≠ .rpeek ∧ i ∈ [Instr.rprod, .rcons, .rprodl, .rconsl] := by
    rcases hi with rfl | rfl <;> decide
  obtain ⟨hload, hpeek, hpublish⟩ := hmem
  obtain ⟨hlast, hend⟩ := transferEndsWithBarrierAndPublish
  obtain ⟨t, hxt, hctx, htme, _⟩ := hlast i hload s hp hdone
  have hwt := exec_wf hxt hw
  obtain ⟨u, hxu, hfence, hume⟩ := (hend i hpublish t hwt).1 (by rw [State.atStep, htme hpeek])
  rw [htme hpeek] at hume
  have hcfg : u.cfg = s.cfg := hfence.cfg.trans hctx.cfg
  obtain ⟨r, hxr, hwrites, hcompleted, _⟩ := (hend i hpublish u (exec_wf hxu hwt)).2 a v
    (by rw [hume]; exact hav) (by rw [State.atStep, hume]) (by rw [hcfg]; exact ha)
  have hbytes : SameBytes s u := fun x => (hfence.bytes x).trans (hctx.bytes x)
  refine ⟨r, by rw [alone_step hxt, alone_step hxu, alone_step hxr, alone], ?_,
    storedCell_after hbytes hwrites.bytes, ?_⟩
  · exact (Quiet.trans ⟨hctx.toSameElse, hctx.nest, hctx.masks⟩
      ⟨hfence.toSameElse, hfence.nest, hfence.masks⟩).trans
        ⟨hwrites.toSameElse, hwrites.nest, hwrites.masks⟩
  · have hcomp := hcompleted hi
    rw [hume] at hcomp
    exact hcomp

/-- A producer or consumer alone: the loads, the copy, the barrier, the publishing store of `v` at `a`. -/
theorem transfer_alone {i : Instr} (hi : i = .rprod ∨ i = .rcons) {s : State} {T : Temps} {B : Nat}
    {src dst : Nat → Word} {a v : Word} (hw : s.mem.wf = true) (hp : s.atStep i .s0)
    (hacc : ∀ o ∈ [0#32, 4#32, 8#32, 12#32, 16#32], Accessible s.cfg (s.me.a0 + o) .word)
    (hT : Latches i s T) (hcopy : CopyPlan i s T B src dst)
    (hav : if isProducer i then a = s.me.a0 ∧ v = T.inIdx + T.n
      else a = s.me.a0 + 4#32 ∧ v = T.outIdx + T.n)
    (ha : Accessible s.cfg a .word)
    (hout : ∀ j, j < B → (dst j).toNat < a.toNat ∨ a.toNat + 4 ≤ (dst j).toNat) :
    ∃ t, alone i (B + 8) s = .next t ∧ SameElse s t ∧ t.nest = s.nest ∧ SameMasks s t ∧
      (∀ j, j < B → t.mem.get (dst j).toNat = s.mem.get (src j).toNat) ∧
      t.mem.read a.toNat .word = v ∧
      (∀ x, (∀ j, j < B → x ≠ (dst j).toNat) → (x < a.toNat ∨ a.toNat + 4 ≤ x) →
        t.mem.get x = s.mem.get x) ∧
      Completed t { s.me with r0 := T.n, st := 0#32 } := by
  have hload : i ∈ loadsDescriptor := by rcases hi with rfl | rfl <;> decide
  obtain ⟨t, X, ht, hloading, hX, hzero⟩ := loadDesc_alone hload hp hacc hT
  have hplan : CopyPlan i t T B src dst := by
    obtain ⟨hcount, haddr, haccess, hapart, honce⟩ := hcopy
    exact ⟨hcount, by rw [hloading.me]; exact haddr, by rw [hloading.cfg]; exact haccess, hapart, honce⟩
  obtain ⟨u, hu, hquiet, hcopied, hme⟩ := copy_alone hload hplan (alone_wf ht hw)
    (by rw [State.atStep, hloading.me]) (by rw [hloading.me]; exact hX)
    (by rw [hloading.me]; exact hzero) le_rfl
  rw [hloading.me] at hme
  have hdone : ¬ u.me.tmp.i < u.me.tmp.n * u.me.tmp.esz := by
    rw [hme]
    show ¬ BitVec.ofNat 32 B < X.n * X.esz
    rw [hX.n, hX.esz, ← hcopy.count, BitVec.ofNat_toNat, BitVec.setWidth_eq]
    exact BitVec.lt_irrefl _
  have hbefore : Quiet s u := hloading.toQuiet.trans hquiet
  rw [← hX.inIdx, ← hX.outIdx, ← hX.n] at hav
  obtain ⟨r, hr, hafter, ⟨hcell, hsame⟩, hcompleted⟩ := publish_alone hi (a := a) (v := v)
    (alone_wf hu (alone_wf ht hw)) (by rw [State.atStep, hme]) hdone (by rw [hme]; exact hav)
    (by rw [hbefore.cfg]; exact ha)
  have hall := hbefore.trans hafter
  rw [hme] at hcompleted
  refine ⟨r, ?_, hall.toSameElse, hall.nest, hall.masks, fun j hj => ?_, hcell, fun x hx ho => ?_, ?_⟩
  · rw [show B + 8 = 5 + (B + 3) by omega, alone_add _ ht, alone_add 3 hu, hr]
  · rw [hsame _ (hout j hj), hcopied.moved j hj, hloading.bytes]
  · rw [hsame x ho, hcopied.other x hx, hloading.bytes]
  · rw [← hX.n]
    exact hcompleted

/-- Settles O53: from the caller's buffer to the ring, then `producer_index`. -/
theorem produceAlone : Obligations.ProduceAlone := by
  intro s T B hw hp hacc hmask hin hout hesz hdata hoff hn hl hB haccess hindex hapart honce
  exact transfer_alone (src := fun j => s.me.a1 + BitVec.ofNat 32 j) (dst := ringByte T) (.inl rfl)
    hw hp hacc ⟨hmask, hin, hout, hesz, hdata, hoff, hn, hl⟩
    ⟨hB.symm, fun _ => ⟨rfl, rfl⟩, haccess, hapart, honce⟩ ⟨rfl, rfl⟩
    (by simpa using hacc 0#32 (by simp)) hindex

/-- The bytes of the caller's buffer do not meet: it has fewer than `2^32` of them. -/
theorem buffer_once {a : Word} {B j k : Nat} (hB : B < 2 ^ 32) (hj : j < B) (hk : k < B)
    (h : a + BitVec.ofNat 32 j = a + BitVec.ofNat 32 k) : j = k := by
  have hnat := congrArg BitVec.toNat ((BitVec.add_right_inj a).mp h)
  rwa [BitVec.toNat_ofNat, BitVec.toNat_ofNat, Nat.mod_eq_of_lt (by omega),
    Nat.mod_eq_of_lt (by omega)] at hnat

/-- Settles O54: from the ring to the caller's buffer, then `consumer_index`. -/
theorem consumeAlone : Obligations.ConsumeAlone := by
  intro s T B hw hp hacc hmask hin hout hesz hdata hoff hn hl hB haccess hindex hapart
  exact transfer_alone (src := ringByte T) (dst := fun j => s.me.a1 + BitVec.ofNat 32 j) (.inr rfl)
    hw hp hacc ⟨hmask, hin, hout, hesz, hdata, hoff, hn, hl⟩
    ⟨hB.symm, fun _ => ⟨rfl, rfl⟩, fun j hj => (haccess j hj).symm,
      fun j k hj hk e => hapart k j hk hj e.symm,
      fun j k hj hk e => buffer_once (by rw [hB]; exact BitVec.isLt _) hj hk e⟩ ⟨rfl, rfl⟩
    (hacc 4#32 (by simp)) hindex

end Sys2Proof.Machine
end
